-- ==== Sys2Proof/Word.lean ====
section
/-! DEFINITION. The word and byte types of the CPZ5 decode block (spec/00_scope.md R5, R6, R7). Every register, key,
seed and cipher word is 32 bits wide and every operation on one is modulo 2^32, which is what `BitVec 32` does. -/

namespace Sys2Proof

/-- A 32-bit word: `WORD` and `ADDR` of R5. -/
abbrev Word := BitVec 32

/-- A byte of buffer RAM or of the substitution table (R5, R38). -/
abbrev Byte := BitVec 8

end Sys2Proof
end

