-- ==== Sys2Proof/Syntax.lean ====
section
/-! DEFINITION. The commands of the block (spec/30_encoding.md R63, one constructor per row of spec/opcode_table.json),
the names of its port registers (spec/10_state.md R21), the host's port transactions (spec/43_host_and_system.md
R161 to R164) and the host assembly of R66 and R67. -/

namespace Sys2Proof

/-- A command of the opcode map R63. The only operand in the word is IMM8, an 8-bit unsigned value (R62): a term of
this type cannot hold anything else, so every term is well formed. -/
inductive Instr where
  /-- NOP (R160). -/
  | nop
  /-- HUF.DECODE (R100). -/
  | hufDecode
  /-- SUB.INIT (R120). -/
  | subInit
  /-- SUB.DECODE #k (R122). -/
  | subDecode (k : Byte)
  /-- SUB.ENCODE #k (R123). -/
  | subEncode (k : Byte)
  /-- ENT.DECRYPT (R142). -/
  | entDecrypt
  /-- ENT.ENCRYPT (R143). -/
  | entEncrypt
  deriving DecidableEq, Repr

/-- The named slots of the register port (R21). A reserved offset has no name. -/
inductive PortReg where
  | cmd | status | errcode | errinfo
  | srcAddr | srcLen | dstAddr | dstLen
  | initKey | initSummand | decoderFactor
  | seed | entryInitKey | entryKeyPos | entryTailKey | secretLen
  | cmvsMd5 (i : Fin 4)
  | res0 | res1
  | secret (j : Fin 16)
  | tblwin (j : Fin 64)
  deriving DecidableEq, Repr

/-- An offset in the register space: 1024 bytes, 0x000 .. 0x3FF (R40). -/
abbrev Offset := BitVec 10

/-- One event the outside world gives the block: a transaction of the host on one of the two ports (R161 to R164), the
reset input (R200), or power-on (R200, "a reset with buffer RAM unspecified"). -/
inductive HostOp where
  /-- Register port write of `v` at offset `o` (R161). A write to CMD issues a command. -/
  | regWrite (o : Offset) (v : Word)
  /-- Register port read at offset `o` (R162). -/
  | regRead (o : Offset)
  /-- Buffer port write of the byte `b` at `a` (R163). -/
  | bufWrite (a : Word) (b : Byte)
  /-- Buffer port read of the byte at `a` (R164). -/
  | bufRead (a : Word)
  /-- The reset input is asserted (R200, R201). -/
  | resetInput
  /-- Power is applied: a reset with buffer RAM unspecified (R200, R52). -/
  | powerOn
  deriving DecidableEq, Repr

/-- A host event with the outside's choice of WHEN it reaches the block, as plain data. `early` says that it arrives
before the running command completes (it is then an access while BUSY = 1); otherwise a running command completes
first. R182 leaves that choice open, and both must be admitted (program P5 of spec/95_test_vectors.md). -/
structure HostTxn where
  op : HostOp
  early : Bool
  deriving DecidableEq, Repr

/-- What a host read answered: the value that left the block on the port. -/
inductive HostResponse where
  | reg (o : Offset) (v : Word)
  | buf (a : Word) (b : Byte)
  deriving DecidableEq, Repr

/-- The command mnemonics of R66. -/
inductive Mnemonic where
  | nop | hufDecode | subInit | subDecode | subEncode | entDecrypt | entEncrypt
  deriving DecidableEq, Repr

/-- A command as the assembler reads it (R66): a mnemonic and an optional `#k`, a number of the source text. -/
structure AsmCmd where
  op : Mnemonic
  imm : Option Nat
  deriving DecidableEq, Repr

/-- A register operand of the assembly (R66): a name of R21, or a byte offset. -/
inductive RegRef where
  | name (r : PortReg)
  | offset (o : Nat)
  deriving DecidableEq, Repr

/-- A line of the host assembly: the operations of R66 and the pseudo-instructions of R67. -/
inductive AsmLine where
  | cmd (c : AsmCmd)
  | wr (r : RegRef) (v : Nat)
  | rd (r : RegRef)
  | bw (a : Nat) (bs : List Nat)
  | br (a n : Nat)
  | wait
  | setSrc (a l : Nat)
  | setDst (a l : Nat)
  | ldSecret (ws : List Nat)
  | ldMd5 (m0 m1 m2 m3 : Nat)
  | clrSt
  | run (c : AsmCmd)
  deriving DecidableEq, Repr

end Sys2Proof
end

