-- ==== Sys2Proof/WellFormed.lean ====
section
/-! DEFINITION. The checks on terms that can be ill formed: a line of the host assembly (spec/30_encoding.md R66, R67).
A term of `Instr` cannot be: its one operand is an 8-bit value by its type (R62). -/

namespace Sys2Proof

/-- The mnemonics of format C8 (R61), which take `#k`. -/
def Mnemonic.takesImm : Mnemonic → Bool
  | .subDecode | .subEncode => true
  | .nop | .hufDecode | .subInit | .entDecrypt | .entEncrypt => false

/-- R66: `#k` with 0 ≤ k ≤ 255 on SUB.DECODE and SUB.ENCODE, and no `#k` on any other command; each of the two wrong
spellings is an assembler error. -/
def AsmCmd.wf (c : AsmCmd) : Bool :=
  match c.imm with
  | some k => c.op.takesImm && decide (k ≤ 255)
  | none => !c.op.takesImm

/-- A number of the source text that a 32-bit register or address holds. -/
def fitsWord (v : Nat) : Bool := decide (v < 2 ^ 32)

/-- A byte offset of the register space (R40). -/
def RegRef.wf : RegRef → Bool
  | .name _ => true
  | .offset o => decide (o < 0x400)

/-- The checks of R66 and R67 on a line: every number fits where it goes, a BW writes at least one byte, and LDSECRET
takes at most 16 words. -/
def AsmLine.wf : AsmLine → Bool
  | .cmd c => c.wf
  | .wr r v => r.wf && fitsWord v
  | .rd r => r.wf
  | .bw a bs => !bs.isEmpty && decide (a + bs.length ≤ 2 ^ 32) && bs.all (fun b => decide (b < 256))
  | .br a n => decide (a + n ≤ 2 ^ 32)
  | .wait => true
  | .setSrc a l => fitsWord a && fitsWord l
  | .setDst a l => fitsWord a && fitsWord l
  | .ldSecret ws => decide (ws.length ≤ 16) && ws.all fitsWord
  | .ldMd5 m0 m1 m2 m3 => fitsWord m0 && fitsWord m1 && fitsWord m2 && fitsWord m3
  | .clrSt => true
  | .run c => c.wf

end Sys2Proof
end

