-- ==== Sys2Proof/Decode.lean ====
section
/-! DEFINITION. Decoding a command word, total on every 32-bit word (spec/30_encoding.md R60 to R65), and the encoder
written from the same table R63. -/

namespace Sys2Proof

/-- Why a command word selects no row of R63 (the three cases of R64). -/
inductive Illegal where
  /-- RSV, bits 31:16, is not 0. -/
  | reservedNotZero
  /-- OP is in 0x07 .. 0xFF. -/
  | unknownOp
  /-- IMM8 is not 0 on a command of format C0. -/
  | immNotZero
  deriving DecidableEq, Repr

/-- The field OP, bits 7:0 (R60). -/
def opField (w : Word) : Byte := w.extractLsb' 0 8

/-- The field IMM8, bits 15:8 (R60, R62). -/
def immField (w : Word) : Byte := w.extractLsb' 8 8

/-- The field RSV, bits 31:16 (R60). -/
def rsvField (w : Word) : BitVec 16 := w.extractLsb' 16 16

/-- The commands of format C0 by their OP (R63). -/
def decodeC0 (op : Byte) : Option Instr :=
  match op.toNat with
  | 0x00 => some .nop
  | 0x01 => some .hufDecode
  | 0x02 => some .subInit
  | 0x05 => some .entDecrypt
  | 0x06 => some .entEncrypt
  | _ => none

/-- The commands of format C8 by their OP (R63), given IMM8. -/
def decodeC8 (op k : Byte) : Option Instr :=
  match op.toNat with
  | 0x03 => some (.subDecode k)
  | 0x04 => some (.subEncode k)
  | _ => none

/-- R65, the decoding procedure: an illegal word is rejected with its reason. -/
def decode (w : Word) : Except Illegal Instr :=
  if rsvField w ≠ 0 then .error .reservedNotZero
  else
    match decodeC8 (opField w) (immField w), decodeC0 (opField w) with
    | some i, _ => .ok i
    | none, some i => if immField w = 0 then .ok i else .error .immNotZero
    | none, none => .error .unknownOp

/-- A command word from its three fields (R60). -/
def packCommand (rsv : BitVec 16) (imm op : Byte) : Word := rsv ++ imm ++ op

/-- The word of a command (R61, R63). -/
def encode : Instr → Word
  | .nop => packCommand 0 0 0x00
  | .hufDecode => packCommand 0 0 0x01
  | .subInit => packCommand 0 0 0x02
  | .subDecode k => packCommand 0 k 0x03
  | .subEncode k => packCommand 0 k 0x04
  | .entDecrypt => packCommand 0 0 0x05
  | .entEncrypt => packCommand 0 0 0x06

/-- The `match` column of R63. -/
def rowMatch : Instr → Word
  | .nop => 0x00000000
  | .hufDecode => 0x00000001
  | .subInit => 0x00000002
  | .subDecode _ => 0x00000003
  | .subEncode _ => 0x00000004
  | .entDecrypt => 0x00000005
  | .entEncrypt => 0x00000006

/-- The `mask` column of R63. -/
def rowMask : Instr → Word
  | .nop | .hufDecode | .subInit | .entDecrypt | .entEncrypt => 0xFFFFFFFF
  | .subDecode _ | .subEncode _ => 0xFFFF00FF

/-- The command word whose bits are the low `nbits` of `w`, every bit above them 0. A command is one 32-bit word that is
written whole (R60), so no byte order enters. -/
def commandWord (nbits w : Nat) : Word := BitVec.ofNat 32 (w % 2 ^ nbits)

/-- The instruction the decoder reads from an opcode-table word. -/
def decodeTableWord (nbits w : Nat) : Option Instr :=
  match decode (commandWord nbits w) with
  | .ok i => some i
  | .error _ => none

end Sys2Proof
end

