-- ==== Sys2Proof/Config.lean ====
section
/-! DEFINITION. What an instance of the block fixes (spec/00_scope.md R5, spec/10_state.md R19) and the free values
the spec leaves open (the draws of its glossary). Nothing here changes while the machine runs. -/

namespace Sys2Proof.Config

/-- The parameters of one instance of the block (R5, R19): the model takes them as an argument, carried by the field
`cfg` of the state that no step writes (log entry 1). -/
structure Params where
  /-- `BUF_SIZE`: the byte size of buffer RAM. -/
  bufSize : Nat
  /-- `HUF_MAX_ID`: the largest internal-node id HUF may allocate. -/
  hufMaxId : Nat
  deriving DecidableEq, Repr

/-- The bounds R5 sets: 16 ≤ `BUF_SIZE` ≤ 2^32, and `HUF_MAX_ID` inside the 512 node slots (at least 255, so that the
internal-node ids 256 .. `HUF_MAX_ID` are a range that may be empty; the lower bound is DEDUCED, log entry 1). -/
def Params.wf (p : Params) : Bool :=
  decide (16 ≤ p.bufSize ∧ p.bufSize ≤ 2 ^ 32 ∧ 255 ≤ p.hufMaxId ∧ p.hufMaxId ≤ 511)

/-- How far `BUF_SIZE` lies above its least value 16. R5 leaves it OPEN, so it has no body: no proof can use a value. -/
opaque bufSizeAbove16 : Fin 4294967281

/-- `BUF_SIZE` of the instance that `State.reset` starts (R5: OPEN, between 16 and 2^32). -/
def bufSize : Nat := bufSizeAbove16.val + 16

/-- `HUF_MAX_ID` of the instance that `State.reset` starts: the default R5 names. -/
def hufMaxId : Nat := 511

/-- The parameters of the instance that `State.reset` starts. -/
def params : Params := { bufSize := bufSize, hufMaxId := hufMaxId }

/-- The byte that draw number `n` gives (glossary "draw"; R44, R52, R201): under no law, so without a body. -/
opaque freeByte : Nat → Byte

/-- The word that draw number `n` gives, for a TBLWIN read that the spec leaves open (R32, R162). -/
opaque freeWord : Nat → Word

end Sys2Proof.Config
end

