-- ==== Sys2Proof/Machine/State.lean ====
section
/-! DEFINITION. The state of the block as plain data: every piece of state spec/10_state.md gives it, and four fields of
the model's own: `cfg` (the parameters of R5), `draws`, `pending` and `responses`. -/

namespace Sys2Proof.Machine

open Sys2Proof

/-- The error codes of R184. ERRCODE never holds another value, so the register is this type and its byte a view. -/
inductive ErrCode where
  | none | badCmd | range | overlap | noTable | cfg | hufTree | hufInput
  deriving DecidableEq, Repr

/-- The stored bits of STATUS (R23). BUSY is not stored: it is 1 exactly while a command word is latched
(`State.running`); bits 31:5 read as zero and ignore writes, so they are not stored either. -/
structure Status where
  done : Bool
  err : Bool
  tblValid : Bool
  wbusy : Bool
  deriving DecidableEq, Repr

/-- The registers that the host writes and no command does (R24, R27, R28, R29). -/
structure PortRegs where
  srcAddr : Word
  srcLen : Word
  dstAddr : Word
  dstLen : Word
  initKey : Word
  initSummand : Word
  decoderFactor : Word
  seed : Word
  entryInitKey : Word
  entryKeyPos : Word
  /-- Bits 7:0 only: bits 31:8 read 0 and ignore writes (R29). -/
  entryTailKey : Byte
  /-- WARL 0 .. 16 (R29). -/
  secretLen : Fin 17
  cmvsMd5 : Vector Word 4
  secret : Vector Word 16
  deriving DecidableEq, Repr

/-- The side of an internal node whose subtree is being parsed. -/
inductive Side where
  | left | right
  deriving DecidableEq, Repr

/-- A frame of the tree-parse stack (R35): one per internal node on the current path. -/
structure Frame where
  node : Nat
  side : Side
  deriving DecidableEq, Repr

/-- HUF state: the bit reader, the counters, the parse stack (R35, R100) and the node tables LHS and RHS (R30), whose
entry `v - 256` belongs to the internal node `v` (ids 256 .. 511, the upper half of the 512 slots of R5). -/
structure HufState where
  cache : Word
  cached : Nat
  fetched : Nat
  nextId : Nat
  out : Nat
  stack : List Frame
  lhs : Vector Nat 256
  rhs : Vector Nat 256
  deriving DecidableEq, Repr

/-- ENT state: the working secret array SK (R31), the running key and the secret index 0 .. 15 (R36). -/
structure EntState where
  sk : Vector Word 16
  rk : Word
  k : BitVec 4
  deriving DecidableEq, Repr

/-- The block. -/
structure State where
  /-- The parameters of the instance (R5, R19); no step writes them. -/
  cfg : Config.Params
  /-- The host-written registers. -/
  regs : PortRegs
  /-- STATUS (R23). -/
  status : Status
  /-- ERRCODE (R25). -/
  errcode : ErrCode
  /-- ERRINFO (R26). -/
  errinfo : Word
  /-- RES0 (R34). -/
  res0 : Word
  /-- RES1 (R34). -/
  res1 : Word
  /-- TBL (R32). -/
  tbl : Vector Byte 256
  /-- HUF per-command state and node tables (R30, R35). -/
  huf : HufState
  /-- ENT per-command state (R31, R36). -/
  ent : EntState
  /-- The latched command word (R22, R180); BUSY = 1 exactly when there is one. -/
  running : Option Word
  /-- Buffer RAM (R38, R40): the bytes written since power-on, addresses strictly rising. -/
  mem : List Host.Cell
  /-- Model's own: the number of the next draw (R52 and the glossary's "draw"). -/
  draws : Nat
  /-- Model's own: the host events still to come, in program order (R53). -/
  pending : List HostTxn
  /-- Model's own: what the host's reads answered, the newest first. -/
  responses : List HostResponse
  deriving DecidableEq, Repr

/-- The reasons a step of the block can stop with a fault: there is none. Every error of R184 is an architectural outcome
with a next state (R181), and every host access has an effect (R161 to R164), so nobody raises a fault. -/
inductive Fault where
  deriving DecidableEq, Repr

/-- The reasons a step can be refused. -/
inductive Refusal where
  /-- An arm of `exec` that has no meaning yet, by its mnemonic: raised by no arm of this model (all have one). Safe: the
  model stops where the block would go on. -/
  | notModelled (mnemonic : String)
  deriving DecidableEq, Repr

/-- BUSY (R23): a command is accepted and not yet complete. -/
def State.busy (s : State) : Bool := s.running.isSome

/-- `s` with other host-written registers. -/
def State.setRegs (s : State) (r : PortRegs) : State := { s with regs := r }
/-- `s` with other STATUS bits. -/
def State.setStatus (s : State) (x : Status) : State := { s with status := x }
/-- `s` with another error report: ERRCODE and ERRINFO. -/
def State.setError (s : State) (e : ErrCode) (info : Word) : State := { s with errcode := e, errinfo := info }
/-- `s` with other result registers. -/
def State.setRes (s : State) (r0 r1 : Word) : State := { s with res0 := r0, res1 := r1 }
/-- `s` with another substitution table. -/
def State.setTbl (s : State) (t : Vector Byte 256) : State := { s with tbl := t }
/-- `s` with other HUF state. -/
def State.setHuf (s : State) (h : HufState) : State := { s with huf := h }
/-- `s` with other ENT state. -/
def State.setEnt (s : State) (e : EntState) : State := { s with ent := e }
/-- `s` with another latched command word. -/
def State.setRunning (s : State) (c : Option Word) : State := { s with running := c }
/-- `s` with other buffer RAM. -/
def State.setMem (s : State) (m : List Host.Cell) : State := { s with mem := m }
/-- `s` with another draw number. -/
def State.setDraws (s : State) (d : Nat) : State := { s with draws := d }
/-- `s` with other host events to come. -/
def State.setPending (s : State) (p : List HostTxn) : State := { s with pending := p }
/-- `s` with other answers given to the host. -/
def State.setResponses (s : State) (r : List HostResponse) : State := { s with responses := r }

/-- The host-written registers after reset: all 0 (R39). -/
def PortRegs.reset : PortRegs :=
  { srcAddr := 0, srcLen := 0, dstAddr := 0, dstLen := 0, initKey := 0, initSummand := 0, decoderFactor := 0, seed := 0,
    entryInitKey := 0, entryKeyPos := 0, entryTailKey := 0, secretLen := 0, cmvsMd5 := Vector.replicate 4 0,
    secret := Vector.replicate 16 0 }

/-- HUF state after reset. R39 leaves it unspecified (every HUF.DECODE sets it before reading it): the zeros are a
DESIGN CHOICE (log entry 3). -/
def HufState.reset : HufState :=
  { cache := 0, cached := 0, fetched := 0, nextId := 0, out := 0, stack := [], lhs := Vector.replicate 256 0,
    rhs := Vector.replicate 256 0 }

/-- ENT state after reset. R39 leaves it unspecified (every ENT command sets it before reading it): the zeros are a
DESIGN CHOICE (log entry 4). -/
def EntState.reset : EntState := { sk := Vector.replicate 16 0, rk := 0, k := 0 }

/-- An instance with the parameters `p` right after power-on (R39, R200): STATUS and every register 0, the engine idle,
no byte of buffer RAM written. TBL is unspecified there and guarded by TBL_VALID = 0; its zeros are a DESIGN CHOICE
(log entry 2). -/
def State.resetWith (p : Config.Params) : State :=
  { cfg := p, regs := PortRegs.reset, status := { done := false, err := false, tblValid := false, wbusy := false },
    errcode := .none, errinfo := 0, res0 := 0, res1 := 0, tbl := Vector.replicate 256 0, huf := HufState.reset,
    ent := EntState.reset, running := none, mem := [], draws := 0, pending := [], responses := [] }

/-- The machine right after reset (R39, R200, R202), for the instance whose `BUF_SIZE` R5 leaves open. -/
def State.reset : State := State.resetWith Config.params

end Sys2Proof.Machine
end

