-- ==== Sys2Proof/Machine/Memory.lean ====
section
/-! DEFINITION. Buffer RAM as a list of (address, byte) pairs (spec/20_memory.md R40, R44, R52), with addresses strictly
rising. An address that is not listed holds no value: nothing has written it since power-on, and R52 makes every read of
it a draw. So no listed entry can equal what an unlisted address reads as, and no write removes an entry. -/

namespace Sys2Proof.Machine

open Host

/-- What an address holds: `none` for a byte that nothing has written since power-on (R52). -/
def Memory.read? : List Cell → Nat → Option Byte
  | [], _ => none
  | (k, v) :: m, a => if k = a then some v else Memory.read? m a

/-- The list with the byte `b` at the address `a` (R42, R44), the rest unchanged. -/
def Memory.write : List Cell → Nat → Byte → List Cell
  | [], a, b => [(a, b)]
  | (k, v) :: m, a, b =>
    if a < k then (a, b) :: (k, v) :: m
    else if a = k then (a, b) :: m
    else (k, v) :: Memory.write m a b

/-- The canonical form: addresses strictly rising. -/
abbrev Memory.wf (m : List Cell) : Prop := m.Pairwise (fun x y => x.1 < y.1)

/-- Every listed address is a byte of a buffer of `size` bytes (R40). -/
abbrev Memory.within (m : List Cell) (size : Nat) : Prop := ∀ x ∈ m, x.1 < size

end Sys2Proof.Machine
end

