-- ==== Sys2Proof/Machine/Operands.lean ====
section
/-! DEFINITION. The operand forms of the block: bytes of a word, rotation, operand windows (spec/20_memory.md R45, R58),
the entries of TBL, the bit order of HUF (spec/40_huffman.md R103), the register map (spec/10_state.md R21) and the clamp
of SECRET_LEN (R29). -/

namespace Sys2Proof.Machine

open Sys2Proof

/-- Byte `i` of a word, `(w >> (8*i)) & 0xFF` (R6, R42). -/
def byteOf (w : Word) (i : Nat) : Byte := w.extractLsb' (8 * i) 8

/-- The word whose byte 0 is `b0` and byte 3 is `b3`: little-endian (R41, R43). -/
def wordOf (b0 b1 b2 b3 : Byte) : Word := b3 ++ b2 ++ b1 ++ b0

/-- `rotr(a, n)` (R7). -/
def rotr (a : Word) (n : Nat) : Word := a.rotateRight n

/-- The value of a field after one more bit: the first bit read is the most significant (R103, decision D9). The other
reading of D9 is one change here. -/
def shiftIn (r bit : Nat) : Nat := 2 * r + bit

/-- R45: the window of `l` bytes at `a` is legal, on unbounded integers. -/
def windowLegal (bufSize : Nat) (a l : Word) : Bool := decide (a.toNat + l.toNat ≤ bufSize)

/-- R58: both windows are non-empty and share a byte. -/
def windowsOverlap (srcA srcL dstA dstL : Word) : Bool :=
  decide (0 < srcL.toNat) && decide (0 < dstL.toNat) && decide (srcA.toNat < dstA.toNat + dstL.toNat)
    && decide (dstA.toNat < srcA.toNat + srcL.toNat)

/-- `TBL[i]` (R8). -/
def tblGet (t : Vector Byte 256) (i : Byte) : Byte := t[i.toNat]'i.isLt

/-- The swap of `TBL[i]` and `TBL[j]`, both read before either is written (R120). -/
def tblSwap (t : Vector Byte 256) (i j : Byte) : Vector Byte 256 :=
  (t.set i.toNat (tblGet t j) i.isLt).set j.toNat (tblGet t i) j.isLt

/-- The identity table (R120). -/
def tblIdentity : Vector Byte 256 := Vector.ofFn fun i => BitVec.ofNat 8 i.val

/-- The least index `j` with `TBL[j] = b` (R123, "linear search"). In a permutation there is exactly one; where a table has
none, which no reachable state with TBL_VALID = 1 has (R121), the value 0 is never used by the block. -/
def tblIndexOf (t : Vector Byte 256) (b : Byte) : Byte := BitVec.ofNat 8 (t.toList.idxOf b)

/-- The four entries `TBL[4j] .. TBL[4j+3]` as TBLWIN[j] shows them, little-endian (R21). -/
def tblWindow (t : Vector Byte 256) (j : Fin 64) : Word :=
  wordOf (tblGet t (BitVec.ofNat 8 (4 * j.val))) (tblGet t (BitVec.ofNat 8 (4 * j.val + 1)))
    (tblGet t (BitVec.ofNat 8 (4 * j.val + 2))) (tblGet t (BitVec.ofNat 8 (4 * j.val + 3)))

/-- SECRET_LEN is WARL: a write of `v` stores `min(v, 16)`, with `v` the full 32-bit value (R29). -/
def clampSecretLen (v : Word) : Fin 17 := ⟨min v.toNat 16, by omega⟩

/-- The byte offset of a register (R21). -/
def regOffset : PortReg → Offset
  | .cmd => 0x000
  | .status => 0x004
  | .errcode => 0x008
  | .errinfo => 0x00C
  | .srcAddr => 0x010
  | .srcLen => 0x014
  | .dstAddr => 0x018
  | .dstLen => 0x01C
  | .initKey => 0x020
  | .initSummand => 0x024
  | .decoderFactor => 0x028
  | .seed => 0x02C
  | .entryInitKey => 0x030
  | .entryKeyPos => 0x034
  | .entryTailKey => 0x038
  | .secretLen => 0x03C
  | .cmvsMd5 i => BitVec.ofNat 10 (0x040 + 4 * i.val)
  | .res0 => 0x050
  | .res1 => 0x054
  | .secret j => BitVec.ofNat 10 (0x080 + 4 * j.val)
  | .tblwin j => BitVec.ofNat 10 (0x100 + 4 * j.val)

/-- The register whose slot starts at the word offset `o`, or none for a reserved one (R21). -/
def regAtSlot (o : Nat) : Option PortReg :=
  match o with
  | 0x000 => some .cmd
  | 0x004 => some .status
  | 0x008 => some .errcode
  | 0x00C => some .errinfo
  | 0x010 => some .srcAddr
  | 0x014 => some .srcLen
  | 0x018 => some .dstAddr
  | 0x01C => some .dstLen
  | 0x020 => some .initKey
  | 0x024 => some .initSummand
  | 0x028 => some .decoderFactor
  | 0x02C => some .seed
  | 0x030 => some .entryInitKey
  | 0x034 => some .entryKeyPos
  | 0x038 => some .entryTailKey
  | 0x03C => some .secretLen
  | 0x050 => some .res0
  | 0x054 => some .res1
  | o =>
    if 0x040 ≤ o ∧ o < 0x050 then some (.cmvsMd5 (Fin.ofNat 4 ((o - 0x040) / 4)))
    else if 0x080 ≤ o ∧ o < 0x0C0 then some (.secret (Fin.ofNat 16 ((o - 0x080) / 4)))
    else if 0x100 ≤ o ∧ o < 0x200 then some (.tblwin (Fin.ofNat 64 ((o - 0x100) / 4)))
    else none

/-- R40: offset bits 1:0 are ignored, so an access at `o` reaches the word at `o & 0x3FC`. -/
def regAt (o : Offset) : Option PortReg := regAtSlot (o &&& 0x3FC).toNat

end Sys2Proof.Machine
end

