-- ==== Sys2Proof/Machine/Flags.lean ====
section
/-! DEFINITION. The STATUS bits and the error codes: the block has no other flag (spec/10_state.md R23, R25, R37;
spec/60_exceptions.md R184). -/

namespace Sys2Proof.Machine

open Sys2Proof

/-- The code of an error as ERRCODE bits 7:0 hold it (R184). -/
def ErrCode.code : ErrCode → Byte
  | .none => 0x00
  | .badCmd => 0x01
  | .range => 0x02
  | .overlap => 0x03
  | .noTable => 0x04
  | .cfg => 0x05
  | .hufTree => 0x06
  | .hufInput => 0x07

/-- ERRCODE as a read shows it: bits 31:8 read 0 (R25). -/
def errcodeWord (e : ErrCode) : Word := e.code.setWidth 32

/-- A STATUS bit at its place. -/
def statusBit (b : Bool) (i : Nat) : Word := (BitVec.ofBool b).setWidth 32 <<< i

/-- STATUS as a read shows it (R23): BUSY, DONE, ERR, TBL_VALID, WBUSY in bits 0 to 4, bits 31:5 zero. -/
def statusWord (busy : Bool) (x : Status) : Word :=
  statusBit busy 0 ||| statusBit x.done 1 ||| statusBit x.err 2 ||| statusBit x.tblValid 3 ||| statusBit x.wbusy 4

/-- A host write of `v` to STATUS while BUSY = 0 (R23, R161): a 1 in bit 1, 2 or 4 clears DONE, ERR or WBUSY; bits 0 and 3
and the reserved bits ignore the write. -/
def Status.clearBy (x : Status) (v : Word) : Status :=
  { x with done := x.done && !v.getLsbD 1, err := x.err && !v.getLsbD 2, wbusy := x.wbusy && !v.getLsbD 4 }

/-- STATUS at command accept (R180): DONE and ERR cleared. -/
def Status.atAccept (x : Status) : Status := { x with done := false, err := false }

/-- STATUS at a completion without error (R181): DONE set. -/
def Status.atDone (x : Status) : Status := { x with done := true }

/-- STATUS at a completion with an error (R181): ERR set. -/
def Status.atError (x : Status) : Status := { x with err := true }

/-- STATUS with TBL_VALID set, at the completion of SUB.INIT (R33, R121). -/
def Status.withTable (x : Status) : Status := { x with tblValid := true }

/-- STATUS with WBUSY set: a host write reached the block while BUSY = 1 (R183). -/
def Status.withWbusy (x : Status) : Status := { x with wbusy := true }

end Sys2Proof.Machine
end

