-- ==== Sys2Proof/Machine/Ops.lean ====
section
/-! DEFINITION. The shared operations: draws, the engine's accesses to buffer RAM (spec/20_memory.md R41, R42), command
accept, the accept checks, completion and the taking of an error (spec/60_exceptions.md R180 to R187). -/

namespace Sys2Proof.Machine

open Sys2Proof

/-! ### Draws -/

/-- A fresh byte under no law (glossary "draw"). -/
def drawByte (s : State) : Byte × State := (Config.freeByte s.draws, s.setDraws (s.draws + 1))

/-- A fresh word under no law (R32, R162). -/
def drawWord (s : State) : Word × State := (Config.freeWord s.draws, s.setDraws (s.draws + 1))

/-! ### Engine accesses to buffer RAM -/

/-- `MemRead(a, 1)` (R41): the byte at `a`, or a draw where nothing has written it since power-on (R52). -/
def readByte (a : Nat) (s : State) : Byte × State :=
  match Memory.read? s.mem a with
  | some b => (b, s)
  | none => drawByte s

/-- `MemWrite(a, 1, b)` (R42). -/
def writeByte (a : Nat) (b : Byte) (s : State) : State := s.setMem (Memory.write s.mem a b)

/-- `MemRead(a, 4)` (R41): little-endian, each byte read once, the lowest address first. -/
def readWord (a : Nat) (s : State) : Word × State :=
  match readByte a s with
  | (b0, s) =>
    match readByte (a + 1) s with
    | (b1, s) =>
      match readByte (a + 2) s with
      | (b2, s) =>
        match readByte (a + 3) s with
        | (b3, s) => (wordOf b0 b1 b2 b3, s)

/-- `MemWrite(a, 4, v)` (R42): little-endian. -/
def writeWord (a : Nat) (v : Word) (s : State) : State :=
  writeByte (a + 3) (byteOf v 3) (writeByte (a + 2) (byteOf v 2) (writeByte (a + 1) (byteOf v 1)
    (writeByte a (byteOf v 0) s)))

/-- Replace each of the `n` bytes from `a` upward by `f` of it, in place and in address order, each byte read once and
then written once (R47): the loop of SUB.DECODE and SUB.ENCODE, and of the tail bytes of ENT. -/
def mapBytes (f : Byte → Byte) (a : Nat) : Nat → State → State
  | 0, s => s
  | n + 1, s =>
    match readByte a s with
    | (b, s) => mapBytes f (a + 1) n (writeByte a (f b) s)

/-! ### Command accept -/

/-- R180: the command word `w` is accepted. DONE, ERR, ERRCODE and ERRINFO are cleared and the word is latched, which is
what BUSY = 1 says. -/
def accept (w : Word) (s : State) : State :=
  ((s.setStatus s.status.atAccept).setError .none 0).setRunning (some w)

/-! ### The checks at accept, before any byte is read or written (R185) -/

/-- An error with its ERRINFO (R184). -/
abbrev ErrReport := ErrCode × Word

/-- R185: the first check that applies is the one error a command reports. -/
def firstError : List (Option ErrReport) → Option ErrReport
  | [] => none
  | some e :: _ => some e
  | none :: rest => firstError rest

/-- R185 (2): the SRC window is illegal, ERRINFO 0. -/
def srcWindowError (s : State) : Option ErrReport :=
  if windowLegal s.cfg.bufSize s.regs.srcAddr s.regs.srcLen then none else some (.range, 0)

/-- R185 (3): the DST window is illegal, ERRINFO 1. -/
def dstWindowError (s : State) : Option ErrReport :=
  if windowLegal s.cfg.bufSize s.regs.dstAddr s.regs.dstLen then none else some (.range, 1)

/-- R185 (4): the SRC and DST windows share a byte, ERRINFO 0. -/
def overlapError (s : State) : Option ErrReport :=
  if windowsOverlap s.regs.srcAddr s.regs.srcLen s.regs.dstAddr s.regs.dstLen then some (.overlap, 0) else none

/-- R185 (5): no table has been built since reset (R33), ERRINFO 0. -/
def tableError (s : State) : Option ErrReport :=
  if s.status.tblValid then none else some (.noTable, 0)

/-- R185 (6): ENTRY_KEY_POS is above 15 (R29), ERRINFO its value. -/
def keyPosError (s : State) : Option ErrReport :=
  if s.regs.entryKeyPos.toNat ≤ 15 then none else some (.cfg, s.regs.entryKeyPos)

/-- The checks of HUF.DECODE, in order (R100, R185). -/
def hufChecks (s : State) : Option ErrReport := firstError [srcWindowError s, dstWindowError s, overlapError s]

/-- The checks of SUB.DECODE and SUB.ENCODE, in order (R122, R123, R185). -/
def subChecks (s : State) : Option ErrReport := firstError [srcWindowError s, tableError s]

/-- The checks of ENT.DECRYPT and ENT.ENCRYPT, in order (R142, R143, R185). -/
def entChecks (s : State) : Option ErrReport := firstError [srcWindowError s, tableError s, keyPosError s]

/-! ### Completion, and the taking of an error -/

/-- R181 without error: RES0, RES1, DONE; the latch is emptied, so BUSY = 0. ERRCODE and ERRINFO stay as accept left
them. -/
def complete (r0 r1 : Word) (s : State) : State :=
  ((s.setRes r0 r1).setStatus s.status.atDone).setRunning none

/-- R181, R186 with an error: RES0, RES1, ERR, ERRCODE, ERRINFO; BUSY = 0. It saves nothing else, rolls nothing back and
transfers control nowhere (the block has no handler). There is no return from it: the report stands until the next accept,
or for ERR alone a host write of 1 (R187), which are `accept` and `Status.clearBy`. -/
def raiseError (e : ErrReport) (r0 r1 : Word) (s : State) : State :=
  (((s.setRes r0 r1).setStatus s.status.atError).setError e.1 e.2).setRunning none

/-- R64, R185 (1): the word selects no command. E_BADCMD with the word in ERRINFO, RES0 and RES1 0 (R34). -/
def raiseBadCommand (w : Word) (s : State) : State := raiseError (.badCmd, w) 0 0 s

end Sys2Proof.Machine
end

