-- ==== Sys2Proof/Machine/Sub.lean ====
section
/-! DEFINITION. SUB, the substitution-table engine (spec/41_substitution.md R120 to R123). -/

namespace Sys2Proof.Machine

open Sys2Proof

/-- The advance of the running key after both swaps of a round: `summand + f * rotr(key, 2)` (R120). -/
def nextKey (summand factor key : Word) : Word := summand + factor * rotr key 2

/-- The two swaps of a round with the key of that round (R120). -/
def roundSwaps (key : Word) (t : Vector Byte 256) : Vector Byte 256 :=
  tblSwap (tblSwap t (byteOf key 2) (byteOf key 0)) (byteOf key 1) (byteOf key 3)

/-- `n` rounds of the schedule from a key and a table (R120): the last key and the table. -/
def initRounds (summand factor : Word) : Nat → Word → Vector Byte 256 → Word × Vector Byte 256
  | 0, key, t => (key, t)
  | n + 1, key, t => initRounds summand factor n (nextKey summand factor key) (roundSwaps key t)

/-- SUB.INIT (R120, R121): rebuild TBL from the identity in 256 rounds; RES0 the key after the last advance, RES1 0,
TBL_VALID set. -/
def execSubInit (s : State) : Host.Outcome State Fault Refusal :=
  match initRounds s.regs.initSummand s.regs.decoderFactor 256 s.regs.initKey tblIdentity with
  | (key, t) => .next (complete key 0 ((s.setTbl t).setStatus s.status.withTable))

/-- The byte map of SUB.DECODE #k: `TBL[k ^ b]` (R122). -/
def subDecodeByte (t : Vector Byte 256) (k b : Byte) : Byte := tblGet t (k ^^^ b)

/-- The byte map of SUB.ENCODE #k: `j ^ k` for the index `j` with `TBL[j] = b` (R123). -/
def subEncodeByte (t : Vector Byte 256) (k b : Byte) : Byte := tblIndexOf t b ^^^ k

/-- A command that maps every byte of the SRC window in place: the checks of R185, then the loop, RES0 = SRC_LEN and
RES1 = 0 (R122, R123). -/
def substitute (f : Byte → Byte) (s : State) : State :=
  match subChecks s with
  | some e => raiseError e 0 0 s
  | none => complete s.regs.srcLen 0 (mapBytes f s.regs.srcAddr.toNat s.regs.srcLen.toNat s)

/-- SUB.DECODE #k (R122). -/
def execSubDecode (k : Byte) (s : State) : Host.Outcome State Fault Refusal :=
  .next (substitute (subDecodeByte s.tbl k) s)

/-- SUB.ENCODE #k (R123). -/
def execSubEncode (k : Byte) (s : State) : Host.Outcome State Fault Refusal :=
  .next (substitute (subEncodeByte s.tbl k) s)

end Sys2Proof.Machine
end

