-- ==== Sys2Proof/Machine/Ent.lean ====
section
/-! DEFINITION. ENT, the rolling entry cipher (spec/42_entry_cipher.md R140 to R143). -/

namespace Sys2Proof.Machine

open Sys2Proof

/-- A secret word with each byte `b` replaced by `K0 ^ TBL[b]`, in its own byte position (R140). -/
def mapSecret (t : Vector Byte 256) (k0 : Byte) (w : Word) : Word :=
  wordOf (k0 ^^^ tblGet t (byteOf w 0)) (k0 ^^^ tblGet t (byteOf w 1)) (k0 ^^^ tblGet t (byteOf w 2))
    (k0 ^^^ tblGet t (byteOf w 3))

/-- `K0`, the low byte of `CMVS_MD5[1] >> 2` (R140). -/
def secretKeyByte (r : PortRegs) : Byte := byteOf (r.cmvsMd5[1] >>> 2) 0

/-- `build_SK` (R140): the first SECRET_LEN secret words mapped, the others 0, then every word XOR SEED. -/
def buildSk (r : PortRegs) (t : Vector Byte 256) : Vector Word 16 :=
  Vector.ofFn fun j =>
    (if j.val < r.secretLen.val then mapSecret t (secretKeyByte r) r.secret[j] else 0) ^^^ r.seed

/-- The start state of an ENT command (R140, R141): SK, the running key ENTRY_INIT_KEY and the index ENTRY_KEY_POS. The
index fits 4 bits, because E_CFG has refused a value above 15. -/
def entStart (s : State) : State :=
  s.setEnt { sk := buildSk s.regs s.tbl, rk := s.regs.entryInitKey, k := s.regs.entryKeyPos.setWidth 4 }

/-- `SK[(rk >> 6) & 0xF] ^ (SK[k] >> 1)` (R142). -/
def entMask (e : EntState) : Word :=
  e.sk[(e.rk.extractLsb' 6 4).toNat]'(e.rk.extractLsb' 6 4).isLt ^^^ (e.sk[e.k.toNat]'e.k.isLt >>> 1)

/-- `md5[rk & 3]` (R142). -/
def entMd5 (r : PortRegs) (e : EntState) : Word :=
  r.cmvsMd5[(e.rk.extractLsb' 0 2).toNat]'(e.rk.extractLsb' 0 2).isLt

/-- The plaintext word of the ciphertext word `c` (R142). -/
def decryptWord (r : PortRegs) (e : EntState) (c : Word) : Word := entMd5 r e ^^^ ((c ^^^ entMask e) - r.seed)

/-- The ciphertext word of the plaintext word `p` (R143). -/
def encryptWord (r : PortRegs) (e : EntState) (p : Word) : Word := ((p ^^^ entMd5 r e) + r.seed) ^^^ entMask e

/-- The advance after a word with the plaintext word `p` (R141): `k <- (k + 1) & 0xF`, `rk <- rk + seed + p`. -/
def entAdvance (r : PortRegs) (p : Word) (e : EntState) : EntState :=
  { e with k := e.k + 1, rk := e.rk + r.seed + p }

/-- Which way an ENT command goes. -/
inductive Direction where
  | decrypt | encrypt
  deriving DecidableEq, Repr

/-- The word a command stores for the word `x` it reads (R142, R143). -/
def cipherWord (d : Direction) (r : PortRegs) (e : EntState) (x : Word) : Word :=
  match d with
  | .decrypt => decryptWord r e x
  | .encrypt => encryptWord r e x

/-- The plaintext word of a step that reads `x` and stores `y`: both commands advance with it (R141). -/
def plainWord (d : Direction) (x y : Word) : Word :=
  match d with
  | .decrypt => y
  | .encrypt => x

/-- The word loop of R142 and R143: `n` words from `a` upward, in place. -/
def cipherWords (d : Direction) (a : Nat) : Nat → State → State
  | 0, s => s
  | n + 1, s =>
    match readWord a s with
    | (x, s) =>
      cipherWords d (a + 4) n
        ((writeWord a (cipherWord d s.regs s.ent x) s).setEnt
          (entAdvance s.regs (plainWord d x (cipherWord d s.regs s.ent x)) s.ent))

/-- The byte map of the tail bytes: `TBL[b ^ T]` to decrypt, its inverse to encrypt (R142, R143). -/
def tailByte (d : Direction) (t : Vector Byte 256) (key b : Byte) : Byte :=
  match d with
  | .decrypt => tblGet t (b ^^^ key)
  | .encrypt => tblIndexOf t b ^^^ key

/-- The body of an ENT command after its checks: the words, then the 0 to 3 tail bytes. -/
def entBody (d : Direction) (s : State) : State :=
  mapBytes (tailByte d s.tbl s.regs.entryTailKey) (s.regs.srcAddr.toNat + 4 * (s.regs.srcLen.toNat / 4))
    (s.regs.srcLen.toNat % 4) (cipherWords d s.regs.srcAddr.toNat (s.regs.srcLen.toNat / 4) (entStart s))

/-- Completion of an ENT command: RES0 the running key and RES1 the index after the last word (R34). -/
def entComplete (s : State) : State := complete s.ent.rk (s.ent.k.setWidth 32) s

/-- An ENT command: the checks of R185, the body, the completion. -/
def entCommand (d : Direction) (s : State) : State :=
  match entChecks s with
  | some e => raiseError e 0 0 s
  | none => entComplete (entBody d s)

/-- ENT.DECRYPT (R142). -/
def execEntDecrypt (s : State) : Host.Outcome State Fault Refusal := .next (entCommand .decrypt s)

/-- ENT.ENCRYPT (R143). -/
def execEntEncrypt (s : State) : Host.Outcome State Fault Refusal := .next (entCommand .encrypt s)

end Sys2Proof.Machine
end

