-- ==== Sys2Proof/Machine/Huf.lean ====
section
/-! DEFINITION. HUF, the bitstream Huffman decoder (spec/40_huffman.md R100 to R105). -/

namespace Sys2Proof.Machine

open Sys2Proof

/-- The result of a part of HUF.DECODE: a value and the state reached, or an error raised at the state reached (R186:
errors are precise). -/
inductive HufRun (α : Type) where
  | value (a : α) (s : State)
  | raised (e : ErrCode) (s : State)

/-- Go on with the value, or stop at the error. -/
def HufRun.andThen {α β : Type} (r : HufRun α) (f : α → State → HufRun β) : HufRun β :=
  match r with
  | .value a s => f a s
  | .raised e s => .raised e s

/-! ### The bit reader (R103) -/

/-- The cached word after one bit has been taken from it: LSB first. -/
def HufState.dropBit (h : HufState) : HufState := { h with cache := h.cache >>> 1, cached := h.cached - 1 }

/-- Fetch the next word of the SRC window into the cache. -/
def fetchWord (s : State) : State :=
  match readWord (s.regs.srcAddr.toNat + s.huf.fetched) s with
  | (w, s) => s.setHuf { s.huf with cache := w, fetched := s.huf.fetched + 4, cached := 32 }

/-- Make sure that a bit is cached: a word is fetched only when the cache is empty, and a fetch that needs bytes beyond
the SRC window raises E_HUF_INPUT and reads nothing. -/
def fillCache (s : State) : HufRun Unit :=
  if s.huf.cached = 0 then
    if s.regs.srcLen.toNat < s.huf.fetched + 4 then .raised .hufInput s else .value () (fetchWord s)
  else .value () s

/-- The next bit of the stream, 0 or 1. -/
def getBit (s : State) : HufRun Nat :=
  (fillCache s).andThen fun _ s => .value (s.huf.cache.getLsbD 0).toNat (s.setHuf s.huf.dropBit)

/-- `get_bits(n)`, going on from the value `r` of the bits read so far. -/
def getBitsFrom (r : Nat) : Nat → State → HufRun Nat
  | 0, s => .value r s
  | n + 1, s => (getBit s).andThen fun bit s => getBitsFrom (shiftIn r bit) n s

/-- `get_bits(n)`. -/
def getBits (n : Nat) (s : State) : HufRun Nat := getBitsFrom 0 n s

/-! ### The tree (R101) -/

/-- Take the next node id for an internal node and enter its left subtree. -/
def HufState.openNode (h : HufState) : HufState :=
  { h with nextId := h.nextId + 1, stack := { node := h.nextId, side := .left } :: h.stack }

/-- `LHS[v] <- l`, and enter the right subtree. -/
def HufState.closeLeft (h : HufState) (v l : Nat) : HufState :=
  { h with lhs := h.lhs.setIfInBounds (v - 256) l, stack := { node := v, side := .right } :: h.stack.tail }

/-- `RHS[v] <- r`, and leave the node. -/
def HufState.closeRight (h : HufState) (v r : Nat) : HufState :=
  { h with rhs := h.rhs.setIfInBounds (v - 256) r, stack := h.stack.tail }

/-- `LHS[v]`. -/
def HufState.left (h : HufState) (v : Nat) : Nat := h.lhs[v - 256]?.getD 0

/-- `RHS[v]`. -/
def HufState.right (h : HufState) (v : Nat) : Nat := h.rhs[v - 256]?.getD 0

/-- `parse_tree` (R101), with room for `room` more internal nodes on the current path. HUF.DECODE starts it with
`HUF_MAX_ID` - 255, which the depth of a path never exceeds (R101): where no room is left, the id about to be taken is
above `HUF_MAX_ID` (Laws/Huf.lean, `parseTree_room`). -/
def parseTree : Nat → State → HufRun Nat
  | 0, s =>
    (getBits 1 s).andThen fun bit s =>
      if bit = 1 then .raised .hufTree s else getBits 8 s
  | room + 1, s =>
    (getBits 1 s).andThen fun bit s =>
      if bit = 1 then
        if s.cfg.hufMaxId < s.huf.nextId then .raised .hufTree s
        else
          (parseTree room (s.setHuf s.huf.openNode)).andThen fun l s' =>
            (parseTree room (s'.setHuf (s'.huf.closeLeft s.huf.nextId l))).andThen fun r s'' =>
              .value s.huf.nextId (s''.setHuf (s''.huf.closeRight s.huf.nextId r))
      else getBits 8 s

/-! ### The symbols (R102) -/

/-- How many bits of the SRC window the reader can still deliver. -/
def bitsLeft (s : State) : Nat := s.huf.cached + 8 * (s.regs.srcLen.toNat - s.huf.fetched)

/-- Descend from the node `sym` to a leaf, with at most `fuel` bits. Started with `bitsLeft`, it runs out only where the
next bit would raise E_HUF_INPUT, which is then what it does (Laws/Huf.lean, `bitsLeft_getBit`). -/
def descend : Nat → Nat → State → HufRun Nat
  | 0, sym, s => if sym < 256 then .value sym s else .raised .hufInput s
  | fuel + 1, sym, s =>
    if sym < 256 then .value sym s
    else (getBits 1 s).andThen fun bit s => descend fuel (if bit = 1 then s.huf.right sym else s.huf.left sym) s

/-- Write the output byte `sym` at `DST_ADDR + out` and count it. -/
def emit (sym : Nat) (s : State) : State :=
  (writeByte (s.regs.dstAddr.toNat + s.huf.out) (BitVec.ofNat 8 sym) s).setHuf { s.huf with out := s.huf.out + 1 }

/-- Decode `n` more output bytes. -/
def decodeSymbols (root : Nat) : Nat → State → HufRun Unit
  | 0, s => .value () s
  | n + 1, s => (descend (bitsLeft s) root s).andThen fun sym s => decodeSymbols root n (emit sym s)

/-! ### The command (R100, R104) -/

/-- The start state of a HUF.DECODE (R35, R100). The node tables keep what they held: no entry is read before this
command writes it (R30, R102). -/
def hufStart (s : State) : State :=
  s.setHuf { s.huf with cache := 0, cached := 0, fetched := 0, nextId := 256, out := 0, stack := [] }

/-- The pseudocode of R100: the tree, then `DST_LEN` symbols. -/
def hufBody (s : State) : HufRun Unit :=
  (parseTree (s.cfg.hufMaxId - 255) (hufStart s)).andThen fun root s => decodeSymbols root s.regs.dstLen.toNat s

/-- The number of input bytes fetched, as RES0 reports it (R34). -/
def hufRes0 (s : State) : Word := BitVec.ofNat 32 s.huf.fetched

/-- The node counter, as RES1 reports it (R34). -/
def hufRes1 (s : State) : Word := BitVec.ofNat 32 s.huf.nextId

/-- The completion of a HUF.DECODE (R100, R104): on an error ERRINFO is the number of output bytes written, and RES0 and
RES1 are the counters at the error. -/
def hufComplete : HufRun Unit → State
  | .value _ s => complete (hufRes0 s) (hufRes1 s) s
  | .raised e s => raiseError (e, BitVec.ofNat 32 s.huf.out) (hufRes0 s) (hufRes1 s) s

/-- HUF.DECODE (R100): the checks of R185, then the pseudocode. -/
def execHufDecode (s : State) : Host.Outcome State Fault Refusal :=
  match hufChecks s with
  | some e => .next (raiseError e 0 0 s)
  | none => .next (hufComplete (hufBody s))

end Sys2Proof.Machine
end

