-- ==== Sys2Proof/Machine/System.lean ====
section
/-! DEFINITION. NOP (spec/43_host_and_system.md R160). -/

namespace Sys2Proof.Machine

open Sys2Proof

/-- NOP (R160): complete at once with RES0 = RES1 = 0. -/
def execNop (s : State) : Host.Outcome State Fault Refusal := .next (complete 0 0 s)

end Sys2Proof.Machine
end

