-- ==== Sys2Proof/Machine/Dispatch.lean ====
section
/-! DEFINITION. One arm per command (spec/30_encoding.md R63). -/

namespace Sys2Proof.Machine

-- The effect of a command from accept to completion, as one engine step (R48, R181).
def exec (i : Instr) (s : State) : Host.Outcome State Fault Refusal :=
  match i with
  | .nop => Sys2Proof.Machine.execNop s
  | .hufDecode => Sys2Proof.Machine.execHufDecode s
  | .subInit => Sys2Proof.Machine.execSubInit s
  | .subDecode k => Sys2Proof.Machine.execSubDecode k s
  | .subEncode k => Sys2Proof.Machine.execSubEncode k s
  | .entDecrypt => Sys2Proof.Machine.execEntDecrypt s
  | .entEncrypt => Sys2Proof.Machine.execEntEncrypt s

end Sys2Proof.Machine
end

