-- ==== Sys2Proof/Machine/HostPort.lean ====
section
/-! DEFINITION. The host's side: the transactions of the register port and the buffer port (spec/43_host_and_system.md R161
to R164, spec/60_exceptions.md R183), the reset input and power-on (spec/70_reset_and_hazards.md R200, R201), and which
agent moves next (spec/10_state.md R20, spec/60_exceptions.md R182). -/

namespace Sys2Proof.Machine

open Sys2Proof

/-! ### Register port -/

/-- What a read of a register shows, TBLWIN apart (R21, R162). -/
def regValue (s : State) : PortReg → Word
  | .cmd => 0
  | .status => statusWord s.busy s.status
  | .errcode => errcodeWord s.errcode
  | .errinfo => s.errinfo
  | .srcAddr => s.regs.srcAddr
  | .srcLen => s.regs.srcLen
  | .dstAddr => s.regs.dstAddr
  | .dstLen => s.regs.dstLen
  | .initKey => s.regs.initKey
  | .initSummand => s.regs.initSummand
  | .decoderFactor => s.regs.decoderFactor
  | .seed => s.regs.seed
  | .entryInitKey => s.regs.entryInitKey
  | .entryKeyPos => s.regs.entryKeyPos
  | .entryTailKey => s.regs.entryTailKey.setWidth 32
  | .secretLen => BitVec.ofNat 32 s.regs.secretLen.val
  | .cmvsMd5 i => s.regs.cmvsMd5[i]
  | .res0 => s.res0
  | .res1 => s.res1
  | .secret j => s.regs.secret[j]
  | .tblwin j => tblWindow s.tbl j

/-- R162: a register read. A reserved offset reads 0; TBLWIN reads a draw while TBL_VALID = 0 or BUSY = 1 (R205, decision
D30; log entry 9); nothing else changes. -/
def readReg (o : Offset) (s : State) : Word × State :=
  match regAt o with
  | none => (0, s)
  | some (.tblwin j) =>
    if s.busy || !s.status.tblValid then drawWord s else (regValue s (.tblwin j), s)
  | some r => (regValue s r, s)

/-- The effect of a write of `v` to a register while BUSY = 0 (R161): CMD issues a command, STATUS has its W1C bits, an RO
register and TBLWIN ignore the write. -/
def storeReg (v : Word) (s : State) : PortReg → State
  | .cmd => accept v s
  | .status => s.setStatus (s.status.clearBy v)
  | .errcode | .errinfo | .res0 | .res1 | .tblwin _ => s
  | .srcAddr => s.setRegs { s.regs with srcAddr := v }
  | .srcLen => s.setRegs { s.regs with srcLen := v }
  | .dstAddr => s.setRegs { s.regs with dstAddr := v }
  | .dstLen => s.setRegs { s.regs with dstLen := v }
  | .initKey => s.setRegs { s.regs with initKey := v }
  | .initSummand => s.setRegs { s.regs with initSummand := v }
  | .decoderFactor => s.setRegs { s.regs with decoderFactor := v }
  | .seed => s.setRegs { s.regs with seed := v }
  | .entryInitKey => s.setRegs { s.regs with entryInitKey := v }
  | .entryKeyPos => s.setRegs { s.regs with entryKeyPos := v }
  | .entryTailKey => s.setRegs { s.regs with entryTailKey := v.setWidth 8 }
  | .secretLen => s.setRegs { s.regs with secretLen := clampSecretLen v }
  | .cmvsMd5 i => s.setRegs { s.regs with cmvsMd5 := s.regs.cmvsMd5.set i.val v i.isLt }
  | .secret j => s.setRegs { s.regs with secret := s.regs.secret.set j.val v j.isLt }

/-- R183: a host write while BUSY = 1 is dropped and sets WBUSY. -/
def dropWrite (s : State) : State := s.setStatus s.status.withWbusy

/-- R161: a register write. -/
def writeReg (o : Offset) (v : Word) (s : State) : State :=
  if s.busy then dropWrite s
  else
    match regAt o with
    | none => s
    | some r => storeReg v s r

/-! ### Buffer port -/

/-- R164: a buffer read. While BUSY = 1 it is a draw; at or above `BUF_SIZE` it is 0. -/
def readBuffer (a : Word) (s : State) : Byte × State :=
  if s.busy then drawByte s
  else if a.toNat < s.cfg.bufSize then readByte a.toNat s
  else (0, s)

/-- R163: a buffer write. While BUSY = 1 it is dropped and sets WBUSY; at or above `BUF_SIZE` it does nothing. -/
def writeBuffer (a : Word) (b : Byte) (s : State) : State :=
  if s.busy then dropWrite s
  else if a.toNat < s.cfg.bufSize then writeByte a.toNat b s
  else s

/-! ### Reset -/

/-- The window that the running command writes, as a start and a length (R201): the DST window of HUF.DECODE, the SRC
window of SUB.DECODE, SUB.ENCODE, ENT.DECRYPT and ENT.ENCRYPT; empty where no command runs or it writes none. -/
def writtenWindow (s : State) : Nat × Nat :=
  match s.running with
  | none => (0, 0)
  | some w =>
    match decode w with
    | .ok .hufDecode => (s.regs.dstAddr.toNat, s.regs.dstLen.toNat)
    | .ok (.subDecode _) | .ok (.subEncode _) | .ok .entDecrypt | .ok .entEncrypt =>
      (s.regs.srcAddr.toNat, s.regs.srcLen.toNat)
    | .ok .nop | .ok .subInit | .error _ => (0, 0)

/-- A byte of buffer RAM takes a value drawn once and stable afterwards (R201); an address outside the buffer is no byte. -/
def scrambleByte (a : Nat) (s : State) : State :=
  match drawByte s with
  | (b, s) => if a < s.cfg.bufSize then writeByte a b s else s

/-- The `n` bytes from `a` upward take drawn values (R201). -/
def scramble (a : Nat) : Nat → State → State
  | 0, s => s
  | n + 1, s => scramble (a + 1) n (scrambleByte a s)

/-- Everything but buffer RAM as reset leaves it (R200, R39), in the world of `s`: its parameters, its buffer RAM, the draws
made so far, the host events to come and the answers given. -/
def resetRegisters (s : State) : State :=
  ((((State.resetWith s.cfg).setMem s.mem).setDraws s.draws).setPending s.pending).setResponses s.responses

/-- The reset input (R200, R201). -/
def resetInput (s : State) : State := resetRegisters (scramble (writtenWindow s).1 (writtenWindow s).2 s)

/-- Power-on: a reset with buffer RAM unspecified (R200, R52). -/
def powerOn (s : State) : State := resetRegisters (s.setMem [])

/-! ### Events -/

/-- A value goes out on a port. -/
def respond (r : HostResponse) (s : State) : State := s.setResponses (r :: s.responses)

/-- The effect of one host event. -/
def hostEvent (op : HostOp) (s : State) : State :=
  match op with
  | .regWrite o v => writeReg o v s
  | .regRead o =>
    match readReg o s with
    | (v, s) => respond (.reg o v) s
  | .bufWrite a b => writeBuffer a b s
  | .bufRead a =>
    match readBuffer a s with
    | (b, s) => respond (.buf a b) s
  | .resetInput => resetInput s
  | .powerOn => powerOn s

/-- What happens next. -/
inductive Move where
  /-- A host event takes effect. -/
  | host (op : HostOp) (rest : List HostTxn)
  /-- The engine runs the latched command to its completion (R48). -/
  | engine (w : Word)
  /-- Nothing: the engine is idle and no host event is left (R195, R202). -/
  | idle
  deriving DecidableEq, Repr

/-- R20, R53, R182: host events take effect one at a time in program order. While a command runs, the next one takes effect
first only if the outside made it `early`; otherwise the engine completes. Since `pending` is a finite list, BUSY does
not stay 1 for ever. -/
def nextMove (s : State) : Move :=
  match s.running, s.pending with
  | some w, [] => .engine w
  | some w, t :: rest => if t.early then .host t.op rest else .engine w
  | none, t :: rest => .host t.op rest
  | none, [] => .idle

/-- The host events with the first one held back until the engine has moved. -/
def holdBack : List HostTxn → List HostTxn
  | [] => []
  | t :: rest => { t with early := false } :: rest

/-- `s` after the host's write of `w` to CMD has been accepted (R180), with the engine to move next. -/
def issueNow (w : Word) (s : State) : State := (accept w s).setPending (holdBack s.pending)

end Sys2Proof.Machine
end

