-- ==== Sys2Proof/Machine/Step.lean ====
section
/-! DEFINITION. One step of the block: a host event, or the engine running the latched command to its completion. -/

namespace Sys2Proof.Machine

/-- One step. The engine decodes the latched word first (R185 (1)): an illegal one raises E_BADCMD, another one runs. An
idle block with no host event left stays as it is (R195). -/
def step (s : State) : Host.Outcome State Fault Refusal :=
  match nextMove s with
  | .host op rest => .next (hostEvent op (s.setPending rest))
  | .engine w =>
    match decode w with
    | .ok i => exec i s
    | .error _ => .next (raiseBadCommand w s)
  | .idle => .next s

/-- `s` with the command word `w` accepted, so that the very next step runs it: the block fetches nothing, a command is
what the host writes to CMD (R9, R22, R180; log entry 12). -/
def State.withFetchWord (s : State) (nbits w : Nat) : State := issueNow (commandWord nbits w) s

end Sys2Proof.Machine
end

