-- ==== Sys2Proof/Machine/Assembler.lean ====
section
/-! DEFINITION. The host assembly: which port transactions a line stands for (spec/30_encoding.md R66, R67). -/

namespace Sys2Proof.Machine

open Sys2Proof

/-- The command of a well-formed mnemonic and `#k` (R66). -/
def AsmCmd.toInstr (c : AsmCmd) : Instr :=
  match c.op with
  | .nop => .nop
  | .hufDecode => .hufDecode
  | .subInit => .subInit
  | .subDecode => .subDecode (BitVec.ofNat 8 (c.imm.getD 0))
  | .subEncode => .subEncode (BitVec.ofNat 8 (c.imm.getD 0))
  | .entDecrypt => .entDecrypt
  | .entEncrypt => .entEncrypt

/-- The offset a register operand names (R66). -/
def RegRef.toOffset : RegRef → Offset
  | .name r => regOffset r
  | .offset o => BitVec.ofNat 10 o

/-- A register write of a number. -/
def asmWrite (r : PortReg) (v : Nat) : HostOp := .regWrite (regOffset r) (BitVec.ofNat 32 v)

/-- Issuing a command: the register write of its word to CMD (R66). -/
def asmIssue (c : AsmCmd) : HostOp := .regWrite (regOffset .cmd) (encode (AsmCmd.toInstr c))

/-- `WR SECRET[i], w` for the words in turn, from index `i` (R67). -/
def asmSecretWrites : Nat → List Nat → List HostOp
  | _, [] => []
  | i, w :: ws => asmWrite (.secret (Fin.ofNat 16 i)) w :: asmSecretWrites (i + 1) ws

/-- The buffer writes of BW (R66). -/
def asmBytes : Nat → List Nat → List HostOp
  | _, [] => []
  | a, b :: bs => .bufWrite (BitVec.ofNat 32 a) (BitVec.ofNat 8 b) :: asmBytes (a + 1) bs

/-- `WAIT` (R67): `RD STATUS` until BUSY reads 0. How often it reads 1 first is not specified (R182): `polls` says it, so
that many reads come before the running command completes and the last one after. -/
def asmWait (polls : Nat) : List HostTxn :=
  List.replicate polls { op := .regRead (regOffset .status), early := true }
    ++ [{ op := .regRead (regOffset .status), early := false }]

/-- The transactions of a line other than a WAIT (R66, R67). -/
def asmOps : AsmLine → List HostOp
  | .cmd c | .run c => [asmIssue c]
  | .wr r v => [.regWrite (RegRef.toOffset r) (BitVec.ofNat 32 v)]
  | .rd r => [.regRead (RegRef.toOffset r)]
  | .bw a bs => asmBytes a bs
  | .br a n => (List.range n).map fun i => .bufRead (BitVec.ofNat 32 (a + i))
  | .wait => []
  | .setSrc a l => [asmWrite .srcAddr a, asmWrite .srcLen l]
  | .setDst a l => [asmWrite .dstAddr a, asmWrite .dstLen l]
  | .ldSecret ws => asmSecretWrites 0 ws ++ [asmWrite .secretLen ws.length]
  | .ldMd5 m0 m1 m2 m3 =>
    [asmWrite (.cmvsMd5 0) m0, asmWrite (.cmvsMd5 1) m1, asmWrite (.cmvsMd5 2) m2, asmWrite (.cmvsMd5 3) m3]
  | .clrSt => [asmWrite .status 0x16]

/-- The WAIT that ends a line: `WAIT` itself and `RUN cmd` (R67). -/
def asmEndsInWait : AsmLine → Bool
  | .wait | .run _ => true
  | .cmd _ | .wr _ _ | .rd _ | .bw _ _ | .br _ _ | .setSrc _ _ | .setDst _ _ | .ldSecret _ | .ldMd5 _ _ _ _ | .clrSt =>
    false

/-- The port transactions of a line (R66, R67). `early` says whether its own transactions reach the block before a running
command completes (program P5), `polls` how often its WAIT finds BUSY = 1. DESIGN CHOICE (log entry 19): all transactions of
one line carry the same mark, where R182 lets a completion fall between any two of them, so that one write of a SETSRC may be
dropped and its next one land. Unsafe for a claim about what `assemble` gives; the step takes every mark in `pending`, that
interleaving among them. -/
def assemble (early : Bool) (polls : Nat) (l : AsmLine) : List HostTxn :=
  (asmOps l).map (fun op => { op := op, early := early }) ++ if asmEndsInWait l then asmWait polls else []

end Sys2Proof.Machine
end

