-- ==== Sys2Proof/Safety.lean ====
section
/-! DEFINITION. The terms the claims use: what memory holds, the invariant of the block, what a command leaves alone, and
the reference forms of the computed values, written from the formulas of the rules. -/

namespace Sys2Proof.Machine

open Sys2Proof

/-! ### What memory holds -/

/-- What the byte `a` of buffer RAM holds; `none` where nothing has written it since power-on (R52). -/
abbrev State.byteAt (s : State) (a : Nat) : Option Byte := Memory.read? s.mem a

/-- The little-endian word at `a` (R41), where its four bytes have been written. -/
def Memory.word? (m : List Host.Cell) (a : Nat) : Option Word :=
  match Memory.read? m a, Memory.read? m (a + 1), Memory.read? m (a + 2), Memory.read? m (a + 3) with
  | some b0, some b1, some b2, some b3 => some (wordOf b0 b1 b2 b3)
  | _, _, _, _ => none

/-- The word at `a` in the buffer RAM of `s`. -/
abbrev State.wordAt (s : State) (a : Nat) : Option Word := Memory.word? s.mem a

/-- `w` is a word that the engine may read at `a` (R41, R52): each byte of it is what its address holds, and any byte where
nothing has been written. -/
def State.readsAs (s : State) (a : Nat) (w : Word) : Prop :=
  ∀ j, j < 4 → ∀ b, s.byteAt (a + j) = some b → byteOf w j = b

/-- `x` is an address of the window of `l` bytes at `a` (R45). -/
abbrev inWindow (a l : Word) (x : Nat) : Prop := a.toNat ≤ x ∧ x < a.toNat + l.toNat

/-- Every byte of the window has been written. -/
def State.windowWritten (s : State) (a l : Word) : Prop := ∀ x, inWindow a l x → (s.byteAt x).isSome = true

/-- R45, on unbounded integers. -/
abbrev State.legalWindow (s : State) (a l : Word) : Prop := a.toNat + l.toNat ≤ s.cfg.bufSize

/-! ### The invariant -/

/-- TBL holds a permutation of 0 .. 255 (R121). -/
def isPermutation (t : Vector Byte 256) : Prop := Function.Bijective (tblGet t)

/-- What holds of every state of the block. -/
structure Inv (s : State) : Prop where
  /-- R5: the parameters are within their bounds. -/
  cfg_wf : s.cfg.wf = true
  /-- Buffer RAM is in its canonical form. -/
  mem_wf : Memory.wf s.mem
  /-- R40: buffer RAM has no byte outside 0 .. `BUF_SIZE` - 1. -/
  mem_within : Memory.within s.mem s.cfg.bufSize
  /-- R23: DONE and ERR are never both 1. -/
  not_both : ¬(s.status.done = true ∧ s.status.err = true)
  /-- R23, R25, R26: while BUSY = 1, DONE, ERR, ERRCODE and ERRINFO are 0. -/
  busy_clear : s.busy = true →
    s.status.done = false ∧ s.status.err = false ∧ s.errcode = .none ∧ s.errinfo = 0
  /-- R25, R26: after a completion without error ERRCODE and ERRINFO are 0. -/
  done_report : s.status.done = true → s.errcode = .none ∧ s.errinfo = 0
  /-- R184: ERR stands beside a code other than 0. -/
  err_report : s.status.err = true → s.errcode ≠ .none
  /-- R32, R33, R121: TBL_VALID = 1 only over a permutation. -/
  table : s.status.tblValid = true → isPermutation s.tbl

/-! ### Ends of a command -/

/-- `s` after the error `e` with the detail `info`, where the command has done nothing else (R181, R184, R186): RES0 and
RES1 are 0 (R34). -/
def afterError (e : ErrCode) (info : Word) (s : State) : State :=
  { s with res0 := 0, res1 := 0, status := { s.status with err := true }, errcode := e, errinfo := info, running := none }

/-- The next host event, if there is one, is not taken while a command runs. -/
def hostWaits (s : State) : Prop := ∀ t ∈ s.pending.head?, t.early = false

/-- The next host event is the reset input or power-on. -/
def resetIsNext (s : State) : Prop := ∃ t ∈ s.pending.head?, t.op = .resetInput ∨ t.op = .powerOn

/-- The registers that hold whatever 32-bit value the host writes (RW in R21). -/
def plainReg : PortReg → Bool
  | .srcAddr | .srcLen | .dstAddr | .dstLen | .initKey | .initSummand | .decoderFactor | .seed | .entryInitKey
  | .entryKeyPos | .cmvsMd5 _ | .secret _ => true
  | .cmd | .status | .errcode | .errinfo | .entryTailKey | .secretLen | .res0 | .res1 | .tblwin _ => false

/-- The registers a host write leaves alone (RO in R21). -/
def readOnlyReg : PortReg → Bool
  | .errcode | .errinfo | .res0 | .res1 | .tblwin _ => true
  | .cmd | .status | .srcAddr | .srcLen | .dstAddr | .dstLen | .initKey | .initSummand | .decoderFactor | .seed
  | .entryInitKey | .entryKeyPos | .entryTailKey | .secretLen | .cmvsMd5 _ | .secret _ => false

/-! ### Reference forms -/

/-- `rotr(a, n)` for 0 < n < 32, as R7 writes it. -/
def rotrRef (a : Word) (n : Nat) : Word := (a >>> n) ||| (a <<< (32 - n))

/-- The key of round `i` of SUB.INIT (R120): `key <- summand + f * rotr(key, 2)` after each round. -/
def keyRef (key summand factor : Word) : Nat → Word
  | 0 => key
  | i + 1 => summand + factor * rotrRef (keyRef key summand factor i) 2

/-- The index `(key >> n) & 0xFF` of a swap (R120). -/
def indexRef (key : Word) (n : Nat) : Byte := ((key >>> n) &&& 0xFF).setWidth 8

/-- The permutation of 0 .. 255 that `n` rounds of R120 make of the identity: a swap of two entries composes the table with
the transposition of their indices, on the right. -/
def scheduleRef (key summand factor : Word) : Nat → Equiv.Perm Byte
  | 0 => 1
  | i + 1 =>
    scheduleRef key summand factor i
      * Equiv.swap (indexRef (keyRef key summand factor i) 16) (indexRef (keyRef key summand factor i) 0)
      * Equiv.swap (indexRef (keyRef key summand factor i) 8) (indexRef (keyRef key summand factor i) 24)

/-- Word `i` of a 16-word array, for an index that R142 has masked to 0 .. 15. -/
def wordIndex (v : Vector Word 16) (i : Word) : Word := v.toList.getD i.toNat 0

/-- `sk` is the working secret array of R140 under the registers and the table of `s`: each byte of the first SECRET_LEN secret
words becomes `K0 ^ TBL[byte]`, with `K0` the low byte of `CMVS_MD5[1] >> 2`, the other words are 0, and every word is XORed
with SEED. -/
def State.secretArray (s : State) (sk : Vector Word 16) : Prop :=
  ∀ (j : Fin 16) (b : Nat), b < 4 →
    byteOf sk[j] b =
      (if j.val < s.regs.secretLen.val then
        (s.regs.cmvsMd5[1] >>> 2).setWidth 8 ^^^ tblGet s.tbl (byteOf s.regs.secret[j] b) else 0)
        ^^^ byteOf s.regs.seed b

/-- `SK[(rk >> 6) & 0xF] ^ (SK[k] >> 1)`, as R142 writes it. -/
def maskRef (sk : Vector Word 16) (rk k : Word) : Word :=
  wordIndex sk ((rk >>> 6) &&& 0xF) ^^^ (wordIndex sk k >>> 1)

/-- `md5[rk & 3]`, as R142 writes it. -/
def md5Ref (r : PortRegs) (rk : Word) : Word := r.cmvsMd5.toList.getD (rk &&& 3).toNat 0

/-- The word formula of R142. -/
def decryptRef (r : PortRegs) (sk : Vector Word 16) (rk k c : Word) : Word :=
  md5Ref r rk ^^^ ((c ^^^ maskRef sk rk k) - r.seed)

/-- The word formula of R143. -/
def encryptRef (r : PortRegs) (sk : Vector Word 16) (rk k p : Word) : Word :=
  ((p ^^^ md5Ref r rk) + r.seed) ^^^ maskRef sk rk k

/-- The running key and the index over the first `n` plaintext words `p` (R141): both are read before they are advanced. -/
structure Trajectory (r : PortRegs) (n : Nat) (rk k p : Nat → Word) : Prop where
  rk_start : rk 0 = r.entryInitKey
  k_start : k 0 = r.entryKeyPos
  rk_next : ∀ i, i < n → rk (i + 1) = rk i + r.seed + p i
  k_next : ∀ i, i < n → k (i + 1) = (k i + 1) &&& 0xF

/-! ### The transmitted Huffman tree (R101) -/

/-- A tree as the stream sends it. -/
inductive HufTree where
  | leaf (b : Byte)
  | node (l r : HufTree)
  deriving DecidableEq, Repr

/-- The number of internal nodes. -/
def HufTree.nodes : HufTree → Nat
  | .leaf _ => 0
  | .node l r => l.nodes + r.nodes + 1

/-- The bits of a byte, the most significant first (R103, decision D9). -/
def msbFirst (b : Byte) : List Bool := (List.range 8).map fun i => b.getLsbD (7 - i)

/-- The pre-order bits of a tree (R101): a leaf is 0 and its byte, an internal node is 1 and its two subtrees. -/
def HufTree.bits : HufTree → List Bool
  | .leaf b => false :: msbFirst b
  | .node l r => true :: (l.bits ++ r.bits)

/-- How many internal nodes have their bit among the first `n` pre-order bits: the ids that a parse of these bits takes
(R101). -/
def HufTree.opened : Nat → HufTree → Nat
  | _, .leaf _ => 0
  | 0, .node _ _ => 0
  | n + 1, .node l r => l.opened n + r.opened (n - l.bits.length) + 1

/-- `t.code path b`: following `path` from the root, right on 1 and left on 0, ends at a leaf of value `b` (R102). -/
inductive HufTree.Code : HufTree → List Bool → Byte → Prop where
  | leaf (b : Byte) : HufTree.Code (.leaf b) [] b
  | left {l r : HufTree} {p : List Bool} {b : Byte} : HufTree.Code l p b → HufTree.Code (.node l r) (false :: p) b
  | right {l r : HufTree} {p : List Bool} {b : Byte} : HufTree.Code r p b → HufTree.Code (.node l r) (true :: p) b

/-- The bit `j` of the stream at the address `a` (R103): bit `j % 32` of the little-endian word at `a + 4*(j // 32)`, that is
bit `j % 8` of byte `j // 8`; `none` where that byte has not been written. -/
def State.streamBit (s : State) (a j : Nat) : Option Bool := (s.byteAt (a + j / 8)).map fun b => b.getLsbD (j % 8)

/-- The first bits of the stream at `a` are `bits`. -/
def State.streamIs (s : State) (a : Nat) (bits : List Bool) : Prop :=
  ∀ j (h : j < bits.length), s.streamBit a j = some bits[j]

/-- How many bits the whole words of a window of `l` bytes hold: the trailing `l % 4` bytes are never fetched (R103). -/
def wholeWordBits (l : Word) : Nat := 32 * (l.toNat / 4)

/-- How many bytes a reader of whole 32-bit words fetches for `n` bits (R103). -/
def fetchedFor (n : Nat) : Nat := 4 * ((n + 31) / 32)

end Sys2Proof.Machine
end

