-- ==== Sys2Proof/Certificates/Slice0/Obligations.lean ====
section
/-! DEFINITION. The statements for the provers. Each docstring names the rule of spec/ that the statement formalises, or
says that it is derived. -/

open Sys2Proof Sys2Proof.Machine

/-! ### Encoding (spec/30_encoding.md) -/

/-- R63: decoding and encoding agree on every command with every IMM8, and a word decodes to a command of a row exactly
where the row's mask and match select it. -/
def Obligations.DecodeAgreesWithEncodeAndTable : Prop :=
  (∀ i : Instr, decode (encode i) = .ok i) ∧
  (∀ (w : Word) (i : Instr), decode w = .ok i → encode i = w ∧ w &&& rowMask i = rowMatch i) ∧
  (∀ (w : Word) (j : Instr), w &&& rowMask j = rowMatch j → ∃ i, decode w = .ok i ∧ rowMatch i = rowMatch j)

/-- R64: the illegal words are exactly those with OP in 0x07..0xFF, RSV ≠ 0, or IMM8 ≠ 0 with a C0 OP; a latched one raises
E_BADCMD with the word in ERRINFO and changes nothing besides STATUS, ERRCODE, ERRINFO, RES0 and RES1 (and the latch). -/
def Obligations.IllegalWordRaisesBadCommand : Prop :=
  (∀ w : Word, (∃ r, decode w = .error r) ↔
    (7 ≤ (w &&& 0xFF).toNat ∨ w >>> 16 ≠ 0 ∨
      ((w >>> 8) &&& 0xFF ≠ 0 ∧ (w &&& 0xFF).toNat ≠ 3 ∧ (w &&& 0xFF).toNat ≠ 4))) ∧
  (∀ (s : State) (w : Word) (r : Illegal), s.running = some w → hostWaits s → decode w = .error r →
    step s = .next (afterError .badCmd w s))

/-- Sanity: words written out from the table of R63 and the fields of R60 decode to the command they stand for, and illegal
ones are rejected by name. -/
def Obligations.WrittenWordsDecode : Prop :=
  decode 0x00000000 = .ok .nop ∧ decode 0x00000001 = .ok .hufDecode ∧ decode 0x00000002 = .ok .subInit ∧
  decode 0x00003A03 = .ok (.subDecode 0x3A) ∧ decode 0x00007E04 = .ok (.subEncode 0x7E) ∧
  decode 0x00000005 = .ok .entDecrypt ∧ decode 0x00000006 = .ok .entEncrypt ∧
  decode 0x00000107 = .error .unknownOp ∧ decode 0x00000100 = .error .immNotZero ∧
  decode 0x00FF0003 = .error .reservedNotZero

/-- Sanity: a command of the assembly that is well formed stands for a register write of `(k << 8) + OP` to CMD, with `OP`
written out for each mnemonic (R66, R63), and the decoder reads the command back from it. -/
def Obligations.AssembledCommandIsItsWord : Prop :=
  ∀ (c : AsmCmd) (early : Bool), c.wf = true →
    let op : Nat := match c.op with
      | .nop => 0x00 | .hufDecode => 0x01 | .subInit => 0x02 | .subDecode => 0x03 | .subEncode => 0x04
      | .entDecrypt => 0x05 | .entEncrypt => 0x06
    ∃ w : Word, assemble early 0 (.cmd c) = [{ op := .regWrite 0x000 w, early := early }] ∧
      w.toNat = c.imm.getD 0 * 256 + op ∧
      decode w = .ok (AsmCmd.toInstr c) ∧ (rowMatch (AsmCmd.toInstr c)).toNat = op

/-- The lines WR, RD, BW and BR (R66) stand for their port transactions: WR and RD at the offset of the named register or at
the offset given, BW one buffer write for each byte at `a`, `a + 1`, ..., BR one buffer read for each of `a .. a + n - 1`. That
the transactions of one line share the one mark `early` is the model's choice (log entry 19). -/
def Obligations.AssembledPortLinesAreTransactions : Prop :=
  ∀ (early : Bool) (polls o v a n : Nat) (r : PortReg) (bs : List Nat),
    let txn (op : HostOp) : HostTxn := { op := op, early := early }
    assemble early polls (.wr (.name r) v) = [txn (.regWrite (regOffset r) (BitVec.ofNat 32 v))] ∧
    assemble early polls (.wr (.offset o) v) = [txn (.regWrite (BitVec.ofNat 10 o) (BitVec.ofNat 32 v))] ∧
    assemble early polls (.rd (.name r)) = [txn (.regRead (regOffset r))] ∧
    assemble early polls (.rd (.offset o)) = [txn (.regRead (BitVec.ofNat 10 o))] ∧
    assemble early polls (.bw a bs) =
      (List.range bs.length).map (fun i => txn (.bufWrite (BitVec.ofNat 32 (a + i)) (BitVec.ofNat 8 (bs.getD i 0)))) ∧
    assemble early polls (.br a n) = (List.range n).map (fun i => txn (.bufRead (BitVec.ofNat 32 (a + i))))

/-- The expansions of the pseudo-instructions (R67). The clauses for `WAIT` and `RUN` are the model's choice (log entries 19
and 8): R67 repeats the read until BUSY reads 0, and the model makes that `polls` reads marked early and then one that is
not, whatever the state of the block. That the transactions of one line share the one mark `early` is the model's choice too
(log entry 19): R182 lets a completion fall between any two of them. -/
def Obligations.PseudoInstructionsExpand : Prop :=
  ∀ (early : Bool) (polls a l m0 m1 m2 m3 : Nat) (ws : List Nat) (c : AsmCmd),
    let w (o : Offset) (v : Nat) : HostTxn := { op := .regWrite o (BitVec.ofNat 32 v), early := early }
    let waits : List HostTxn :=
      List.replicate polls { op := .regRead 0x004, early := true } ++ [{ op := .regRead 0x004, early := false }]
    assemble early polls .wait = waits ∧
    assemble early polls (.setSrc a l) = [w 0x010 a, w 0x014 l] ∧
    assemble early polls (.setDst a l) = [w 0x018 a, w 0x01C l] ∧
    (ws.length ≤ 16 → assemble early polls (.ldSecret ws) =
      (List.range ws.length).map (fun j => w (BitVec.ofNat 10 (0x080 + 4 * j)) (ws.getD j 0)) ++ [w 0x03C ws.length]) ∧
    assemble early polls (.ldMd5 m0 m1 m2 m3) = [w 0x040 m0, w 0x044 m1, w 0x048 m2, w 0x04C m3] ∧
    assemble early polls .clrSt = [w 0x004 0x16] ∧
    assemble early polls (.run c) = assemble early polls (.cmd c) ++ waits

/-! ### The step (spec/60_exceptions.md, spec/70_reset_and_hazards.md) -/

/-- The moves of a step. Where a command word is latched, it decodes, and the host waits, the step is the effect of that
command at that state, with nothing added around it. Where the next host event comes to an idle block, or early to a running
one, the step is the effect of that event, which is taken off the list, and of nothing else (R20, R53 (1), R182). With
nothing latched and no event to come the state stays (R195). That the outside stands in a list with its marks, and that an
idle step answers the same state, is the model's choice (log entries 8 and 17). -/
def Obligations.StepRunsLatchedCommand : Prop :=
  (∀ (s : State) (w : Word) (i : Instr), s.running = some w → hostWaits s → decode w = .ok i → step s = exec i s) ∧
  (∀ (s : State) (x : HostTxn) (rest : List HostTxn), s.pending = x :: rest → s.running = none ∨ x.early = true →
    step s = .next (hostEvent x.op { s with pending := rest })) ∧
  (∀ s : State, s.running = none → s.pending = [] → step s = .next s)

/-- A host write to CMD while BUSY = 0, at any of the four offsets of its slot, is accepted (the accept procedure of
spec/60_exceptions.md section 1): DONE, ERR, ERRCODE and ERRINFO are cleared, the word is latched, BUSY = 1, and nothing
else changes. -/
def Obligations.CommandWriteIsAccepted : Prop :=
  ∀ (s : State) (o : Offset) (w : Word), s.busy = false → o.toNat < 4 →
    hostEvent (.regWrite o w) s =
      { s with status := { s.status with done := false, err := false }, errcode := .none, errinfo := 0,
               running := some w } ∧
    (hostEvent (.regWrite o w) s).busy = true

/-- No step stops: whatever the state, a step answers a next state (every error is an architectural outcome, every host
access has an effect). -/
def Obligations.EveryStepGoesOn : Prop := ∀ s : State, ∃ t, step s = .next t

/-- Every accepted command completes: BUSY falls (R182). The bound, at most one more step than there are host events to come,
is the model's choice: it rests on the finite list of events (log entry 8) and on one step per command (log entry 13), where
R182 leaves the number of steps open. -/
def Obligations.AcceptedCommandCompletes : Prop :=
  ∀ s : State, s.busy = true →
    ∃ n t, n ≤ s.pending.length + 1 ∧ Sys2Proof.core.run n s = .next t ∧ State.busy t = false

/-- R37: a completed command leaves the latch empty and has set DONE, or ERR with a code; no other flag changes, but for
TBL_VALID by SUB.INIT. -/
def Obligations.CommandsSetOnlyTheirFlags : Prop :=
  ∀ (i : Instr) (s t : State), exec i s = .next t →
    t.running = none ∧ t.status.wbusy = s.status.wbusy ∧
    (t.status.tblValid ≠ s.status.tblValid → i = .subInit ∧ t.status.tblValid = true) ∧
    ((t.status.done = true ∧ t.status.err = s.status.err ∧ t.errcode = s.errcode ∧ t.errinfo = s.errinfo) ∨
      (t.status.err = true ∧ t.status.done = s.status.done ∧ t.errcode ≠ .none))

/-- No command writes an operand or configuration register, a secret word or a CMVS_MD5 word, the parameters, or the host's
side of the ports. -/
def Obligations.CommandsKeepHostRegisters : Prop :=
  ∀ (i : Instr) (s t : State), exec i s = .next t →
    t.regs = s.regs ∧ t.cfg = s.cfg ∧ t.pending = s.pending ∧ t.responses = s.responses

/-- Program P5 of the spec: a write to SRC_LEN issued behind a running SUB.DECODE without a wait has two allowed ends. If
it comes early it is dropped and WBUSY is set; otherwise it lands after the completion. In both the command used the
operands of its accept. -/
def Obligations.WriteBehindRunningCommand : Prop :=
  ∀ (s : State) (k : Byte) (v : Word) (e : Bool), s.running = some (encode (.subDecode k)) →
    s.pending = [{ op := .regWrite 0x014 v, early := e }] →
    ∃ t u, exec (.subDecode k) (s.setPending []) = .next t ∧ Sys2Proof.core.run 2 s = .next u ∧
      (e = true → u = { t with status := { t.status with wbusy := true } }) ∧
      (e = false → u = { t with regs := { t.regs with srcLen := v } })

/-! ### Reset (spec/10_state.md section 5, spec/70_reset_and_hazards.md section 1) -/

/-- What the reset state holds, for the registers whose reset value the spec gives: everything 0, the engine idle, and no
byte of buffer RAM written. -/
def Obligations.ResetStateIsZero : Prop :=
  statusWord State.reset.busy State.reset.status = 0 ∧
  (∀ r : PortReg, (∀ j, r ≠ .tblwin j) → regValue State.reset r = 0) ∧
  State.reset.running = none ∧ (∀ a, State.reset.byteAt a = none)

/-- The invariant holds after reset. -/
def Obligations.ResetMeetsInvariant : Prop := Inv State.reset

/-- R200, R201: the reset input, at any time, abandons a running command and sets every register to its reset value (of TBL and
the hidden HUF and ENT state nothing is said). Idle, every byte keeps its value; busy, the bytes of the window that the
running command writes take some stored value and every other byte keeps its own. Power-on leaves no byte written. Two
clauses are the model's: that this also holds of a command whose accept checks would fail, for the bytes of its window inside
the buffer (log entry 10), and that a reset keeps the host's events and the answers given (log entry 14). -/
def Obligations.ResetInputFromAnyState : Prop :=
  ∀ s : State,
    (∀ op, op = .resetInput ∨ op = .powerOn →
      let t := hostEvent op s
      t = { State.resetWith s.cfg with tbl := t.tbl, huf := t.huf, ent := t.ent, mem := t.mem, draws := t.draws,
                                       pending := s.pending, responses := s.responses } ∧
      statusWord t.busy t.status = 0 ∧ (∀ r : PortReg, (∀ j, r ≠ .tblwin j) → regValue t r = 0)) ∧
    (∀ a, (hostEvent .powerOn s).byteAt a = none) ∧
    (let t := hostEvent .resetInput s
     (s.running = none → ∀ a, t.byteAt a = s.byteAt a) ∧
     (∀ w, s.running = some w → (∀ i, decode w = .ok i → i = .nop ∨ i = .subInit) → ∀ a, t.byteAt a = s.byteAt a) ∧
     (∀ w, s.running = some w → decode w = .ok .hufDecode →
       (∀ a, ¬inWindow s.regs.dstAddr s.regs.dstLen a → t.byteAt a = s.byteAt a) ∧
       (∀ a, inWindow s.regs.dstAddr s.regs.dstLen a → a < s.cfg.bufSize → (t.byteAt a).isSome = true)) ∧
     (∀ w i, s.running = some w → decode w = .ok i →
       (∃ k, i = .subDecode k ∨ i = .subEncode k) ∨ i = .entDecrypt ∨ i = .entEncrypt →
       (∀ a, ¬inWindow s.regs.srcAddr s.regs.srcLen a → t.byteAt a = s.byteAt a) ∧
       (∀ a, inWindow s.regs.srcAddr s.regs.srcLen a → a < s.cfg.bufSize → (t.byteAt a).isSome = true)))

/-! ### Whole-machine rules -/

/-- The invariant: from every state that meets it, every step gives a state that meets it. -/
def Obligations.StepKeepsInvariant : Prop :=
  ∀ s t : State, Inv s → step s = .next t → Inv t

/-- R33: TBL_VALID = 0 makes each of the four users of TBL raise E_NOTABLE (their windows being legal), SUB.INIT sets it, and
only a reset clears it. -/
def Obligations.TableValidGatesTable : Prop :=
  (∀ (s : State) (k : Byte), s.legalWindow s.regs.srcAddr s.regs.srcLen → s.status.tblValid = false →
    exec (.subDecode k) s = .next (afterError .noTable 0 s) ∧ exec (.subEncode k) s = .next (afterError .noTable 0 s) ∧
    exec .entDecrypt s = .next (afterError .noTable 0 s) ∧ exec .entEncrypt s = .next (afterError .noTable 0 s)) ∧
  (∀ s : State, ∃ t, exec .subInit s = .next t ∧ t.status.tblValid = true) ∧
  (∀ s t : State, step s = .next t → s.status.tblValid = true → ¬resetIsNext s → t.status.tblValid = true)

/-- R121: SUB.INIT ends with a permutation and TBL_VALID = 1; TBL then stays unchanged in every step but the next SUB.INIT
(or a reset). -/
def Obligations.TableIsPermutationAndPersists : Prop :=
  (∀ s : State, ∃ t, exec .subInit s = .next t ∧ isPermutation t.tbl ∧ t.status.tblValid = true) ∧
  (∀ s t : State, step s = .next t → ¬resetIsNext s → (∀ w, s.running = some w → decode w ≠ .ok .subInit) →
    t.tbl = s.tbl)

/-- R45: an illegal SRC window raises E_RANGE with ERRINFO 0 in the five commands that use one, an illegal DST window raises
it with ERRINFO 1 in HUF.DECODE, and neither reads or writes a byte; legal windows raise no E_RANGE; NOP and SUB.INIT check
no window and complete. -/
def Obligations.IllegalWindowRaisesRange : Prop :=
  (∀ (s : State) (k : Byte), ¬s.legalWindow s.regs.srcAddr s.regs.srcLen →
    exec .hufDecode s = .next (afterError .range 0 s) ∧ exec (.subDecode k) s = .next (afterError .range 0 s) ∧
    exec (.subEncode k) s = .next (afterError .range 0 s) ∧ exec .entDecrypt s = .next (afterError .range 0 s) ∧
    exec .entEncrypt s = .next (afterError .range 0 s)) ∧
  (∀ s : State, s.legalWindow s.regs.srcAddr s.regs.srcLen → ¬s.legalWindow s.regs.dstAddr s.regs.dstLen →
    exec .hufDecode s = .next (afterError .range 1 s)) ∧
  (∀ (i : Instr) (s t : State), s.legalWindow s.regs.srcAddr s.regs.srcLen →
    (i = .hufDecode → s.legalWindow s.regs.dstAddr s.regs.dstLen) → s.errcode ≠ .range → exec i s = .next t →
    t.errcode ≠ .range) ∧
  (∀ s : State, (∃ t, exec .nop s = .next t ∧ t.status.done = true ∧ t.errcode = s.errcode) ∧
    ∃ t, exec .subInit s = .next t ∧ t.status.done = true ∧ t.errcode = s.errcode)

/-- Accept errors change nothing: a command that ends in E_RANGE, E_OVERLAP, E_NOTABLE or E_CFG leaves RES0 = RES1 = 0 and
changes no buffer byte, no table entry, and no hidden state. -/
def Obligations.AcceptErrorsChangeNothing : Prop :=
  ∀ (i : Instr) (s t : State), s.errcode = .none → exec i s = .next t →
    (t.errcode = .range ∨ t.errcode = .overlap ∨ t.errcode = .noTable ∨ t.errcode = .cfg) →
    t = afterError t.errcode t.errinfo s

/-! ### NOP (spec/43_host_and_system.md R160) -/

/-- R160: NOP completes with RES0 = RES1 = 0 and DONE, and does nothing else; from its accept on it clears ERR, ERRCODE and
ERRINFO and keeps WBUSY, TBL and buffer RAM. -/
def Obligations.NopCompletes : Prop :=
  (∀ s : State, exec .nop s =
    .next { s with res0 := 0, res1 := 0, status := { s.status with done := true }, running := none }) ∧
  (∀ s : State, exec .nop (accept (encode .nop) s) =
    .next { s with res0 := 0, res1 := 0, status := { s.status with done := true, err := false }, errcode := .none,
                   errinfo := 0, running := none })

/-! ### SUB (spec/41_substitution.md) -/

/-- R120: SUB.INIT makes of the identity the composition of its 512 key-chosen transpositions, whatever TBL held; RES0 is the
key after the 256th advance; nothing but TBL, TBL_VALID, DONE, RES0, RES1 and the latch changes. -/
def Obligations.SubInitBuildsSchedule : Prop :=
  ∀ s : State, ∃ t, exec .subInit s = .next t ∧
    (∀ j : Byte, tblGet t.tbl j =
      scheduleRef s.regs.initKey s.regs.initSummand s.regs.decoderFactor 256 j) ∧
    t = { s with tbl := t.tbl, res0 := keyRef s.regs.initKey s.regs.initSummand s.regs.decoderFactor 256, res1 := 0,
                 status := { s.status with done := true, tblValid := true }, running := none }

/-- R122: SUB.DECODE #k replaces every byte `b` of the SRC window by `TBL[k ^ b]`, RES0 is SRC_LEN, RES1 0; nothing else
changes. A byte never written is a draw, and with none of those no draw is made. It raises E_RANGE on an illegal window
and E_NOTABLE where TBL_VALID = 0. -/
def Obligations.SubDecodeSubstitutesWindow : Prop :=
  ∀ (k : Byte) (s : State),
    (s.legalWindow s.regs.srcAddr s.regs.srcLen → s.status.tblValid = true →
      ∃ t, exec (.subDecode k) s = .next t ∧
        (∀ a b, inWindow s.regs.srcAddr s.regs.srcLen a → s.byteAt a = some b →
          t.byteAt a = some (tblGet s.tbl (k ^^^ b))) ∧
        (∀ a, inWindow s.regs.srcAddr s.regs.srcLen a → s.byteAt a = none →
          ∃ b, t.byteAt a = some (tblGet s.tbl (k ^^^ b))) ∧
        (∀ a, ¬inWindow s.regs.srcAddr s.regs.srcLen a → t.byteAt a = s.byteAt a) ∧
        (s.windowWritten s.regs.srcAddr s.regs.srcLen → t.draws = s.draws) ∧
        t = { s with mem := t.mem, draws := t.draws, res0 := s.regs.srcLen, res1 := 0,
                     status := { s.status with done := true }, running := none }) ∧
    (¬s.legalWindow s.regs.srcAddr s.regs.srcLen → exec (.subDecode k) s = .next (afterError .range 0 s)) ∧
    (s.legalWindow s.regs.srcAddr s.regs.srcLen → s.status.tblValid = false →
      exec (.subDecode k) s = .next (afterError .noTable 0 s))

/-- R123: SUB.ENCODE #k replaces every byte `b` of the SRC window by `j ^ k` for the least index `j` with `TBL[j] = b` (there
is one where TBL is a permutation), RES0 is SRC_LEN, RES1 0; nothing else changes. Errors as for SUB.DECODE. -/
def Obligations.SubEncodeSearchesTable : Prop :=
  ∀ (k : Byte) (s : State),
    (s.legalWindow s.regs.srcAddr s.regs.srcLen → s.status.tblValid = true →
      ∃ t, exec (.subEncode k) s = .next t ∧
        (∀ a b, inWindow s.regs.srcAddr s.regs.srcLen a → s.byteAt a = some b → (∃ j, tblGet s.tbl j = b) →
          ∃ j, t.byteAt a = some (j ^^^ k) ∧ tblGet s.tbl j = b ∧
            ∀ j', tblGet s.tbl j' = b → j.toNat ≤ j'.toNat) ∧
        (isPermutation s.tbl → ∀ a, inWindow s.regs.srcAddr s.regs.srcLen a →
          ∃ b j, (∀ c, s.byteAt a = some c → c = b) ∧ t.byteAt a = some (j ^^^ k) ∧
            ∀ j', tblGet s.tbl j' = b ↔ j' = j) ∧
        (∀ a, ¬inWindow s.regs.srcAddr s.regs.srcLen a → t.byteAt a = s.byteAt a) ∧
        (s.windowWritten s.regs.srcAddr s.regs.srcLen → t.draws = s.draws) ∧
        t = { s with mem := t.mem, draws := t.draws, res0 := s.regs.srcLen, res1 := 0,
                     status := { s.status with done := true }, running := none }) ∧
    (¬s.legalWindow s.regs.srcAddr s.regs.srcLen → exec (.subEncode k) s = .next (afterError .range 0 s)) ∧
    (s.legalWindow s.regs.srcAddr s.regs.srcLen → s.status.tblValid = false →
      exec (.subEncode k) s = .next (afterError .noTable 0 s))

/-- R124: over a permutation, SUB.ENCODE #k and then SUB.DECODE #k restore every byte of the window, and so do SUB.DECODE #k
and then SUB.ENCODE #k, for every `k`. -/
def Obligations.SubInverseLaw : Prop :=
  ∀ (k : Byte) (s : State), s.legalWindow s.regs.srcAddr s.regs.srcLen → s.status.tblValid = true →
    isPermutation s.tbl → s.windowWritten s.regs.srcAddr s.regs.srcLen →
    (∃ t u, exec (.subEncode k) s = .next t ∧ exec (.subDecode k) t = .next u ∧ ∀ a, u.byteAt a = s.byteAt a) ∧
    (∃ t u, exec (.subDecode k) s = .next t ∧ exec (.subEncode k) t = .next u ∧ ∀ a, u.byteAt a = s.byteAt a)

/-! ### ENT (spec/42_entry_cipher.md) -/

/-- R140: an ENT command that passes its checks derives the working secret array from the registers and the table. -/
def Obligations.EntDerivesSecretArray : Prop :=
  ∀ (i : Instr) (s : State), i = .entDecrypt ∨ i = .entEncrypt → s.legalWindow s.regs.srcAddr s.regs.srcLen →
    s.status.tblValid = true → s.regs.entryKeyPos.toNat ≤ 15 → ∃ t, exec i s = .next t ∧ s.secretArray t.ent.sk

/-- R142: ENT.DECRYPT replaces each whole word `c` of the SRC window by
`p = md5[rk & 3] ^ ((c ^ SK[(rk >> 6) & 0xF] ^ (SK[k] >> 1)) - seed)`, with SK as R140 says and `rk` and `k` running as R141
says over the plaintext words, and each tail byte `b` by `TBL[b ^ EntryTailKey]`; RES0 and RES1 are `rk` and `k` after the
last word; nothing else changes. A byte never written is a draw, and with none of those no draw is made. It raises E_RANGE,
E_NOTABLE and E_CFG in that order. -/
def Obligations.EntDecryptDecodesWindow : Prop :=
  ∀ s : State,
    (s.legalWindow s.regs.srcAddr s.regs.srcLen → s.status.tblValid = true → s.regs.entryKeyPos.toNat ≤ 15 →
      ∃ (t : State) (rk k c p : Nat → Word), exec .entDecrypt s = .next t ∧ s.secretArray t.ent.sk ∧
        Trajectory s.regs (s.regs.srcLen.toNat / 4) rk k p ∧
        (∀ i, i < s.regs.srcLen.toNat / 4 →
          s.readsAs (s.regs.srcAddr.toNat + 4 * i) (c i) ∧ p i = decryptRef s.regs t.ent.sk (rk i) (k i) (c i) ∧
            t.wordAt (s.regs.srcAddr.toNat + 4 * i) = some (p i)) ∧
        (∀ a, s.regs.srcAddr.toNat + 4 * (s.regs.srcLen.toNat / 4) ≤ a →
          a < s.regs.srcAddr.toNat + s.regs.srcLen.toNat →
          ∃ b, (∀ x, s.byteAt a = some x → x = b) ∧ t.byteAt a = some (tblGet s.tbl (b ^^^ s.regs.entryTailKey))) ∧
        (∀ a, ¬inWindow s.regs.srcAddr s.regs.srcLen a → t.byteAt a = s.byteAt a) ∧
        (s.windowWritten s.regs.srcAddr s.regs.srcLen → t.draws = s.draws) ∧
        t = { s with mem := t.mem, draws := t.draws, ent := t.ent, res0 := rk (s.regs.srcLen.toNat / 4),
                     res1 := k (s.regs.srcLen.toNat / 4), status := { s.status with done := true }, running := none }) ∧
    (¬s.legalWindow s.regs.srcAddr s.regs.srcLen → exec .entDecrypt s = .next (afterError .range 0 s)) ∧
    (s.legalWindow s.regs.srcAddr s.regs.srcLen → s.status.tblValid = false →
      exec .entDecrypt s = .next (afterError .noTable 0 s)) ∧
    (s.legalWindow s.regs.srcAddr s.regs.srcLen → s.status.tblValid = true → 15 < s.regs.entryKeyPos.toNat →
      exec .entDecrypt s = .next (afterError .cfg s.regs.entryKeyPos s))

/-- R143: ENT.ENCRYPT replaces each whole word `p` of the SRC window by
`c = ((p ^ md5[rk & 3]) + seed) ^ SK[(rk >> 6) & 0xF] ^ (SK[k] >> 1)`, with the same SK and the same running `rk` and `k`, and
each tail byte `b` by `j ^ EntryTailKey` for the `j` with `TBL[j] = b` (there is one where TBL is a permutation); RES0, RES1,
draws and the errors as for ENT.DECRYPT. -/
def Obligations.EntEncryptEncodesWindow : Prop :=
  ∀ s : State,
    (s.legalWindow s.regs.srcAddr s.regs.srcLen → s.status.tblValid = true → s.regs.entryKeyPos.toNat ≤ 15 →
      ∃ (t : State) (rk k p : Nat → Word), exec .entEncrypt s = .next t ∧ s.secretArray t.ent.sk ∧
        Trajectory s.regs (s.regs.srcLen.toNat / 4) rk k p ∧
        (∀ i, i < s.regs.srcLen.toNat / 4 →
          s.readsAs (s.regs.srcAddr.toNat + 4 * i) (p i) ∧
            t.wordAt (s.regs.srcAddr.toNat + 4 * i) =
              some (encryptRef s.regs t.ent.sk (rk i) (k i) (p i))) ∧
        (isPermutation s.tbl → ∀ a, s.regs.srcAddr.toNat + 4 * (s.regs.srcLen.toNat / 4) ≤ a →
          a < s.regs.srcAddr.toNat + s.regs.srcLen.toNat →
          ∃ b j, (∀ x, s.byteAt a = some x → x = b) ∧ (∀ j', tblGet s.tbl j' = b ↔ j' = j) ∧
            t.byteAt a = some (j ^^^ s.regs.entryTailKey)) ∧
        (∀ a, ¬inWindow s.regs.srcAddr s.regs.srcLen a → t.byteAt a = s.byteAt a) ∧
        (s.windowWritten s.regs.srcAddr s.regs.srcLen → t.draws = s.draws) ∧
        t = { s with mem := t.mem, draws := t.draws, ent := t.ent, res0 := rk (s.regs.srcLen.toNat / 4),
                     res1 := k (s.regs.srcLen.toNat / 4), status := { s.status with done := true }, running := none }) ∧
    (¬s.legalWindow s.regs.srcAddr s.regs.srcLen → exec .entEncrypt s = .next (afterError .range 0 s)) ∧
    (s.legalWindow s.regs.srcAddr s.regs.srcLen → s.status.tblValid = false →
      exec .entEncrypt s = .next (afterError .noTable 0 s)) ∧
    (s.legalWindow s.regs.srcAddr s.regs.srcLen → s.status.tblValid = true → 15 < s.regs.entryKeyPos.toNat →
      exec .entEncrypt s = .next (afterError .cfg s.regs.entryKeyPos s))

/-- R144: over a permutation, ENT.ENCRYPT and then ENT.DECRYPT restore every byte, so do ENT.DECRYPT and then ENT.ENCRYPT,
and both commands of a pair leave the same RES0 and RES1. -/
def Obligations.EntInverseLaw : Prop :=
  ∀ s : State, s.legalWindow s.regs.srcAddr s.regs.srcLen → s.status.tblValid = true → isPermutation s.tbl →
    s.regs.entryKeyPos.toNat ≤ 15 → s.windowWritten s.regs.srcAddr s.regs.srcLen →
    (∃ t u, exec .entEncrypt s = .next t ∧ exec .entDecrypt t = .next u ∧
      (∀ a, u.byteAt a = s.byteAt a) ∧ u.res0 = t.res0 ∧ u.res1 = t.res1) ∧
    (∃ t u, exec .entDecrypt s = .next t ∧ exec .entEncrypt t = .next u ∧
      (∀ a, u.byteAt a = s.byteAt a) ∧ u.res0 = t.res0 ∧ u.res1 = t.res1)

/-! ### HUF (spec/40_huffman.md) -/

/-- R102: a stream that begins with a transmitted tree and goes on with the codes of DST_LEN symbols decodes to those
symbols, in order from DST_ADDR; RES0 is the bytes of the whole words that hold these bits (so a one-leaf tree reads no bit
after the tree), RES1 is 256 plus the internal nodes; every byte outside the DST window stays. -/
def Obligations.HufDecodesTransmittedTree : Prop :=
  ∀ (s : State) (tree : HufTree) (syms : List (Byte × List Bool)), s.cfg.wf = true →
    s.legalWindow s.regs.srcAddr s.regs.srcLen → s.legalWindow s.regs.dstAddr s.regs.dstLen →
    (∀ a, inWindow s.regs.srcAddr s.regs.srcLen a → ¬inWindow s.regs.dstAddr s.regs.dstLen a) →
    tree.nodes ≤ s.cfg.hufMaxId - 255 →
    (∀ x ∈ syms, tree.Code x.2 x.1) → syms.length = s.regs.dstLen.toNat →
    s.streamIs s.regs.srcAddr.toNat (tree.bits ++ syms.flatMap (fun x => x.2)) →
    fetchedFor (tree.bits ++ syms.flatMap (fun x => x.2)).length ≤ s.regs.srcLen.toNat →
    ∃ t, exec .hufDecode s = .next t ∧
      (∀ (i : Nat) (h : i < syms.length), t.byteAt (s.regs.dstAddr.toNat + i) = some syms[i].1) ∧
      (∀ a, ¬inWindow s.regs.dstAddr s.regs.dstLen a → t.byteAt a = s.byteAt a) ∧
      t = { s with mem := t.mem, draws := t.draws, huf := t.huf,
                   res0 := BitVec.ofNat 32 (fetchedFor (tree.bits ++ syms.flatMap (fun x => x.2)).length),
                   res1 := BitVec.ofNat 32 (256 + tree.nodes), status := { s.status with done := true },
                   running := none }

/-- R101, R104: a tree whose first `n` bits have more internal nodes than there are ids 256 .. `HUF_MAX_ID` raises E_HUF_TREE,
where these `n` bits are in the stream and inside the whole words of the SRC window; the rest of the tree need not be there.
ERRINFO is 0, RES1 is `HUF_MAX_ID` + 1, buffer RAM and everything else stay, and RES0 is the bytes of the words that hold the
bits up to the first `1` whose id would pass `HUF_MAX_ID` (vector H7). -/
def Obligations.HufTooLargeTreeIsRefused : Prop :=
  ∀ (s : State) (tree : HufTree) (n : Nat), s.cfg.wf = true →
    s.legalWindow s.regs.srcAddr s.regs.srcLen → s.legalWindow s.regs.dstAddr s.regs.dstLen →
    (∀ a, inWindow s.regs.srcAddr s.regs.srcLen a → ¬inWindow s.regs.dstAddr s.regs.dstLen a) →
    s.cfg.hufMaxId - 255 < tree.opened n → n ≤ wholeWordBits s.regs.srcLen →
    s.streamIs s.regs.srcAddr.toNat (tree.bits.take n) →
    ∃ t, exec .hufDecode s = .next t ∧
      (tree.opened (n - 1) ≤ s.cfg.hufMaxId - 255 → t.res0 = BitVec.ofNat 32 (fetchedFor n)) ∧
      t = { s with draws := t.draws, huf := t.huf, res0 := t.res0, res1 := BitVec.ofNat 32 (s.cfg.hufMaxId + 1),
                   status := { s.status with err := true }, errcode := .hufTree, errinfo := 0, running := none }

/-- A SRC window of fewer than 4 bytes raises E_HUF_INPUT at the first bit: ERRINFO 0, RES0 0, RES1 256, buffer RAM
unchanged. -/
def Obligations.HufShortInputIsRefused : Prop :=
  ∀ s : State, s.legalWindow s.regs.srcAddr s.regs.srcLen → s.legalWindow s.regs.dstAddr s.regs.dstLen →
    (∀ a, inWindow s.regs.srcAddr s.regs.srcLen a → ¬inWindow s.regs.dstAddr s.regs.dstLen a) →
    s.regs.srcLen.toNat < 4 →
    ∃ t, exec .hufDecode s = .next t ∧
      t = { s with huf := t.huf, res0 := 0, res1 := 256, status := { s.status with err := true }, errcode := .hufInput,
                   errinfo := 0, running := none }

/-- E_HUF_INPUT is raised where the whole words of the SRC window end too early (R103, R104, R105 (6), R208), and the trailing
`SRC_LEN % 4` bytes do not help. First, in the symbols: the words hold a transmitted tree, the codes of `n < DST_LEN` symbols
and a part of a further code that ends at an internal node, so the next bit lies beyond them. ERRINFO is `n`, the `n` symbols
are written and every other byte stays. Second, inside the tree: the words hold only the first bits of the tree. ERRINFO is 0
and buffer RAM stays. RES0 is the bytes of the whole words, RES1 is 256 plus the internal nodes met, and nothing else
changes. -/
def Obligations.HufRaisesInputAtWindowEnd : Prop :=
  ∀ (s : State) (tree : HufTree), s.cfg.wf = true →
    s.legalWindow s.regs.srcAddr s.regs.srcLen → s.legalWindow s.regs.dstAddr s.regs.dstLen →
    (∀ a, inWindow s.regs.srcAddr s.regs.srcLen a → ¬inWindow s.regs.dstAddr s.regs.dstLen a) →
    (∀ (syms : List (Byte × List Bool)) (part more : List Bool) (b : Byte), tree.nodes ≤ s.cfg.hufMaxId - 255 →
      (∀ x ∈ syms, tree.Code x.2 x.1) → syms.length < s.regs.dstLen.toNat → tree.Code (part ++ more) b → more ≠ [] →
      s.streamIs s.regs.srcAddr.toNat (tree.bits ++ syms.flatMap (fun x => x.2) ++ part) →
      (tree.bits ++ syms.flatMap (fun x => x.2) ++ part).length = wholeWordBits s.regs.srcLen →
      ∃ t, exec .hufDecode s = .next t ∧
        (∀ (i : Nat) (h : i < syms.length), t.byteAt (s.regs.dstAddr.toNat + i) = some syms[i].1) ∧
        (∀ a, ¬(s.regs.dstAddr.toNat ≤ a ∧ a < s.regs.dstAddr.toNat + syms.length) → t.byteAt a = s.byteAt a) ∧
        t = { s with mem := t.mem, draws := t.draws, huf := t.huf,
                     res0 := BitVec.ofNat 32 (4 * (s.regs.srcLen.toNat / 4)),
                     res1 := BitVec.ofNat 32 (256 + tree.nodes), status := { s.status with err := true },
                     errcode := .hufInput, errinfo := BitVec.ofNat 32 syms.length, running := none }) ∧
    (wholeWordBits s.regs.srcLen < tree.bits.length →
      tree.opened (wholeWordBits s.regs.srcLen) ≤ s.cfg.hufMaxId - 255 →
      s.streamIs s.regs.srcAddr.toNat (tree.bits.take (wholeWordBits s.regs.srcLen)) →
      ∃ t, exec .hufDecode s = .next t ∧
        t = { s with draws := t.draws, huf := t.huf, res0 := BitVec.ofNat 32 (4 * (s.regs.srcLen.toNat / 4)),
                     res1 := BitVec.ofNat 32 (256 + tree.opened (wholeWordBits s.regs.srcLen)),
                     status := { s.status with err := true }, errcode := .hufInput, errinfo := 0, running := none })

/-- R104: the two run-time errors of HUF.DECODE, over any memory. E_HUF_TREE leaves ERRINFO 0, RES1 = `HUF_MAX_ID` + 1 and
buffer RAM as it was. E_HUF_INPUT comes only when every whole word of the SRC window has been fetched, and leaves in ERRINFO
the number `out` of output bytes written: `DST_ADDR .. DST_ADDR + out - 1` are written and every other byte stays. In both
RES0 and RES1 are the counters at the error. -/
def Obligations.HufErrorPoints : Prop :=
  ∀ s t : State, s.cfg.wf = true → s.status.err = false →
    s.legalWindow s.regs.srcAddr s.regs.srcLen → s.legalWindow s.regs.dstAddr s.regs.dstLen →
    (∀ a, inWindow s.regs.srcAddr s.regs.srcLen a → ¬inWindow s.regs.dstAddr s.regs.dstLen a) →
    exec .hufDecode s = .next t → t.status.err = true →
    t.res0 = BitVec.ofNat 32 t.huf.fetched ∧ t.res1 = BitVec.ofNat 32 t.huf.nextId ∧
    ((t.errcode = .hufTree ∧ t.errinfo = 0 ∧ t.res1 = BitVec.ofNat 32 (s.cfg.hufMaxId + 1) ∧
        ∀ a, t.byteAt a = s.byteAt a) ∨
      (t.errcode = .hufInput ∧ t.res0 = BitVec.ofNat 32 (4 * (s.regs.srcLen.toNat / 4)) ∧
        t.errinfo.toNat ≤ s.regs.dstLen.toNat ∧
        (∀ a, s.regs.dstAddr.toNat ≤ a → a < s.regs.dstAddr.toNat + t.errinfo.toNat → (t.byteAt a).isSome = true) ∧
        ∀ a, ¬(s.regs.dstAddr.toNat ≤ a ∧ a < s.regs.dstAddr.toNat + t.errinfo.toNat) → t.byteAt a = s.byteAt a))

/-- R58: HUF.DECODE, its windows being legal, raises E_OVERLAP exactly where both windows are non-empty and share a byte; the
in-place commands never do. -/
def Obligations.HufOverlapIsRefused : Prop :=
  (∀ s : State, s.legalWindow s.regs.srcAddr s.regs.srcLen → s.legalWindow s.regs.dstAddr s.regs.dstLen →
    ((∃ a, inWindow s.regs.srcAddr s.regs.srcLen a ∧ inWindow s.regs.dstAddr s.regs.dstLen a) →
      exec .hufDecode s = .next (afterError .overlap 0 s)) ∧
    ((∀ a, inWindow s.regs.srcAddr s.regs.srcLen a → ¬inWindow s.regs.dstAddr s.regs.dstLen a) →
      ∃ t, exec .hufDecode s = .next t ∧ (s.errcode ≠ .overlap → t.errcode ≠ .overlap))) ∧
  (∀ (i : Instr) (s t : State), i ≠ .hufDecode → s.errcode ≠ .overlap → exec i s = .next t → t.errcode ≠ .overlap)

/-- The frame of HUF.DECODE over any input: it ends idle with DONE or ERR set, changes no byte outside the DST window, and
nothing but buffer RAM, HUF state, the next draw, the results and the report. -/
def Obligations.HufFrameOverAnyInput : Prop :=
  ∀ s : State, ∃ t, exec .hufDecode s = .next t ∧ (t.status.done = true ∨ t.status.err = true) ∧
    (∀ a, ¬inWindow s.regs.dstAddr s.regs.dstLen a → t.byteAt a = s.byteAt a) ∧
    t = { s with mem := t.mem, draws := t.draws, huf := t.huf, res0 := t.res0, res1 := t.res1,
                 status := { s.status with done := t.status.done, err := t.status.err }, errcode := t.errcode,
                 errinfo := t.errinfo, running := none }

/-- The bounds of the hidden HUF state after a HUF.DECODE that passed its accept checks: `fetched` is a multiple of 4 inside the
SRC window, `next_id` is 256 .. `HUF_MAX_ID` + 1, less than 33 bits are cached, and the parse stack holds at most
`HUF_MAX_ID` - 255 frames, none after a completion without error. -/
def Obligations.HufHiddenStateBounds : Prop :=
  ∀ s t : State, s.cfg.wf = true → s.status.err = false →
    s.legalWindow s.regs.srcAddr s.regs.srcLen → s.legalWindow s.regs.dstAddr s.regs.dstLen →
    (∀ a, inWindow s.regs.srcAddr s.regs.srcLen a → ¬inWindow s.regs.dstAddr s.regs.dstLen a) →
    exec .hufDecode s = .next t →
    t.huf.fetched % 4 = 0 ∧ t.huf.fetched ≤ s.regs.srcLen.toNat ∧ 256 ≤ t.huf.nextId ∧
      t.huf.nextId ≤ s.cfg.hufMaxId + 1 ∧ t.huf.cached ≤ 32 ∧ t.huf.stack.length ≤ s.cfg.hufMaxId - 255 ∧
      (t.status.err = false → t.huf.stack = [] ∧ t.huf.out = s.regs.dstLen.toNat)

/-! ### Memory operations (spec/20_memory.md) -/

/-- R41: MemRead answers the little-endian value of the bytes there; a byte that nothing has written reads as the next draw,
of whose value nothing is said, and each such read is a draw of its own. The form of a draw, the opaque `Config.freeByte` at
the counter `draws`, is the model's choice (log entry 5). -/
def Obligations.MemReadIsLittleEndian : Prop :=
  (∀ (s : State) (a : Nat) (b : Byte), s.byteAt a = some b → readByte a s = (b, s)) ∧
  (∀ (s : State) (a : Nat), s.byteAt a = none →
    readByte a s = (Config.freeByte s.draws, { s with draws := s.draws + 1 })) ∧
  (∀ (s : State) (a : Nat) (b0 b1 b2 b3 : Byte), s.byteAt a = some b0 → s.byteAt (a + 1) = some b1 →
    s.byteAt (a + 2) = some b2 → s.byteAt (a + 3) = some b3 →
    (readWord a s).2 = s ∧
    (readWord a s).1.toNat = b0.toNat + b1.toNat * 2 ^ 8 + b2.toNat * 2 ^ 16 + b3.toNat * 2 ^ 24)

/-- R42: MemWrite sets byte `a + i` to `(v >> (8*i)) & 0xFF` for each of its `n` bytes and changes no other byte and nothing
else. -/
def Obligations.MemWriteIsLittleEndian : Prop :=
  (∀ (s : State) (a : Nat) (v : Word),
    (∀ i, i < 4 → (writeWord a v s).byteAt (a + i) = some (((v >>> (8 * i)) &&& 0xFF).setWidth 8)) ∧
    (∀ x, x < a ∨ a + 4 ≤ x → (writeWord a v s).byteAt x = s.byteAt x) ∧
    writeWord a v s = { s with mem := (writeWord a v s).mem }) ∧
  (∀ (s : State) (a : Nat) (b : Byte),
    (writeByte a b s).byteAt a = some b ∧ (∀ x, x ≠ a → (writeByte a b s).byteAt x = s.byteAt x) ∧
    writeByte a b s = { s with mem := (writeByte a b s).mem })

/-! ### The host's ports (spec/43_host_and_system.md, spec/60_exceptions.md R183) -/

/-- The register map, with the offsets of the table of R21 written out: the register at each offset, the offset of each
register, bits 1:0 of an offset ignored, and the reserved offsets exactly those of the table. -/
def Obligations.RegisterMapIsTable : Prop :=
  (∀ x ∈ ([(0x000, .cmd), (0x004, .status), (0x008, .errcode), (0x00C, .errinfo), (0x010, .srcAddr), (0x014, .srcLen),
      (0x018, .dstAddr), (0x01C, .dstLen), (0x020, .initKey), (0x024, .initSummand), (0x028, .decoderFactor), (0x02C, .seed),
      (0x030, .entryInitKey), (0x034, .entryKeyPos), (0x038, .entryTailKey), (0x03C, .secretLen), (0x040, .cmvsMd5 0),
      (0x044, .cmvsMd5 1), (0x048, .cmvsMd5 2), (0x04C, .cmvsMd5 3), (0x050, .res0), (0x054, .res1)] :
        List (Offset × PortReg)),
    regAt x.1 = some x.2 ∧ regOffset x.2 = x.1) ∧
  (∀ j : Fin 16, regAt (BitVec.ofNat 10 (0x080 + 4 * j.val)) = some (.secret j) ∧
    regOffset (.secret j) = BitVec.ofNat 10 (0x080 + 4 * j.val)) ∧
  (∀ j : Fin 64, regAt (BitVec.ofNat 10 (0x100 + 4 * j.val)) = some (.tblwin j) ∧
    regOffset (.tblwin j) = BitVec.ofNat 10 (0x100 + 4 * j.val)) ∧
  (∀ o p : Offset, o.toNat / 4 = p.toNat / 4 → regAt o = regAt p) ∧
  (∀ o : Offset, regAt o = none ↔
    ((0x058 ≤ o.toNat ∧ o.toNat < 0x080) ∨ (0x0C0 ≤ o.toNat ∧ o.toNat < 0x100) ∨ 0x200 ≤ o.toNat))

/-- A register that holds what is written to it reads back as it was written, the write changes no other register, and the
operand it sets is the one that R27, R28, R29 and R24 name for its offset. -/
def Obligations.PlainRegisterHoldsItsWrite : Prop :=
  ∀ (s : State) (v : Word), s.busy = false →
    (∀ r : PortReg, plainReg r = true →
      let t := hostEvent (.regWrite (regOffset r) v) s
      (readReg (regOffset r) t).1 = v ∧ (∀ q, q ≠ r → regValue t q = regValue s q) ∧ t = { s with regs := t.regs }) ∧
    (let write (o : Offset) : State := hostEvent (.regWrite o v) s
     let holding (r : PortRegs) : State := { s with regs := r }
     write 0x010 = holding { s.regs with srcAddr := v } ∧ write 0x014 = holding { s.regs with srcLen := v } ∧
     write 0x018 = holding { s.regs with dstAddr := v } ∧ write 0x01C = holding { s.regs with dstLen := v } ∧
     write 0x020 = holding { s.regs with initKey := v } ∧ write 0x024 = holding { s.regs with initSummand := v } ∧
     write 0x028 = holding { s.regs with decoderFactor := v } ∧ write 0x02C = holding { s.regs with seed := v } ∧
     write 0x030 = holding { s.regs with entryInitKey := v } ∧ write 0x034 = holding { s.regs with entryKeyPos := v } ∧
     (∀ i : Fin 4, write (BitVec.ofNat 10 (0x040 + 4 * i.val)) =
       holding { s.regs with cmvsMd5 := s.regs.cmvsMd5.set i.val v i.isLt }) ∧
     (∀ j : Fin 16, write (BitVec.ofNat 10 (0x080 + 4 * j.val)) =
       holding { s.regs with secret := s.regs.secret.set j.val v j.isLt }))

/-- The two registers that store part of what is written: ENTRY_TAIL_KEY keeps bits 7:0, SECRET_LEN stores `min(v, 16)`. -/
def Obligations.PartialRegistersStoreTheirPart : Prop :=
  ∀ (s : State) (v : Word), s.busy = false →
    (let t := hostEvent (.regWrite 0x038 v) s
     (readReg 0x038 t).1 = v &&& 0xFF ∧ t = { s with regs := { s.regs with entryTailKey := t.regs.entryTailKey } }) ∧
    (let t := hostEvent (.regWrite 0x03C v) s
     (readReg 0x03C t).1.toNat = min v.toNat 16 ∧
       t = { s with regs := { s.regs with secretLen := t.regs.secretLen } })

/-- A write to a read-only register, to TBLWIN or to a reserved offset changes nothing while BUSY = 0, and CMD and the
reserved offsets read 0. -/
def Obligations.ReadOnlyAndReservedIgnoreWrites : Prop :=
  (∀ (s : State) (o : Offset) (v : Word), s.busy = false →
    (regAt o = none ∨ ∃ r, regAt o = some r ∧ readOnlyReg r = true) → hostEvent (.regWrite o v) s = s) ∧
  (∀ (s : State) (o : Offset), regAt o = none ∨ regAt o = some .cmd → readReg o s = (0, s))

/-- A write to STATUS while BUSY = 0 clears DONE, ERR and WBUSY where bits 1, 2 and 4 are 1, and changes nothing else; STATUS
then reads with bit 0 BUSY and bits 1 to 4 DONE, ERR, TBL_VALID and WBUSY. -/
def Obligations.StatusWriteOneClears : Prop :=
  (∀ (s : State) (v : Word), s.busy = false →
    hostEvent (.regWrite 0x004 v) s =
      { s with status := { done := s.status.done && !v.getLsbD 1, err := s.status.err && !v.getLsbD 2,
                           tblValid := s.status.tblValid, wbusy := s.status.wbusy && !v.getLsbD 4 } }) ∧
  (∀ s : State, (readReg 0x004 s).1.toNat =
    s.busy.toNat + 2 * s.status.done.toNat + 4 * s.status.err.toNat + 8 * s.status.tblValid.toNat
      + 16 * s.status.wbusy.toNat)

/-- R183: while BUSY = 1 every host write, on either port, changes nothing but sets WBUSY; and WBUSY stays 1 in every step but
a write of 1 to STATUS bit 4 while BUSY = 0, or a reset. -/
def Obligations.BusyWritesAreDropped : Prop :=
  (∀ (s : State) (o : Offset) (v a : Word) (b : Byte), s.busy = true →
    hostEvent (.regWrite o v) s = { s with status := { s.status with wbusy := true } } ∧
    hostEvent (.bufWrite a b) s = { s with status := { s.status with wbusy := true } }) ∧
  (∀ s t : State, step s = .next t → s.status.wbusy = true → ¬resetIsNext s →
    (∀ x ∈ s.pending.head?, ∀ o v, x.op = .regWrite o v → regAt o = some .status → s.busy = false →
      v.getLsbD 4 = false) →
    t.status.wbusy = true)

/-- No read has a side effect: on either port, busy or idle, it adds its answer and makes at most one draw. -/
def Obligations.ReadsHaveNoSideEffect : Prop :=
  ∀ s : State,
    (∀ o, ∃ v d, d ≤ 1 ∧ hostEvent (.regRead o) s =
      { s with responses := .reg o v :: s.responses, draws := s.draws + d }) ∧
    (∀ a, ∃ b d, d ≤ 1 ∧ hostEvent (.bufRead a) s =
      { s with responses := .buf a b :: s.responses, draws := s.draws + d })

/-- R163: a buffer write stores its byte inside the buffer and nothing else, does nothing at or above `BUF_SIZE`, and is
dropped with WBUSY set while BUSY = 1. -/
def Obligations.BufferWriteStoresByte : Prop :=
  ∀ (s : State) (a : Word) (b : Byte),
    (s.busy = false → a.toNat < s.cfg.bufSize →
      let t := hostEvent (.bufWrite a b) s
      t.byteAt a.toNat = some b ∧ (∀ x, x ≠ a.toNat → t.byteAt x = s.byteAt x) ∧ t = { s with mem := t.mem }) ∧
    (s.busy = false → s.cfg.bufSize ≤ a.toNat → hostEvent (.bufWrite a b) s = s) ∧
    (s.busy = true → hostEvent (.bufWrite a b) s = { s with status := { s.status with wbusy := true } })

/-- R164: a buffer read while BUSY = 0 answers the byte there, 0 at or above `BUF_SIZE`, and the next draw where nothing was
written; while BUSY = 1 it answers the next draw, whatever is stored there. It changes nothing else. The form of a draw, the
opaque `Config.freeByte` at the counter `draws`, is the model's choice (log entry 5). -/
def Obligations.BufferReadAnswersByte : Prop :=
  ∀ (s : State) (a : Word),
    (∀ b, s.busy = false → a.toNat < s.cfg.bufSize → s.byteAt a.toNat = some b →
      hostEvent (.bufRead a) s = { s with responses := .buf a b :: s.responses }) ∧
    (s.busy = false → s.cfg.bufSize ≤ a.toNat →
      hostEvent (.bufRead a) s = { s with responses := .buf a 0 :: s.responses }) ∧
    (s.busy = true ∨ (a.toNat < s.cfg.bufSize ∧ s.byteAt a.toNat = none) →
      hostEvent (.bufRead a) s =
        { s with responses := .buf a (Config.freeByte s.draws) :: s.responses, draws := s.draws + 1 })

/-- TBLWIN[j], at 0x100 + 4*j, idle and with TBL_VALID = 1, reads
`TBL[4j] + (TBL[4j+1] << 8) + (TBL[4j+2] << 16) + (TBL[4j+3] << 24)` and makes no draw. With TBL_VALID = 0 it reads the next
draw, whatever TBL holds (R32). That it reads a draw under every running command too is the model's choice (log entry 9: R205
and D30 against R162), and so is the form of a draw, the opaque `Config.freeWord` at the counter `draws` (log entry 5). -/
def Obligations.TableWindowShowsTable : Prop :=
  ∀ (s : State) (j : Fin 64),
    let read := readReg (BitVec.ofNat 10 (0x100 + 4 * j.val)) s
    (s.busy = false → s.status.tblValid = true → read.2 = s ∧
      read.1.toNat =
        (s.tbl[4 * j.val]'(by omega)).toNat + (s.tbl[4 * j.val + 1]'(by omega)).toNat * 2 ^ 8
          + (s.tbl[4 * j.val + 2]'(by omega)).toNat * 2 ^ 16 + (s.tbl[4 * j.val + 3]'(by omega)).toNat * 2 ^ 24) ∧
    (s.status.tblValid = false → read = (Config.freeWord s.draws, { s with draws := s.draws + 1 })) ∧
    (s.busy = true → read = (Config.freeWord s.draws, { s with draws := s.draws + 1 }))

/-- ERRCODE reads the code of its error, and RES0, RES1 and ERRINFO read what they hold, busy or idle. -/
def Obligations.ReportRegistersRead : Prop :=
  ∀ s : State,
    (readReg 0x008 s).1 = (match s.errcode with
      | .none => 0x00 | .badCmd => 0x01 | .range => 0x02 | .overlap => 0x03
      | .noTable => 0x04 | .cfg => 0x05 | .hufTree => 0x06 | .hufInput => 0x07) ∧
    (readReg 0x00C s).1 = s.errinfo ∧ (readReg 0x050 s).1 = s.res0 ∧ (readReg 0x054 s).1 = s.res1
end

