-- ==== Sys2Proof/Laws/Memory.lean ====
section
/-! SUPPORT. The laws of buffer RAM: a read after a write, the canonical form, and that two canonical memories that read
alike are equal. -/

namespace Sys2Proof.Machine

open Sys2Proof Host

theorem read?_write (m : List Cell) (a x : Nat) (b : Byte) :
    Memory.read? (Memory.write m a b) x = if x = a then some b else Memory.read? m x := by
  induction m with
  | nil => simp [Memory.write, Memory.read?, eq_comm]
  | cons kv m ih =>
    obtain ⟨k, v⟩ := kv
    by_cases hlt : a < k
    · simp [Memory.write, Memory.read?, hlt, eq_comm]
    · by_cases heq : a = k
      · subst heq
        by_cases hx : a = x <;> simp [Memory.write, Memory.read?, hx, eq_comm (a := x)]
      · simp only [Memory.write, hlt, heq, if_false, Memory.read?, ih]
        by_cases hx : x = a
        · simp [hx, Ne.symm heq]
        · simp [hx]

@[simp] theorem read?_write_same (m : List Cell) (a : Nat) (b : Byte) :
    Memory.read? (Memory.write m a b) a = some b := by
  simp [read?_write]

theorem read?_write_other (m : List Cell) {a x : Nat} (b : Byte) (h : x ≠ a) :
    Memory.read? (Memory.write m a b) x = Memory.read? m x := by
  simp [read?_write, h]

theorem mem_write {m : List Cell} {a : Nat} {b : Byte} {x : Cell} (h : x ∈ Memory.write m a b) :
    x = (a, b) ∨ x ∈ m := by
  induction m with
  | nil => simpa [Memory.write] using h
  | cons kv m ih =>
    obtain ⟨k, v⟩ := kv
    simp only [Memory.write] at h
    split at h
    · simpa using h
    · split at h
      · rcases List.mem_cons.1 h with h | h
        · exact .inl h
        · exact .inr (List.mem_cons_of_mem _ h)
      · rcases List.mem_cons.1 h with h | h
        · exact .inr (h ▸ List.mem_cons_self)
        · rcases ih h with h | h
          · exact .inl h
          · exact .inr (List.mem_cons_of_mem _ h)

/-- A write keeps the canonical form. -/
theorem write_wf {m : List Cell} (h : Memory.wf m) (a : Nat) (b : Byte) : Memory.wf (Memory.write m a b) := by
  induction m with
  | nil => simp [Memory.write]
  | cons kv m ih =>
    obtain ⟨k, v⟩ := kv
    obtain ⟨hk, hm⟩ := List.pairwise_cons.1 h
    simp only [Memory.write]
    split
    next hlt =>
      refine List.pairwise_cons.2 ⟨fun x hx => ?_, h⟩
      rcases List.mem_cons.1 hx with rfl | hx
      · exact hlt
      · exact Nat.lt_trans hlt (hk x hx)
    next hlt =>
      split
      next heq => exact heq ▸ List.pairwise_cons.2 ⟨hk, hm⟩
      next heq =>
        refine List.pairwise_cons.2 ⟨fun x hx => ?_, ih hm⟩
        rcases mem_write hx with rfl | hx
        · show k < a
          omega
        · exact hk x hx

/-- A write inside the buffer keeps every listed address inside it. -/
theorem write_within {m : List Cell} {size a : Nat} (h : Memory.within m size) (ha : a < size) (b : Byte) :
    Memory.within (Memory.write m a b) size := by
  intro x hx
  rcases mem_write hx with rfl | hx
  · exact ha
  · exact h x hx

theorem read?_eq_none_of_forall_lt {m : List Cell} {a : Nat} (h : ∀ x ∈ m, a < x.1) : Memory.read? m a = none := by
  induction m with
  | nil => rfl
  | cons kv m ih =>
    obtain ⟨k, v⟩ := kv
    have hk : a < k := h (k, v) List.mem_cons_self
    rw [Memory.read?, if_neg (by omega)]
    exact ih fun x hx => h x (List.mem_cons_of_mem _ hx)

/-- A listed byte is inside the buffer. -/
theorem lt_of_read? {m : List Cell} {size a : Nat} {b : Byte} (h : Memory.within m size)
    (hr : Memory.read? m a = some b) : a < size := by
  induction m with
  | nil => simp [Memory.read?] at hr
  | cons kv m ih =>
    obtain ⟨k, v⟩ := kv
    rw [Memory.read?] at hr
    split at hr
    next hka => exact hka ▸ h (k, v) List.mem_cons_self
    next => exact ih (fun x hx => h x (List.mem_cons_of_mem _ hx)) hr

/-- Equal memories are equal data: two canonical lists that read alike are one list. -/
theorem eq_of_read?_eq {m n : List Cell} (hm : Memory.wf m) (hn : Memory.wf n)
    (h : ∀ a, Memory.read? m a = Memory.read? n a) : m = n := by
  induction m generalizing n with
  | nil =>
    cases n with
    | nil => rfl
    | cons kv n => have := h kv.1; simp [Memory.read?] at this
  | cons kv m ih =>
    obtain ⟨k, v⟩ := kv
    cases n with
    | nil => have := h k; simp [Memory.read?] at this
    | cons lw n =>
      obtain ⟨l, w⟩ := lw
      obtain ⟨hkm, hm'⟩ := List.pairwise_cons.1 hm
      obtain ⟨hln, hn'⟩ := List.pairwise_cons.1 hn
      have key : k = l := by
        rcases Nat.lt_trichotomy k l with hlt | heq | hlt
        · have h1 := h k
          rw [read?_eq_none_of_forall_lt (m := (l, w) :: n) (a := k)] at h1
          · simp [Memory.read?] at h1
          · intro x hx
            rcases List.mem_cons.1 hx with rfl | hx
            · exact hlt
            · exact Nat.lt_trans hlt (hln x hx)
        · exact heq
        · have h1 := h l
          rw [read?_eq_none_of_forall_lt (m := (k, v) :: m) (a := l)] at h1
          · simp [Memory.read?] at h1
          · intro x hx
            rcases List.mem_cons.1 hx with rfl | hx
            · exact hlt
            · exact Nat.lt_trans hlt (hkm x hx)
      subst key
      have hv : v = w := by have := h k; simpa [Memory.read?] using this
      subst hv
      congr 1
      refine ih hm' hn' fun a => ?_
      by_cases ha : k = a
      · subst ha
        rw [read?_eq_none_of_forall_lt hkm, read?_eq_none_of_forall_lt hln]
      · have := h a
        simpa [Memory.read?, ha] using this

/-- Reset lists nothing, so its memory has the canonical form. -/
theorem reset_mem_wf : Memory.wf State.reset.mem := List.Pairwise.nil

end Sys2Proof.Machine
end

