-- ==== Sys2Proof/Laws/State.lean ====
section
/-! SUPPORT. One lemma per field per named update of `State`, so that no later proof unfolds a record update, and the laws
by which two updates of one field become one and an update by what is there is none. -/

namespace Sys2Proof.Machine

open Sys2Proof

@[simp] theorem setRegs_cfg (s : State) (r : PortRegs) : (s.setRegs r).cfg = s.cfg := rfl
@[simp] theorem setRegs_regs (s : State) (r : PortRegs) : (s.setRegs r).regs = r := rfl
@[simp] theorem setRegs_status (s : State) (r : PortRegs) : (s.setRegs r).status = s.status := rfl
@[simp] theorem setRegs_errcode (s : State) (r : PortRegs) : (s.setRegs r).errcode = s.errcode := rfl
@[simp] theorem setRegs_errinfo (s : State) (r : PortRegs) : (s.setRegs r).errinfo = s.errinfo := rfl
@[simp] theorem setRegs_res0 (s : State) (r : PortRegs) : (s.setRegs r).res0 = s.res0 := rfl
@[simp] theorem setRegs_res1 (s : State) (r : PortRegs) : (s.setRegs r).res1 = s.res1 := rfl
@[simp] theorem setRegs_tbl (s : State) (r : PortRegs) : (s.setRegs r).tbl = s.tbl := rfl
@[simp] theorem setRegs_huf (s : State) (r : PortRegs) : (s.setRegs r).huf = s.huf := rfl
@[simp] theorem setRegs_ent (s : State) (r : PortRegs) : (s.setRegs r).ent = s.ent := rfl
@[simp] theorem setRegs_running (s : State) (r : PortRegs) : (s.setRegs r).running = s.running := rfl
@[simp] theorem setRegs_mem (s : State) (r : PortRegs) : (s.setRegs r).mem = s.mem := rfl
@[simp] theorem setRegs_draws (s : State) (r : PortRegs) : (s.setRegs r).draws = s.draws := rfl
@[simp] theorem setRegs_pending (s : State) (r : PortRegs) : (s.setRegs r).pending = s.pending := rfl
@[simp] theorem setRegs_responses (s : State) (r : PortRegs) : (s.setRegs r).responses = s.responses := rfl
@[simp] theorem setRegs_busy (s : State) (r : PortRegs) : (s.setRegs r).busy = s.busy := rfl

@[simp] theorem setStatus_cfg (s : State) (x : Status) : (s.setStatus x).cfg = s.cfg := rfl
@[simp] theorem setStatus_regs (s : State) (x : Status) : (s.setStatus x).regs = s.regs := rfl
@[simp] theorem setStatus_status (s : State) (x : Status) : (s.setStatus x).status = x := rfl
@[simp] theorem setStatus_errcode (s : State) (x : Status) : (s.setStatus x).errcode = s.errcode := rfl
@[simp] theorem setStatus_errinfo (s : State) (x : Status) : (s.setStatus x).errinfo = s.errinfo := rfl
@[simp] theorem setStatus_res0 (s : State) (x : Status) : (s.setStatus x).res0 = s.res0 := rfl
@[simp] theorem setStatus_res1 (s : State) (x : Status) : (s.setStatus x).res1 = s.res1 := rfl
@[simp] theorem setStatus_tbl (s : State) (x : Status) : (s.setStatus x).tbl = s.tbl := rfl
@[simp] theorem setStatus_huf (s : State) (x : Status) : (s.setStatus x).huf = s.huf := rfl
@[simp] theorem setStatus_ent (s : State) (x : Status) : (s.setStatus x).ent = s.ent := rfl
@[simp] theorem setStatus_running (s : State) (x : Status) : (s.setStatus x).running = s.running := rfl
@[simp] theorem setStatus_mem (s : State) (x : Status) : (s.setStatus x).mem = s.mem := rfl
@[simp] theorem setStatus_draws (s : State) (x : Status) : (s.setStatus x).draws = s.draws := rfl
@[simp] theorem setStatus_pending (s : State) (x : Status) : (s.setStatus x).pending = s.pending := rfl
@[simp] theorem setStatus_responses (s : State) (x : Status) : (s.setStatus x).responses = s.responses := rfl
@[simp] theorem setStatus_busy (s : State) (x : Status) : (s.setStatus x).busy = s.busy := rfl

@[simp] theorem setError_cfg (s : State) (e : ErrCode) (i : Word) : (s.setError e i).cfg = s.cfg := rfl
@[simp] theorem setError_regs (s : State) (e : ErrCode) (i : Word) : (s.setError e i).regs = s.regs := rfl
@[simp] theorem setError_status (s : State) (e : ErrCode) (i : Word) : (s.setError e i).status = s.status := rfl
@[simp] theorem setError_errcode (s : State) (e : ErrCode) (i : Word) : (s.setError e i).errcode = e := rfl
@[simp] theorem setError_errinfo (s : State) (e : ErrCode) (i : Word) : (s.setError e i).errinfo = i := rfl
@[simp] theorem setError_res0 (s : State) (e : ErrCode) (i : Word) : (s.setError e i).res0 = s.res0 := rfl
@[simp] theorem setError_res1 (s : State) (e : ErrCode) (i : Word) : (s.setError e i).res1 = s.res1 := rfl
@[simp] theorem setError_tbl (s : State) (e : ErrCode) (i : Word) : (s.setError e i).tbl = s.tbl := rfl
@[simp] theorem setError_huf (s : State) (e : ErrCode) (i : Word) : (s.setError e i).huf = s.huf := rfl
@[simp] theorem setError_ent (s : State) (e : ErrCode) (i : Word) : (s.setError e i).ent = s.ent := rfl
@[simp] theorem setError_running (s : State) (e : ErrCode) (i : Word) : (s.setError e i).running = s.running := rfl
@[simp] theorem setError_mem (s : State) (e : ErrCode) (i : Word) : (s.setError e i).mem = s.mem := rfl
@[simp] theorem setError_draws (s : State) (e : ErrCode) (i : Word) : (s.setError e i).draws = s.draws := rfl
@[simp] theorem setError_pending (s : State) (e : ErrCode) (i : Word) : (s.setError e i).pending = s.pending := rfl
@[simp] theorem setError_responses (s : State) (e : ErrCode) (i : Word) : (s.setError e i).responses = s.responses := rfl
@[simp] theorem setError_busy (s : State) (e : ErrCode) (i : Word) : (s.setError e i).busy = s.busy := rfl

@[simp] theorem setRes_cfg (s : State) (r0 r1 : Word) : (s.setRes r0 r1).cfg = s.cfg := rfl
@[simp] theorem setRes_regs (s : State) (r0 r1 : Word) : (s.setRes r0 r1).regs = s.regs := rfl
@[simp] theorem setRes_status (s : State) (r0 r1 : Word) : (s.setRes r0 r1).status = s.status := rfl
@[simp] theorem setRes_errcode (s : State) (r0 r1 : Word) : (s.setRes r0 r1).errcode = s.errcode := rfl
@[simp] theorem setRes_errinfo (s : State) (r0 r1 : Word) : (s.setRes r0 r1).errinfo = s.errinfo := rfl
@[simp] theorem setRes_res0 (s : State) (r0 r1 : Word) : (s.setRes r0 r1).res0 = r0 := rfl
@[simp] theorem setRes_res1 (s : State) (r0 r1 : Word) : (s.setRes r0 r1).res1 = r1 := rfl
@[simp] theorem setRes_tbl (s : State) (r0 r1 : Word) : (s.setRes r0 r1).tbl = s.tbl := rfl
@[simp] theorem setRes_huf (s : State) (r0 r1 : Word) : (s.setRes r0 r1).huf = s.huf := rfl
@[simp] theorem setRes_ent (s : State) (r0 r1 : Word) : (s.setRes r0 r1).ent = s.ent := rfl
@[simp] theorem setRes_running (s : State) (r0 r1 : Word) : (s.setRes r0 r1).running = s.running := rfl
@[simp] theorem setRes_mem (s : State) (r0 r1 : Word) : (s.setRes r0 r1).mem = s.mem := rfl
@[simp] theorem setRes_draws (s : State) (r0 r1 : Word) : (s.setRes r0 r1).draws = s.draws := rfl
@[simp] theorem setRes_pending (s : State) (r0 r1 : Word) : (s.setRes r0 r1).pending = s.pending := rfl
@[simp] theorem setRes_responses (s : State) (r0 r1 : Word) : (s.setRes r0 r1).responses = s.responses := rfl
@[simp] theorem setRes_busy (s : State) (r0 r1 : Word) : (s.setRes r0 r1).busy = s.busy := rfl

@[simp] theorem setTbl_cfg (s : State) (t : Vector Byte 256) : (s.setTbl t).cfg = s.cfg := rfl
@[simp] theorem setTbl_regs (s : State) (t : Vector Byte 256) : (s.setTbl t).regs = s.regs := rfl
@[simp] theorem setTbl_status (s : State) (t : Vector Byte 256) : (s.setTbl t).status = s.status := rfl
@[simp] theorem setTbl_errcode (s : State) (t : Vector Byte 256) : (s.setTbl t).errcode = s.errcode := rfl
@[simp] theorem setTbl_errinfo (s : State) (t : Vector Byte 256) : (s.setTbl t).errinfo = s.errinfo := rfl
@[simp] theorem setTbl_res0 (s : State) (t : Vector Byte 256) : (s.setTbl t).res0 = s.res0 := rfl
@[simp] theorem setTbl_res1 (s : State) (t : Vector Byte 256) : (s.setTbl t).res1 = s.res1 := rfl
@[simp] theorem setTbl_tbl (s : State) (t : Vector Byte 256) : (s.setTbl t).tbl = t := rfl
@[simp] theorem setTbl_huf (s : State) (t : Vector Byte 256) : (s.setTbl t).huf = s.huf := rfl
@[simp] theorem setTbl_ent (s : State) (t : Vector Byte 256) : (s.setTbl t).ent = s.ent := rfl
@[simp] theorem setTbl_running (s : State) (t : Vector Byte 256) : (s.setTbl t).running = s.running := rfl
@[simp] theorem setTbl_mem (s : State) (t : Vector Byte 256) : (s.setTbl t).mem = s.mem := rfl
@[simp] theorem setTbl_draws (s : State) (t : Vector Byte 256) : (s.setTbl t).draws = s.draws := rfl
@[simp] theorem setTbl_pending (s : State) (t : Vector Byte 256) : (s.setTbl t).pending = s.pending := rfl
@[simp] theorem setTbl_responses (s : State) (t : Vector Byte 256) : (s.setTbl t).responses = s.responses := rfl
@[simp] theorem setTbl_busy (s : State) (t : Vector Byte 256) : (s.setTbl t).busy = s.busy := rfl

@[simp] theorem setHuf_cfg (s : State) (h : HufState) : (s.setHuf h).cfg = s.cfg := rfl
@[simp] theorem setHuf_regs (s : State) (h : HufState) : (s.setHuf h).regs = s.regs := rfl
@[simp] theorem setHuf_status (s : State) (h : HufState) : (s.setHuf h).status = s.status := rfl
@[simp] theorem setHuf_errcode (s : State) (h : HufState) : (s.setHuf h).errcode = s.errcode := rfl
@[simp] theorem setHuf_errinfo (s : State) (h : HufState) : (s.setHuf h).errinfo = s.errinfo := rfl
@[simp] theorem setHuf_res0 (s : State) (h : HufState) : (s.setHuf h).res0 = s.res0 := rfl
@[simp] theorem setHuf_res1 (s : State) (h : HufState) : (s.setHuf h).res1 = s.res1 := rfl
@[simp] theorem setHuf_tbl (s : State) (h : HufState) : (s.setHuf h).tbl = s.tbl := rfl
@[simp] theorem setHuf_huf (s : State) (h : HufState) : (s.setHuf h).huf = h := rfl
@[simp] theorem setHuf_ent (s : State) (h : HufState) : (s.setHuf h).ent = s.ent := rfl
@[simp] theorem setHuf_running (s : State) (h : HufState) : (s.setHuf h).running = s.running := rfl
@[simp] theorem setHuf_mem (s : State) (h : HufState) : (s.setHuf h).mem = s.mem := rfl
@[simp] theorem setHuf_draws (s : State) (h : HufState) : (s.setHuf h).draws = s.draws := rfl
@[simp] theorem setHuf_pending (s : State) (h : HufState) : (s.setHuf h).pending = s.pending := rfl
@[simp] theorem setHuf_responses (s : State) (h : HufState) : (s.setHuf h).responses = s.responses := rfl
@[simp] theorem setHuf_busy (s : State) (h : HufState) : (s.setHuf h).busy = s.busy := rfl

@[simp] theorem setEnt_cfg (s : State) (e : EntState) : (s.setEnt e).cfg = s.cfg := rfl
@[simp] theorem setEnt_regs (s : State) (e : EntState) : (s.setEnt e).regs = s.regs := rfl
@[simp] theorem setEnt_status (s : State) (e : EntState) : (s.setEnt e).status = s.status := rfl
@[simp] theorem setEnt_errcode (s : State) (e : EntState) : (s.setEnt e).errcode = s.errcode := rfl
@[simp] theorem setEnt_errinfo (s : State) (e : EntState) : (s.setEnt e).errinfo = s.errinfo := rfl
@[simp] theorem setEnt_res0 (s : State) (e : EntState) : (s.setEnt e).res0 = s.res0 := rfl
@[simp] theorem setEnt_res1 (s : State) (e : EntState) : (s.setEnt e).res1 = s.res1 := rfl
@[simp] theorem setEnt_tbl (s : State) (e : EntState) : (s.setEnt e).tbl = s.tbl := rfl
@[simp] theorem setEnt_huf (s : State) (e : EntState) : (s.setEnt e).huf = s.huf := rfl
@[simp] theorem setEnt_ent (s : State) (e : EntState) : (s.setEnt e).ent = e := rfl
@[simp] theorem setEnt_running (s : State) (e : EntState) : (s.setEnt e).running = s.running := rfl
@[simp] theorem setEnt_mem (s : State) (e : EntState) : (s.setEnt e).mem = s.mem := rfl
@[simp] theorem setEnt_draws (s : State) (e : EntState) : (s.setEnt e).draws = s.draws := rfl
@[simp] theorem setEnt_pending (s : State) (e : EntState) : (s.setEnt e).pending = s.pending := rfl
@[simp] theorem setEnt_responses (s : State) (e : EntState) : (s.setEnt e).responses = s.responses := rfl
@[simp] theorem setEnt_busy (s : State) (e : EntState) : (s.setEnt e).busy = s.busy := rfl

@[simp] theorem setRunning_cfg (s : State) (c : Option Word) : (s.setRunning c).cfg = s.cfg := rfl
@[simp] theorem setRunning_regs (s : State) (c : Option Word) : (s.setRunning c).regs = s.regs := rfl
@[simp] theorem setRunning_status (s : State) (c : Option Word) : (s.setRunning c).status = s.status := rfl
@[simp] theorem setRunning_errcode (s : State) (c : Option Word) : (s.setRunning c).errcode = s.errcode := rfl
@[simp] theorem setRunning_errinfo (s : State) (c : Option Word) : (s.setRunning c).errinfo = s.errinfo := rfl
@[simp] theorem setRunning_res0 (s : State) (c : Option Word) : (s.setRunning c).res0 = s.res0 := rfl
@[simp] theorem setRunning_res1 (s : State) (c : Option Word) : (s.setRunning c).res1 = s.res1 := rfl
@[simp] theorem setRunning_tbl (s : State) (c : Option Word) : (s.setRunning c).tbl = s.tbl := rfl
@[simp] theorem setRunning_huf (s : State) (c : Option Word) : (s.setRunning c).huf = s.huf := rfl
@[simp] theorem setRunning_ent (s : State) (c : Option Word) : (s.setRunning c).ent = s.ent := rfl
@[simp] theorem setRunning_running (s : State) (c : Option Word) : (s.setRunning c).running = c := rfl
@[simp] theorem setRunning_mem (s : State) (c : Option Word) : (s.setRunning c).mem = s.mem := rfl
@[simp] theorem setRunning_draws (s : State) (c : Option Word) : (s.setRunning c).draws = s.draws := rfl
@[simp] theorem setRunning_pending (s : State) (c : Option Word) : (s.setRunning c).pending = s.pending := rfl
@[simp] theorem setRunning_responses (s : State) (c : Option Word) : (s.setRunning c).responses = s.responses := rfl
@[simp] theorem setRunning_busy (s : State) (c : Option Word) : (s.setRunning c).busy = c.isSome := rfl

@[simp] theorem setMem_cfg (s : State) (m : List Host.Cell) : (s.setMem m).cfg = s.cfg := rfl
@[simp] theorem setMem_regs (s : State) (m : List Host.Cell) : (s.setMem m).regs = s.regs := rfl
@[simp] theorem setMem_status (s : State) (m : List Host.Cell) : (s.setMem m).status = s.status := rfl
@[simp] theorem setMem_errcode (s : State) (m : List Host.Cell) : (s.setMem m).errcode = s.errcode := rfl
@[simp] theorem setMem_errinfo (s : State) (m : List Host.Cell) : (s.setMem m).errinfo = s.errinfo := rfl
@[simp] theorem setMem_res0 (s : State) (m : List Host.Cell) : (s.setMem m).res0 = s.res0 := rfl
@[simp] theorem setMem_res1 (s : State) (m : List Host.Cell) : (s.setMem m).res1 = s.res1 := rfl
@[simp] theorem setMem_tbl (s : State) (m : List Host.Cell) : (s.setMem m).tbl = s.tbl := rfl
@[simp] theorem setMem_huf (s : State) (m : List Host.Cell) : (s.setMem m).huf = s.huf := rfl
@[simp] theorem setMem_ent (s : State) (m : List Host.Cell) : (s.setMem m).ent = s.ent := rfl
@[simp] theorem setMem_running (s : State) (m : List Host.Cell) : (s.setMem m).running = s.running := rfl
@[simp] theorem setMem_mem (s : State) (m : List Host.Cell) : (s.setMem m).mem = m := rfl
@[simp] theorem setMem_draws (s : State) (m : List Host.Cell) : (s.setMem m).draws = s.draws := rfl
@[simp] theorem setMem_pending (s : State) (m : List Host.Cell) : (s.setMem m).pending = s.pending := rfl
@[simp] theorem setMem_responses (s : State) (m : List Host.Cell) : (s.setMem m).responses = s.responses := rfl
@[simp] theorem setMem_busy (s : State) (m : List Host.Cell) : (s.setMem m).busy = s.busy := rfl

@[simp] theorem setDraws_cfg (s : State) (d : Nat) : (s.setDraws d).cfg = s.cfg := rfl
@[simp] theorem setDraws_regs (s : State) (d : Nat) : (s.setDraws d).regs = s.regs := rfl
@[simp] theorem setDraws_status (s : State) (d : Nat) : (s.setDraws d).status = s.status := rfl
@[simp] theorem setDraws_errcode (s : State) (d : Nat) : (s.setDraws d).errcode = s.errcode := rfl
@[simp] theorem setDraws_errinfo (s : State) (d : Nat) : (s.setDraws d).errinfo = s.errinfo := rfl
@[simp] theorem setDraws_res0 (s : State) (d : Nat) : (s.setDraws d).res0 = s.res0 := rfl
@[simp] theorem setDraws_res1 (s : State) (d : Nat) : (s.setDraws d).res1 = s.res1 := rfl
@[simp] theorem setDraws_tbl (s : State) (d : Nat) : (s.setDraws d).tbl = s.tbl := rfl
@[simp] theorem setDraws_huf (s : State) (d : Nat) : (s.setDraws d).huf = s.huf := rfl
@[simp] theorem setDraws_ent (s : State) (d : Nat) : (s.setDraws d).ent = s.ent := rfl
@[simp] theorem setDraws_running (s : State) (d : Nat) : (s.setDraws d).running = s.running := rfl
@[simp] theorem setDraws_mem (s : State) (d : Nat) : (s.setDraws d).mem = s.mem := rfl
@[simp] theorem setDraws_draws (s : State) (d : Nat) : (s.setDraws d).draws = d := rfl
@[simp] theorem setDraws_pending (s : State) (d : Nat) : (s.setDraws d).pending = s.pending := rfl
@[simp] theorem setDraws_responses (s : State) (d : Nat) : (s.setDraws d).responses = s.responses := rfl
@[simp] theorem setDraws_busy (s : State) (d : Nat) : (s.setDraws d).busy = s.busy := rfl

@[simp] theorem setPending_cfg (s : State) (p : List HostTxn) : (s.setPending p).cfg = s.cfg := rfl
@[simp] theorem setPending_regs (s : State) (p : List HostTxn) : (s.setPending p).regs = s.regs := rfl
@[simp] theorem setPending_status (s : State) (p : List HostTxn) : (s.setPending p).status = s.status := rfl
@[simp] theorem setPending_errcode (s : State) (p : List HostTxn) : (s.setPending p).errcode = s.errcode := rfl
@[simp] theorem setPending_errinfo (s : State) (p : List HostTxn) : (s.setPending p).errinfo = s.errinfo := rfl
@[simp] theorem setPending_res0 (s : State) (p : List HostTxn) : (s.setPending p).res0 = s.res0 := rfl
@[simp] theorem setPending_res1 (s : State) (p : List HostTxn) : (s.setPending p).res1 = s.res1 := rfl
@[simp] theorem setPending_tbl (s : State) (p : List HostTxn) : (s.setPending p).tbl = s.tbl := rfl
@[simp] theorem setPending_huf (s : State) (p : List HostTxn) : (s.setPending p).huf = s.huf := rfl
@[simp] theorem setPending_ent (s : State) (p : List HostTxn) : (s.setPending p).ent = s.ent := rfl
@[simp] theorem setPending_running (s : State) (p : List HostTxn) : (s.setPending p).running = s.running := rfl
@[simp] theorem setPending_mem (s : State) (p : List HostTxn) : (s.setPending p).mem = s.mem := rfl
@[simp] theorem setPending_draws (s : State) (p : List HostTxn) : (s.setPending p).draws = s.draws := rfl
@[simp] theorem setPending_pending (s : State) (p : List HostTxn) : (s.setPending p).pending = p := rfl
@[simp] theorem setPending_responses (s : State) (p : List HostTxn) : (s.setPending p).responses = s.responses := rfl
@[simp] theorem setPending_busy (s : State) (p : List HostTxn) : (s.setPending p).busy = s.busy := rfl

@[simp] theorem setResponses_cfg (s : State) (r : List HostResponse) : (s.setResponses r).cfg = s.cfg := rfl
@[simp] theorem setResponses_regs (s : State) (r : List HostResponse) : (s.setResponses r).regs = s.regs := rfl
@[simp] theorem setResponses_status (s : State) (r : List HostResponse) : (s.setResponses r).status = s.status := rfl
@[simp] theorem setResponses_errcode (s : State) (r : List HostResponse) : (s.setResponses r).errcode = s.errcode := rfl
@[simp] theorem setResponses_errinfo (s : State) (r : List HostResponse) : (s.setResponses r).errinfo = s.errinfo := rfl
@[simp] theorem setResponses_res0 (s : State) (r : List HostResponse) : (s.setResponses r).res0 = s.res0 := rfl
@[simp] theorem setResponses_res1 (s : State) (r : List HostResponse) : (s.setResponses r).res1 = s.res1 := rfl
@[simp] theorem setResponses_tbl (s : State) (r : List HostResponse) : (s.setResponses r).tbl = s.tbl := rfl
@[simp] theorem setResponses_huf (s : State) (r : List HostResponse) : (s.setResponses r).huf = s.huf := rfl
@[simp] theorem setResponses_ent (s : State) (r : List HostResponse) : (s.setResponses r).ent = s.ent := rfl
@[simp] theorem setResponses_running (s : State) (r : List HostResponse) : (s.setResponses r).running = s.running := rfl
@[simp] theorem setResponses_mem (s : State) (r : List HostResponse) : (s.setResponses r).mem = s.mem := rfl
@[simp] theorem setResponses_draws (s : State) (r : List HostResponse) : (s.setResponses r).draws = s.draws := rfl
@[simp] theorem setResponses_pending (s : State) (r : List HostResponse) : (s.setResponses r).pending = s.pending := rfl
@[simp] theorem setResponses_responses (s : State) (r : List HostResponse) : (s.setResponses r).responses = r := rfl
@[simp] theorem setResponses_busy (s : State) (r : List HostResponse) : (s.setResponses r).busy = s.busy := rfl

@[simp] theorem setRegs_setRegs (s : State) (r : PortRegs) (r' : PortRegs) : (s.setRegs r).setRegs r' = s.setRegs r' := rfl
@[simp] theorem setRegs_self (s : State) : s.setRegs s.regs = s := rfl
@[simp] theorem setStatus_setStatus (s : State) (x : Status) (x' : Status) : (s.setStatus x).setStatus x' = s.setStatus x' := rfl
@[simp] theorem setStatus_self (s : State) : s.setStatus s.status = s := rfl
@[simp] theorem setError_setError (s : State) (e : ErrCode) (i : Word) (e' : ErrCode) (i' : Word) : (s.setError e i).setError e' i' = s.setError e' i' := rfl
@[simp] theorem setError_self (s : State) : s.setError s.errcode s.errinfo = s := rfl
@[simp] theorem setRes_setRes (s : State) (r0 r1 : Word) (r0' r1' : Word) : (s.setRes r0 r1).setRes r0' r1' = s.setRes r0' r1' := rfl
@[simp] theorem setRes_self (s : State) : s.setRes s.res0 s.res1 = s := rfl
@[simp] theorem setTbl_setTbl (s : State) (t : Vector Byte 256) (t' : Vector Byte 256) : (s.setTbl t).setTbl t' = s.setTbl t' := rfl
@[simp] theorem setTbl_self (s : State) : s.setTbl s.tbl = s := rfl
@[simp] theorem setHuf_setHuf (s : State) (h : HufState) (h' : HufState) : (s.setHuf h).setHuf h' = s.setHuf h' := rfl
@[simp] theorem setHuf_self (s : State) : s.setHuf s.huf = s := rfl
@[simp] theorem setEnt_setEnt (s : State) (e : EntState) (e' : EntState) : (s.setEnt e).setEnt e' = s.setEnt e' := rfl
@[simp] theorem setEnt_self (s : State) : s.setEnt s.ent = s := rfl
@[simp] theorem setRunning_setRunning (s : State) (c : Option Word) (c' : Option Word) : (s.setRunning c).setRunning c' = s.setRunning c' := rfl
@[simp] theorem setRunning_self (s : State) : s.setRunning s.running = s := rfl
@[simp] theorem setMem_setMem (s : State) (m : List Host.Cell) (m' : List Host.Cell) : (s.setMem m).setMem m' = s.setMem m' := rfl
@[simp] theorem setMem_self (s : State) : s.setMem s.mem = s := rfl
@[simp] theorem setDraws_setDraws (s : State) (d : Nat) (d' : Nat) : (s.setDraws d).setDraws d' = s.setDraws d' := rfl
@[simp] theorem setDraws_self (s : State) : s.setDraws s.draws = s := rfl
@[simp] theorem setPending_setPending (s : State) (p : List HostTxn) (p' : List HostTxn) : (s.setPending p).setPending p' = s.setPending p' := rfl
@[simp] theorem setPending_self (s : State) : s.setPending s.pending = s := rfl
@[simp] theorem setResponses_setResponses (s : State) (r : List HostResponse) (r' : List HostResponse) : (s.setResponses r).setResponses r' = s.setResponses r' := rfl
@[simp] theorem setResponses_self (s : State) : s.setResponses s.responses = s := rfl

/-! The updates of the running parts commute: the normal form is memory, then draws, then HUF, then ENT. -/

@[simp] theorem setDraws_setMem (s : State) (d : Nat) (m : List Host.Cell) :
    (s.setDraws d).setMem m = (s.setMem m).setDraws d := rfl
@[simp] theorem setHuf_setMem (s : State) (h : HufState) (m : List Host.Cell) :
    (s.setHuf h).setMem m = (s.setMem m).setHuf h := rfl
@[simp] theorem setHuf_setDraws (s : State) (h : HufState) (d : Nat) :
    (s.setHuf h).setDraws d = (s.setDraws d).setHuf h := rfl
@[simp] theorem setEnt_setMem (s : State) (e : EntState) (m : List Host.Cell) :
    (s.setEnt e).setMem m = (s.setMem m).setEnt e := rfl
@[simp] theorem setEnt_setDraws (s : State) (e : EntState) (d : Nat) :
    (s.setEnt e).setDraws d = (s.setDraws d).setEnt e := rfl
@[simp] theorem setEnt_setHuf (s : State) (e : EntState) (h : HufState) :
    (s.setEnt e).setHuf h = (s.setHuf h).setEnt e := rfl

end Sys2Proof.Machine
end

