-- ==== Sys2Proof/Laws/Ops.lean ====
section
/-! SUPPORT. One lemma per shared operation that says once everything it can do. -/

namespace Sys2Proof.Machine

open Sys2Proof

/-! ### Reads -/

theorem readByte_of_written {a : Nat} {s : State} {b : Byte} (h : Memory.read? s.mem a = some b) :
    readByte a s = (b, s) := by
  rw [readByte, h]

theorem readByte_of_unwritten {a : Nat} {s : State} (h : Memory.read? s.mem a = none) :
    readByte a s = (Config.freeByte s.draws, s.setDraws (s.draws + 1)) := by
  rw [readByte, h, drawByte]

/-- All that a byte read can do: answer the byte that is there and change nothing, or draw. -/
theorem readByte_cases (a : Nat) (s : State) :
    (∃ b, Memory.read? s.mem a = some b ∧ readByte a s = (b, s)) ∨
      Memory.read? s.mem a = none ∧ readByte a s = (Config.freeByte s.draws, s.setDraws (s.draws + 1)) := by
  cases h : Memory.read? s.mem a with
  | some b => exact .inl ⟨b, rfl, readByte_of_written h⟩
  | none => exact .inr ⟨rfl, readByte_of_unwritten h⟩

/-- A byte read changes at most the number of the next draw. -/
theorem readByte_frame (a : Nat) (s : State) : ∃ d, s.draws ≤ d ∧ (readByte a s).2 = s.setDraws d := by
  rcases readByte_cases a s with ⟨b, _, h⟩ | ⟨_, h⟩
  · exact ⟨s.draws, Nat.le_refl _, by rw [h]; rfl⟩
  · exact ⟨s.draws + 1, Nat.le_succ _, by rw [h]⟩

theorem readWord_eq (a : Nat) (s : State) :
    readWord a s =
      (wordOf (readByte a s).1 (readByte (a + 1) (readByte a s).2).1
          (readByte (a + 2) (readByte (a + 1) (readByte a s).2).2).1
          (readByte (a + 3) (readByte (a + 2) (readByte (a + 1) (readByte a s).2).2).2).1,
        (readByte (a + 3) (readByte (a + 2) (readByte (a + 1) (readByte a s).2).2).2).2) := rfl

/-- A word read answers, byte by byte, what is there, and changes at most the number of the next draw. -/
theorem readWord_spec (a : Nat) (s : State) :
    ∃ b0 b1 b2 b3 d, readWord a s = (wordOf b0 b1 b2 b3, s.setDraws d) ∧ s.draws ≤ d ∧
      (∀ b, Memory.read? s.mem a = some b → b = b0) ∧ (∀ b, Memory.read? s.mem (a + 1) = some b → b = b1) ∧
      (∀ b, Memory.read? s.mem (a + 2) = some b → b = b2) ∧
      (∀ b, Memory.read? s.mem (a + 3) = some b → b = b3) ∧
      ((Memory.read? s.mem a).isSome = true → (Memory.read? s.mem (a + 1)).isSome = true →
        (Memory.read? s.mem (a + 2)).isSome = true → (Memory.read? s.mem (a + 3)).isSome = true → d = s.draws) := by
  have one : ∀ a (s : State), ∃ b d, readByte a s = (b, s.setDraws d) ∧ s.draws ≤ d ∧
      (∀ c, Memory.read? s.mem a = some c → c = b) ∧ ((Memory.read? s.mem a).isSome = true → d = s.draws) := by
    intro a s
    rcases readByte_cases a s with ⟨b, hb, h⟩ | ⟨hn, h⟩
    · exact ⟨b, s.draws, by rw [h]; rfl, Nat.le_refl _, fun c hc => by simpa [hb] using hc.symm, fun _ => rfl⟩
    · exact ⟨_, _, h, Nat.le_succ _, fun c hc => by simp [hn] at hc, fun hs => by simp [hn] at hs⟩
  obtain ⟨b0, d0, e0, l0, c0, u0⟩ := one a s
  obtain ⟨b1, d1, e1, l1, c1, u1⟩ := one (a + 1) (s.setDraws d0)
  obtain ⟨b2, d2, e2, l2, c2, u2⟩ := one (a + 2) (s.setDraws d1)
  obtain ⟨b3, d3, e3, l3, c3, u3⟩ := one (a + 3) (s.setDraws d2)
  simp only [setDraws_mem, setDraws_draws, setDraws_setDraws] at *
  refine ⟨b0, b1, b2, b3, d3, ?_, by omega, c0, c1, c2, c3, fun h0 h1 h2 h3 => ?_⟩
  · simp only [readWord_eq, e0, e1, e2, e3]
  · rw [u3 h3, u2 h2, u1 h1, u0 h0]

/-! ### Writes -/

@[simp] theorem writeByte_eq (a : Nat) (b : Byte) (s : State) :
    writeByte a b s = s.setMem (Memory.write s.mem a b) := rfl

/-- A word write stores its four bytes, the lowest address first, and changes nothing else. -/
theorem writeWord_spec (a : Nat) (v : Word) (s : State) :
    ∃ m, writeWord a v s = s.setMem m ∧
      (∀ x, Memory.read? m x =
        if x = a then some (byteOf v 0) else if x = a + 1 then some (byteOf v 1)
        else if x = a + 2 then some (byteOf v 2) else if x = a + 3 then some (byteOf v 3)
        else Memory.read? s.mem x) ∧
      (Memory.wf s.mem → Memory.wf m) ∧
      (∀ size, a + 4 ≤ size → Memory.within s.mem size → Memory.within m size) := by
  refine ⟨_, rfl, fun x => ?_, fun h => ?_, fun size hs h => ?_⟩
  · simp only [writeByte_eq, setMem_mem, read?_write]
    split_ifs <;> first | rfl | omega
  · exact write_wf (write_wf (write_wf (write_wf h _ _) _ _) _ _) _ _
  · exact write_within (write_within (write_within (write_within h (by omega) _) (by omega) _) (by omega) _) (by omega) _

/-! ### Bytes of words -/

theorem getLsbD_wordOf (b0 b1 b2 b3 : Byte) (i : Nat) :
    (wordOf b0 b1 b2 b3).getLsbD i =
      if i < 8 then b0.getLsbD i else if i < 16 then b1.getLsbD (i - 8)
      else if i < 24 then b2.getLsbD (i - 16) else b3.getLsbD (i - 24) := by
  simp only [wordOf, BitVec.getLsbD_append]
  split_ifs <;> first | rfl | omega

theorem byteOf_wordOf (b0 b1 b2 b3 : Byte) :
    byteOf (wordOf b0 b1 b2 b3) 0 = b0 ∧ byteOf (wordOf b0 b1 b2 b3) 1 = b1 ∧
      byteOf (wordOf b0 b1 b2 b3) 2 = b2 ∧ byteOf (wordOf b0 b1 b2 b3) 3 = b3 := by
  refine ⟨?_, ?_, ?_, ?_⟩ <;>
  · apply BitVec.eq_of_getLsbD_eq
    intro i hi
    rw [byteOf, BitVec.getLsbD_extractLsb', getLsbD_wordOf, decide_eq_true hi, Bool.true_and]
    split_ifs <;> first | omega | (congr 1; omega)

theorem wordOf_byteOf (w : Word) : wordOf (byteOf w 0) (byteOf w 1) (byteOf w 2) (byteOf w 3) = w := by
  apply BitVec.eq_of_getLsbD_eq
  intro i hi
  rw [getLsbD_wordOf]
  simp only [byteOf, BitVec.getLsbD_extractLsb']
  split_ifs
  · rw [decide_eq_true (by omega), Bool.true_and]; congr 1; omega
  · rw [decide_eq_true (by omega), Bool.true_and]; congr 1; omega
  · rw [decide_eq_true (by omega), Bool.true_and]; congr 1; omega
  · rw [decide_eq_true (by omega), Bool.true_and]; congr 1; omega

theorem word?_wordOf {m : List Host.Cell} {a : Nat} {b0 b1 b2 b3 : Byte} (h0 : Memory.read? m a = some b0)
    (h1 : Memory.read? m (a + 1) = some b1) (h2 : Memory.read? m (a + 2) = some b2)
    (h3 : Memory.read? m (a + 3) = some b3) : Memory.word? m a = some (wordOf b0 b1 b2 b3) := by
  rw [Memory.word?, h0, h1, h2, h3]

theorem word?_congr {m n : List Host.Cell} {a : Nat} (h : ∀ x, a ≤ x → x < a + 4 → Memory.read? m x = Memory.read? n x) :
    Memory.word? m a = Memory.word? n a := by
  rw [Memory.word?, Memory.word?, h a (by omega) (by omega), h (a + 1) (by omega) (by omega),
    h (a + 2) (by omega) (by omega), h (a + 3) (by omega) (by omega)]

/-! ### Loops over the bytes of a window -/

theorem mapBytes_succ (f : Byte → Byte) (a n : Nat) (s : State) :
    mapBytes f a (n + 1) s = mapBytes f (a + 1) n (writeByte a (f (readByte a s).1) (readByte a s).2) := rfl

/-- All that the byte loop can do: each byte of the window becomes `f` of what was there (or of a draw, where nothing was),
every other byte stays, and nothing but buffer RAM and the number of the next draw changes. -/
theorem mapBytes_spec (f : Byte → Byte) (a n : Nat) (s : State) :
    ∃ m d, mapBytes f a n s = (s.setMem m).setDraws d ∧ s.draws ≤ d ∧
      (∀ x, x < a ∨ a + n ≤ x → Memory.read? m x = Memory.read? s.mem x) ∧
      (∀ x, a ≤ x → x < a + n →
        ∃ b, (∀ c, Memory.read? s.mem x = some c → c = b) ∧ Memory.read? m x = some (f b)) ∧
      ((∀ x, a ≤ x → x < a + n → (Memory.read? s.mem x).isSome = true) → d = s.draws) ∧
      (Memory.wf s.mem → Memory.wf m) ∧
      (∀ size, a + n ≤ size → Memory.within s.mem size → Memory.within m size) := by
  induction n generalizing a s with
  | zero =>
    exact ⟨s.mem, s.draws, rfl, Nat.le_refl _, fun _ _ => rfl, fun x h1 h2 => absurd h2 (by omega), fun _ => rfl, id,
      fun _ _ => id⟩
  | succ n ih =>
    obtain ⟨b, d0, e0, l0, c0, u0⟩ : ∃ b d, readByte a s = (b, s.setDraws d) ∧ s.draws ≤ d ∧
        (∀ c, Memory.read? s.mem a = some c → c = b) ∧ ((Memory.read? s.mem a).isSome = true → d = s.draws) := by
      rcases readByte_cases a s with ⟨b, hb, h⟩ | ⟨hn, h⟩
      · exact ⟨b, s.draws, by rw [h]; rfl, Nat.le_refl _, fun c hc => by simpa [hb] using hc.symm, fun _ => rfl⟩
      · exact ⟨_, _, h, Nat.le_succ _, fun c hc => by simp [hn] at hc, fun hs => by simp [hn] at hs⟩
    obtain ⟨m, d, e, l, out, ins, u, w, within⟩ :=
      ih (a + 1) ((s.setDraws d0).setMem (Memory.write s.mem a (f b)))
    refine ⟨m, d, ?_, ?_, fun x hx => ?_, fun x h1 h2 => ?_, fun hs => ?_, fun hw => w (write_wf hw _ _),
      fun size hs hm => within size (by omega) (write_within hm (by omega) _)⟩
    · rw [mapBytes_succ, e0, writeByte_eq]
      exact e
    · exact Nat.le_trans l0 l
    · rw [out x (by omega)]
      exact read?_write_other _ _ (by omega)
    · by_cases hxa : x = a
      · subst hxa
        refine ⟨b, c0, ?_⟩
        rw [out x (by omega)]
        exact read?_write_same _ _ _
      · obtain ⟨c, hc, hr⟩ := ins x (by omega) (by omega)
        refine ⟨c, fun c' h' => hc c' ?_, hr⟩
        rw [← h']
        exact read?_write_other _ _ hxa
    · have hd : d = d0 := u fun x h1 h2 => by
        show (Memory.read? (Memory.write s.mem a (f b)) x).isSome = true
        rw [read?_write_other _ _ (by omega)]
        exact hs x (by omega) (by omega)
      rw [hd]
      exact u0 (hs a (by omega) (by omega))

/-! ### Accept, completion, errors -/

theorem accept_eq (w : Word) (s : State) :
    accept w s = ((s.setStatus s.status.atAccept).setError .none 0).setRunning (some w) := rfl

theorem complete_eq (r0 r1 : Word) (s : State) :
    complete r0 r1 s = ((s.setRes r0 r1).setStatus s.status.atDone).setRunning none := rfl

theorem raiseError_eq (e : ErrReport) (r0 r1 : Word) (s : State) :
    raiseError e r0 r1 s = (((s.setRes r0 r1).setStatus s.status.atError).setError e.1 e.2).setRunning none := rfl

/-- The checks never report the code 0. -/
theorem firstError_ne_none {l : List (Option ErrReport)} (h : ∀ x ∈ l, ∀ e, x = some e → e.1 ≠ .none) {e : ErrReport}
    (he : firstError l = some e) : e.1 ≠ .none := by
  induction l with
  | nil => simp [firstError] at he
  | cons x l ih =>
    cases x with
    | some y =>
      simp only [firstError, Option.some.injEq] at he
      exact he ▸ h (some y) List.mem_cons_self y rfl
    | none => exact ih (fun x hx => h x (List.mem_cons_of_mem _ hx)) he

/-- R185 for SUB.DECODE and SUB.ENCODE: no error exactly where the window is legal and a table has been built. -/
theorem subChecks_eq_none {s : State} :
    subChecks s = none ↔ s.legalWindow s.regs.srcAddr s.regs.srcLen ∧ s.status.tblValid = true := by
  simp only [subChecks, srcWindowError, tableError, windowLegal, decide_eq_true_eq]
  split <;> split <;> simp_all [firstError]

/-- R185 for the ENT commands. -/
theorem entChecks_eq_none {s : State} :
    entChecks s = none ↔ s.legalWindow s.regs.srcAddr s.regs.srcLen ∧ s.status.tblValid = true ∧
      s.regs.entryKeyPos.toNat ≤ 15 := by
  simp only [entChecks, srcWindowError, tableError, keyPosError, windowLegal, decide_eq_true_eq]
  split <;> split <;> split <;> simp_all [firstError]

/-- R185 for HUF.DECODE: no error exactly where both windows are legal and do not overlap. -/
theorem hufChecks_eq_none {s : State} :
    hufChecks s = none ↔ s.legalWindow s.regs.srcAddr s.regs.srcLen ∧ s.legalWindow s.regs.dstAddr s.regs.dstLen ∧
      windowsOverlap s.regs.srcAddr s.regs.srcLen s.regs.dstAddr s.regs.dstLen = false := by
  simp only [hufChecks, srcWindowError, dstWindowError, overlapError, windowLegal, decide_eq_true_eq]
  split <;> split <;> split <;> simp_all [firstError]

end Sys2Proof.Machine
end

