-- ==== Sys2Proof/Laws/Sub.lean ====
section
/-! SUPPORT. SUB: what a swap does to the table, and the common shape of the two substitution commands. -/

namespace Sys2Proof.Machine

open Sys2Proof

theorem tblGet_identity (j : Byte) : tblGet tblIdentity j = j := by
  simp [tblGet, tblIdentity]

/-- A swap of two entries composes the table with the transposition of their indices. -/
theorem tblGet_tblSwap (t : Vector Byte 256) (i j x : Byte) :
    tblGet (tblSwap t i j) x = tblGet t (Equiv.swap i j x) := by
  have hi : i.toNat = x.toNat ↔ i = x := BitVec.toNat_inj
  have hj : j.toNat = x.toNat ↔ j = x := BitVec.toNat_inj
  unfold tblSwap
  rw [Equiv.swap_apply_def]
  show ((t.set i.toNat (tblGet t j) i.isLt).set j.toNat (tblGet t i) j.isLt)[x.toNat]'x.isLt = _
  rw [Vector.getElem_set, Vector.getElem_set]
  simp only [hi, hj]
  by_cases h1 : j = x
  · subst h1
    by_cases h2 : i = j
    · simp [h2]
    · simp [Ne.symm h2]
  · by_cases h2 : i = x
    · simp [h1, h2]
    · simp [h1, h2, Ne.symm h1, Ne.symm h2, tblGet]

theorem initRounds_succ (summand factor : Word) (n : Nat) (key : Word) (t : Vector Byte 256) :
    initRounds summand factor (n + 1) key t =
      initRounds summand factor n (nextKey summand factor key) (roundSwaps key t) := rfl

/-- SUB.INIT changes TBL, TBL_VALID, DONE, RES0, RES1 and the latch, and nothing else. -/
theorem execSubInit_eq (s : State) :
    execSubInit s = .next (complete
      (initRounds s.regs.initSummand s.regs.decoderFactor 256 s.regs.initKey tblIdentity).1 0
      ((s.setTbl (initRounds s.regs.initSummand s.regs.decoderFactor 256 s.regs.initKey tblIdentity).2).setStatus
        s.status.withTable)) := rfl

/-- A substitution command that passes its checks maps its window in place and completes. -/
theorem substitute_of_checks {f : Byte → Byte} {s : State} (h : subChecks s = none) :
    substitute f s = complete s.regs.srcLen 0 (mapBytes f s.regs.srcAddr.toNat s.regs.srcLen.toNat s) := by
  rw [substitute, h]

/-- A substitution command that fails a check reports it and does nothing else. -/
theorem substitute_of_error {f : Byte → Byte} {s : State} {e : ErrReport} (h : subChecks s = some e) :
    substitute f s = raiseError e 0 0 s := by
  rw [substitute, h]

/-- The linear search finds an index that holds the byte, where there is one, and it is the least. -/
theorem tblGet_tblIndexOf {t : Vector Byte 256} {b : Byte} (h : ∃ j, tblGet t j = b) :
    tblGet t (tblIndexOf t b) = b ∧ ∀ j, tblGet t j = b → (tblIndexOf t b).toNat ≤ j.toNat := by
  obtain ⟨j, hj⟩ := h
  have hmem : b ∈ t.toList := by
    rw [← hj]
    simp [tblGet]
  have hlt : t.toList.idxOf b < 256 := by
    have := List.idxOf_lt_length_of_mem hmem
    simpa using this
  have hnat : (tblIndexOf t b).toNat = t.toList.idxOf b := by
    simp only [tblIndexOf, BitVec.toNat_ofNat]
    omega
  refine ⟨?_, fun j' h' => ?_⟩
  · have h1 : t.toList[t.toList.idxOf b]'(by simpa using hlt) = b := List.getElem_idxOf _
    simpa only [tblGet, hnat, Vector.getElem_toList] using h1
  · rw [hnat]
    by_contra hc
    have hx : t.toList[j'.toNat]'(by simpa using j'.isLt) ≠ b := by
      have := List.not_of_lt_findIdx (p := (· == b)) (xs := t.toList) (i := j'.toNat) (by simpa [List.idxOf] using hc)
      simpa using this
    exact hx (by simpa [tblGet] using h')

end Sys2Proof.Machine
end

