-- ==== Sys2Proof/Laws/Ent.lean ====
section
/-! SUPPORT. ENT: the word loop and the whole body, each said once. -/

namespace Sys2Proof.Machine

open Sys2Proof

theorem cipherWords_succ (d : Direction) (a n : Nat) (s : State) :
    cipherWords d a (n + 1) s =
      cipherWords d (a + 4) n
        ((writeWord a (cipherWord d (readWord a s).2.regs (readWord a s).2.ent (readWord a s).1) (readWord a s).2).setEnt
          (entAdvance (readWord a s).2.regs
            (plainWord d (readWord a s).1 (cipherWord d (readWord a s).2.regs (readWord a s).2.ent (readWord a s).1))
            (readWord a s).2.ent)) := rfl

/-- The working secret array is fixed while a command runs. -/
@[simp] theorem entAdvance_sk (r : PortRegs) (p : Word) (e : EntState) : (entAdvance r p e).sk = e.sk := rfl

/-- All that the word loop can do. There are the words `x` it read (each byte what was there, where something was), and the ENT states
`e` it went through; word `i` becomes the cipher word of `x i` under `e i`; every byte outside the words stays; and nothing
but buffer RAM, the number of the next draw and ENT state changes. -/
theorem cipherWords_spec (dir : Direction) (a n : Nat) (s : State) :
    ∃ m d, ∃ (e : Nat → EntState) (x : Nat → Word),
      cipherWords dir a n s = ((s.setMem m).setDraws d).setEnt (e n) ∧ s.draws ≤ d ∧ e 0 = s.ent ∧
      (∀ y, y < a ∨ a + 4 * n ≤ y → Memory.read? m y = Memory.read? s.mem y) ∧
      (∀ i, i < n → (∀ j, j < 4 → ∀ b, Memory.read? s.mem (a + 4 * i + j) = some b → byteOf (x i) j = b) ∧
        Memory.word? m (a + 4 * i) = some (cipherWord dir s.regs (e i) (x i)) ∧
        e (i + 1) = entAdvance s.regs (plainWord dir (x i) (cipherWord dir s.regs (e i) (x i))) (e i)) ∧
      (∀ y, a ≤ y → y < a + 4 * n → (Memory.read? m y).isSome = true) ∧
      ((∀ y, a ≤ y → y < a + 4 * n → (Memory.read? s.mem y).isSome = true) → d = s.draws) ∧
      (Memory.wf s.mem → Memory.wf m) ∧
      (∀ size, a + 4 * n ≤ size → Memory.within s.mem size → Memory.within m size) := by
  induction n generalizing a s with
  | zero =>
    exact ⟨s.mem, s.draws, fun _ => s.ent, fun _ => 0, rfl, Nat.le_refl _, rfl, fun _ _ => rfl,
      fun i hi => absurd hi (by omega), fun y h1 h2 => absurd h2 (by omega), fun _ => rfl, id, fun _ _ => id⟩
  | succ n ih =>
    obtain ⟨b0, b1, b2, b3, d0, e0, l0, c0, c1, c2, c3, u0⟩ := readWord_spec a s
    obtain ⟨w, hw⟩ : ∃ w, cipherWord dir s.regs s.ent (wordOf b0 b1 b2 b3) = w := ⟨_, rfl⟩
    obtain ⟨m1, e1, r1, wf1, in1⟩ := writeWord_spec a w (s.setDraws d0)
    simp only [setDraws_mem] at r1 wf1 in1
    obtain ⟨m, d, e, x, hs, l, he, out, steps, full, u, wf, within⟩ :=
      ih (a + 4) (((s.setDraws d0).setMem m1).setEnt (entAdvance s.regs (plainWord dir (wordOf b0 b1 b2 b3) w) s.ent))
    simp only [setEnt_mem, setMem_mem, setEnt_draws, setMem_draws, setDraws_draws, setEnt_regs, setMem_regs, setDraws_regs,
      setEnt_ent] at l he out steps u wf within
    refine ⟨m, d, fun i => if i = 0 then s.ent else e (i - 1), fun i => if i = 0 then wordOf b0 b1 b2 b3 else x (i - 1),
      ?_, by omega, rfl, fun y hy => ?_, fun i hi => ?_, fun y h1 h2 => ?_, fun hy => ?_, fun h => wf (wf1 h),
      fun size h1 h2 => within size (by omega) (in1 size (by omega) h2)⟩
    · rw [cipherWords_succ, e0]
      simp only [setDraws_regs, setDraws_ent, hw, e1]
      exact hs
    · rw [out y (by omega), r1 y, if_neg (by omega), if_neg (by omega), if_neg (by omega), if_neg (by omega)]
    · by_cases hi0 : i = 0
      · subst hi0
        refine ⟨fun v hv b hb => ?_, ?_, ?_⟩
        · obtain ⟨q0, q1, q2, q3⟩ := byteOf_wordOf b0 b1 b2 b3
          simp only [if_pos] at hv ⊢
          interval_cases v
          · exact q0.trans (c0 _ hb).symm
          · exact q1.trans (c1 _ hb).symm
          · exact q2.trans (c2 _ hb).symm
          · exact q3.trans (c3 _ hb).symm
        · have hb := word?_wordOf (m := m) (a := a) (b0 := byteOf w 0) (b1 := byteOf w 1) (b2 := byteOf w 2)
            (b3 := byteOf w 3) (by rw [out _ (by omega), r1]; simp) (by rw [out _ (by omega), r1]; simp)
            (by rw [out _ (by omega), r1]; simp) (by rw [out _ (by omega), r1]; simp)
          simp only [Nat.mul_zero, Nat.add_zero, if_pos]
          rw [hb, wordOf_byteOf, hw]
        · simp only [if_pos, if_neg (Nat.succ_ne_zero 0), Nat.zero_add]
          simp [he, hw]
      · obtain ⟨j, rfl⟩ : ∃ j, i = j + 1 := ⟨i - 1, by omega⟩
        obtain ⟨p1, p2, p3⟩ := steps j (by omega)
        have ha : a + 4 + 4 * j = a + 4 * (j + 1) := by omega
        rw [ha] at p1 p2
        simp only [if_neg (Nat.succ_ne_zero _), Nat.add_sub_cancel]
        refine ⟨fun v hv b hb => p1 v hv b ?_, p2, p3⟩
        rw [← hb, r1, if_neg (by omega), if_neg (by omega), if_neg (by omega), if_neg (by omega)]
    · by_cases hya : y < a + 4
      · rw [out y (by omega), r1 y]
        split_ifs <;> first | rfl | omega
      · exact full y (by omega) (by omega)
    · have h0 : d0 = s.draws := u0 (hy _ (by omega) (by omega)) (hy _ (by omega) (by omega)) (hy _ (by omega) (by omega))
        (hy _ (by omega) (by omega))
      rw [u fun y h1 h2 => ?_, h0]
      rw [r1 y, if_neg (by omega), if_neg (by omega), if_neg (by omega), if_neg (by omega)]
      exact hy y (by omega) (by omega)

/-- All that the body of an ENT command can do: the words as `cipherWords_spec` says, from the start state of R140 and
R141; then each tail byte becomes its image; every byte outside the window stays. -/
theorem entBody_spec (dir : Direction) (s : State) :
    ∃ m d, ∃ (e : Nat → EntState) (x : Nat → Word),
      entBody dir s = ((s.setMem m).setDraws d).setEnt (e (s.regs.srcLen.toNat / 4)) ∧ s.draws ≤ d ∧
      e 0 = (entStart s).ent ∧
      (∀ y, ¬inWindow s.regs.srcAddr s.regs.srcLen y → Memory.read? m y = Memory.read? s.mem y) ∧
      (∀ i, i < s.regs.srcLen.toNat / 4 →
        s.readsAs (s.regs.srcAddr.toNat + 4 * i) (x i) ∧
        Memory.word? m (s.regs.srcAddr.toNat + 4 * i) = some (cipherWord dir s.regs (e i) (x i)) ∧
        e (i + 1) = entAdvance s.regs (plainWord dir (x i) (cipherWord dir s.regs (e i) (x i))) (e i)) ∧
      (∀ y, s.regs.srcAddr.toNat + 4 * (s.regs.srcLen.toNat / 4) ≤ y → y < s.regs.srcAddr.toNat + s.regs.srcLen.toNat →
        ∃ b, (∀ c, Memory.read? s.mem y = some c → c = b) ∧
          Memory.read? m y = some (tailByte dir s.tbl s.regs.entryTailKey b)) ∧
      (s.windowWritten s.regs.srcAddr s.regs.srcLen → d = s.draws) ∧
      (Memory.wf s.mem → Memory.wf m) ∧
      (∀ size, s.regs.srcAddr.toNat + s.regs.srcLen.toNat ≤ size → Memory.within s.mem size → Memory.within m size) := by
  have hlen : 4 * (s.regs.srcLen.toNat / 4) + s.regs.srcLen.toNat % 4 = s.regs.srcLen.toNat := by omega
  obtain ⟨m1, d1, e, x, h1, l1, he, out1, steps, full1, u1, wf1, in1⟩ :=
    cipherWords_spec dir s.regs.srcAddr.toNat (s.regs.srcLen.toNat / 4) (entStart s)
  simp only [entStart, setEnt_mem, setEnt_draws, setEnt_regs] at l1 out1 steps u1 wf1 in1
  obtain ⟨m, d, h2, l2, out2, ins2, u2, wf2, in2⟩ :=
    mapBytes_spec (tailByte dir s.tbl s.regs.entryTailKey) (s.regs.srcAddr.toNat + 4 * (s.regs.srcLen.toNat / 4))
      (s.regs.srcLen.toNat % 4) ((((entStart s).setMem m1).setDraws d1).setEnt (e (s.regs.srcLen.toNat / 4)))
  simp only [setEnt_mem, setDraws_mem, setMem_mem, setEnt_draws, setDraws_draws] at l2 out2 ins2 u2 wf2 in2
  refine ⟨m, d, e, x, ?_, by omega, he, fun y hy => ?_, fun i hi => ?_, fun y hy1 hy2 => ?_, fun hw => ?_,
    fun h => wf2 (wf1 h), fun size hs h => in2 size (by omega) (in1 size (by omega) h)⟩
  · rw [entBody, h1, h2, entStart]
    simp only [setDraws_setMem, setEnt_setMem, setEnt_setDraws, setMem_setMem, setDraws_setDraws, setEnt_setEnt]
  · rw [out2 y (by omega), out1 y (by omega)]
  · obtain ⟨p1, p2, p3⟩ := steps i hi
    refine ⟨p1, ?_, p3⟩
    rw [← p2]
    exact word?_congr fun y h1 h2 => out2 y (by omega)
  · obtain ⟨b, hb, hr⟩ := ins2 y hy1 (by omega)
    refine ⟨b, fun c hc => hb c ?_, hr⟩
    rw [out1 y (by omega)]
    exact hc
  · rw [u2 fun y h1 h2 => ?_, u1 fun y h1 h2 => hw y ⟨by omega, by omega⟩]
    rw [out1 y (by omega)]
    exact hw y ⟨by omega, by omega⟩

/-- An ENT command that passes its checks runs its body and completes. -/
theorem entCommand_of_checks {dir : Direction} {s : State} (h : entChecks s = none) :
    entCommand dir s = entComplete (entBody dir s) := by
  rw [entCommand, h]

/-- An ENT command that fails a check reports it and does nothing else. -/
theorem entCommand_of_error {dir : Direction} {s : State} {e : ErrReport} (h : entChecks s = some e) :
    entCommand dir s = raiseError e 0 0 s := by
  rw [entCommand, h]

/-- R144, the word step: encrypting undoes decrypting under the same running key and index, and the other way round. -/
theorem decryptWord_encryptWord (r : PortRegs) (e : EntState) (p : Word) :
    decryptWord r e (encryptWord r e p) = p := by
  simp only [decryptWord, encryptWord, BitVec.xor_assoc, BitVec.xor_self, BitVec.xor_zero, BitVec.add_sub_cancel]
  rw [BitVec.xor_comm p, ← BitVec.xor_assoc, BitVec.xor_self, BitVec.zero_xor]

theorem encryptWord_decryptWord (r : PortRegs) (e : EntState) (c : Word) :
    encryptWord r e (decryptWord r e c) = c := by
  simp [decryptWord, encryptWord]

end Sys2Proof.Machine
end

