-- ==== Sys2Proof/Laws/HostPort.lean ====
section
/-! SUPPORT. The host's side: reads, dropped writes, reset, and which agent moves next, each said once. -/

namespace Sys2Proof.Machine

open Sys2Proof

/-- A register read changes at most the number of the next draw. -/
theorem readReg_frame (o : Offset) (s : State) : ∃ d, s.draws ≤ d ∧ (readReg o s).2 = s.setDraws d := by
  unfold readReg
  split
  · exact ⟨s.draws, Nat.le_refl _, rfl⟩
  · split
    · exact ⟨s.draws + 1, Nat.le_succ _, rfl⟩
    · exact ⟨s.draws, Nat.le_refl _, rfl⟩
  · exact ⟨s.draws, Nat.le_refl _, rfl⟩

/-- A buffer read changes at most the number of the next draw. -/
theorem readBuffer_frame (a : Word) (s : State) : ∃ d, s.draws ≤ d ∧ (readBuffer a s).2 = s.setDraws d := by
  unfold readBuffer
  split
  · exact ⟨s.draws + 1, Nat.le_succ _, rfl⟩
  · split
    · exact readByte_frame _ _
    · exact ⟨s.draws, Nat.le_refl _, rfl⟩

/-- The effect of a host read: an answer, and nothing else but the number of the next draw. -/
theorem hostEvent_regRead (o : Offset) (s : State) :
    ∃ d, s.draws ≤ d ∧
      hostEvent (.regRead o) s = (s.setDraws d).setResponses (.reg o (readReg o s).1 :: s.responses) := by
  obtain ⟨d, hd, h⟩ := readReg_frame o s
  refine ⟨d, hd, ?_⟩
  show respond (.reg o (readReg o s).1) (readReg o s).2 = _
  rw [h]
  rfl

theorem hostEvent_bufRead (a : Word) (s : State) :
    ∃ d, s.draws ≤ d ∧
      hostEvent (.bufRead a) s = (s.setDraws d).setResponses (.buf a (readBuffer a s).1 :: s.responses) := by
  obtain ⟨d, hd, h⟩ := readBuffer_frame a s
  refine ⟨d, hd, ?_⟩
  show respond (.buf a (readBuffer a s).1) (readBuffer a s).2 = _
  rw [h]
  rfl

theorem writeReg_of_busy {s : State} (h : s.busy = true) (o : Offset) (v : Word) : writeReg o v s = dropWrite s := by
  rw [writeReg, if_pos h]

theorem writeBuffer_of_busy {s : State} (h : s.busy = true) (a : Word) (b : Byte) :
    writeBuffer a b s = dropWrite s := by
  rw [writeBuffer, if_pos h]

/-- A register write to a named slot while idle stores into it. -/
theorem writeReg_of_idle {s : State} (h : s.busy = false) {o : Offset} {r : PortReg} (hr : regAt o = some r) (v : Word) :
    writeReg o v s = storeReg v s r := by
  rw [writeReg, if_neg (by simp [h]), hr]

/-- A store to a register other than CMD keeps everything but the host-written registers and STATUS. -/
theorem storeReg_frame (v : Word) (s : State) (r : PortReg) :
    r = .cmd ∧ storeReg v s r = accept v s ∨ ∃ x st, storeReg v s r = (s.setRegs x).setStatus st ∧
      (st = s.status ∨ st = s.status.clearBy v) := by
  have other : ∀ r, (storeReg v s r = (s.setRegs (storeReg v s r).regs).setStatus s.status) →
      ∃ x st, storeReg v s r = (s.setRegs x).setStatus st ∧ (st = s.status ∨ st = s.status.clearBy v) :=
    fun r h => ⟨_, _, h, .inl rfl⟩
  cases r with
  | cmd => exact .inl ⟨rfl, rfl⟩
  | status => exact .inr ⟨s.regs, _, rfl, .inr rfl⟩
  | _ => exact .inr (other _ rfl)

/-! ### Reset -/

theorem scramble_succ (a n : Nat) (s : State) : scramble a (n + 1) s = scramble (a + 1) n (scrambleByte a s) := rfl

theorem scrambleByte_spec (a : Nat) (s : State) :
    ∃ m, scrambleByte a s = (s.setMem m).setDraws (s.draws + 1) ∧
      (∀ x, x ≠ a → Memory.read? m x = Memory.read? s.mem x) ∧
      (a < s.cfg.bufSize → (Memory.read? m a).isSome = true) ∧
      (Memory.wf s.mem → Memory.wf m) ∧
      (Memory.within s.mem s.cfg.bufSize → Memory.within m s.cfg.bufSize) := by
  by_cases h : a < s.cfg.bufSize
  · refine ⟨Memory.write s.mem a (Config.freeByte s.draws), ?_, fun x hx => read?_write_other _ _ hx,
      fun _ => by simp, fun hw => write_wf hw _ _, fun hi => write_within hi h _⟩
    exact if_pos h
  · refine ⟨s.mem, ?_, fun _ _ => rfl, fun h' => absurd h' h, id, id⟩
    exact if_neg h

/-- All that a reset does to buffer RAM: the bytes of the window take drawn values, every other byte keeps its value. -/
theorem scramble_spec (a n : Nat) (s : State) :
    ∃ m d, scramble a n s = (s.setMem m).setDraws d ∧ s.draws ≤ d ∧
      (∀ x, x < a ∨ a + n ≤ x → Memory.read? m x = Memory.read? s.mem x) ∧
      (∀ x, a ≤ x → x < a + n → x < s.cfg.bufSize → (Memory.read? m x).isSome = true) ∧
      (Memory.wf s.mem → Memory.wf m) ∧
      (Memory.within s.mem s.cfg.bufSize → Memory.within m s.cfg.bufSize) := by
  induction n generalizing a s with
  | zero =>
    exact ⟨s.mem, s.draws, rfl, Nat.le_refl _, fun _ _ => rfl, fun x h1 h2 => absurd h2 (by omega), id, id⟩
  | succ n ih =>
    obtain ⟨m0, e0, o0, f0, w0, i0⟩ := scrambleByte_spec a s
    obtain ⟨m, d, e, l, o, f, w, i⟩ := ih (a + 1) (scrambleByte a s)
    rw [e0] at l o f w i
    refine ⟨m, d, ?_, ?_, fun x hx => ?_, fun x h1 h2 h3 => ?_, fun h => w (w0 h), fun h => i (i0 h)⟩
    · rw [scramble_succ, e, e0]
      rfl
    · exact Nat.le_trans (Nat.le_succ _) l
    · rw [o x (by omega)]
      exact o0 x (by omega)
    · by_cases hx : x = a
      · subst hx
        rw [o x (by omega)]
        exact f0 h3
      · exact f x (by omega) (by omega) h3

/-- What the reset input leaves: the registers of R39, and buffer RAM with the running command's written window drawn. -/
theorem resetInput_spec (s : State) :
    ∃ m d, resetInput s = ((((State.resetWith s.cfg).setMem m).setDraws d).setPending s.pending).setResponses s.responses ∧
      s.draws ≤ d ∧
      (∀ x, x < (writtenWindow s).1 ∨ (writtenWindow s).1 + (writtenWindow s).2 ≤ x →
        Memory.read? m x = Memory.read? s.mem x) ∧
      (∀ x, (writtenWindow s).1 ≤ x → x < (writtenWindow s).1 + (writtenWindow s).2 → x < s.cfg.bufSize →
        (Memory.read? m x).isSome = true) ∧
      (Memory.wf s.mem → Memory.wf m) ∧
      (Memory.within s.mem s.cfg.bufSize → Memory.within m s.cfg.bufSize) := by
  obtain ⟨m, d, e, l, o, f, w, i⟩ := scramble_spec (writtenWindow s).1 (writtenWindow s).2 s
  refine ⟨m, d, ?_, l, o, f, w, i⟩
  rw [resetInput, e]
  rfl

theorem powerOn_eq (s : State) :
    powerOn s = (((State.resetWith s.cfg).setDraws s.draws).setPending s.pending).setResponses s.responses := rfl

/-! ### Who moves next -/

/-- All that the choice can do. -/
theorem nextMove_cases (s : State) :
    (∃ w, s.running = some w ∧ nextMove s = .engine w ∧ ∀ t ∈ s.pending.head?, t.early = false) ∨
    (∃ t rest, s.pending = t :: rest ∧ nextMove s = .host t.op rest ∧ (s.running = none ∨ t.early = true)) ∨
    (s.running = none ∧ s.pending = [] ∧ nextMove s = .idle) := by
  cases hr : s.running with
  | none =>
    cases hp : s.pending with
    | nil => exact .inr (.inr ⟨rfl, rfl, by rw [nextMove, hr, hp]⟩)
    | cons t rest => exact .inr (.inl ⟨t, rest, rfl, by rw [nextMove, hr, hp], .inl rfl⟩)
  | some w =>
    cases hp : s.pending with
    | nil => exact .inl ⟨w, rfl, by rw [nextMove, hr, hp], by simp⟩
    | cons t rest =>
      cases he : t.early with
      | true => exact .inr (.inl ⟨t, rest, rfl, by rw [nextMove, hr, hp]; simp [he], .inr he⟩)
      | false => exact .inl ⟨w, rfl, by rw [nextMove, hr, hp]; simp [he], by simp [he]⟩

end Sys2Proof.Machine
end

