-- ==== Sys2Proof/Laws/Huf.lean ====
section
/-! SUPPORT. HUF: the bit reader, the tree parse, the descent and the symbol loop, each said once; and that the bounds which
make them structurally recursive are never behaviour of their own (`parseTree_room`, `descend_fuel`). -/

namespace Sys2Proof.Machine

open Sys2Proof

/-- The state a run ended in. -/
def HufRun.final {α : Type} : HufRun α → State
  | .value _ s => s
  | .raised _ s => s

@[simp] theorem andThen_value {α β : Type} (a : α) (s : State) (f : α → State → HufRun β) :
    (HufRun.value a s).andThen f = f a s := rfl

@[simp] theorem andThen_raised {α β : Type} (e : ErrCode) (s : State) (f : α → State → HufRun β) :
    (HufRun.raised e s : HufRun α).andThen f = .raised e s := rfl

theorem final_andThen {α β : Type} (r : HufRun α) (f : α → State → HufRun β) :
    (r.andThen f).final = r.final ∨ ∃ a, r = .value a r.final ∧ (r.andThen f).final = (f a r.final).final := by
  cases r with
  | value a s => exact .inr ⟨a, rfl, rfl⟩
  | raised e s => exact .inl rfl

/-! ### The bit reader -/

/-- The number of the next stream bit (R103). -/
def bitPos (s : State) : Nat := 8 * s.huf.fetched - s.huf.cached

/-- The bit reader is where R103 puts it: less than a word is cached, whole words have been fetched from inside the SRC
window, and bit `i` of the cache is stream bit `bitPos + i`. -/
structure ReaderOk (s : State) : Prop where
  cached_lt : s.huf.cached < 32
  fetched_mod : s.huf.fetched % 4 = 0
  cached_le : s.huf.cached ≤ 8 * s.huf.fetched
  fetched_le : s.huf.fetched ≤ s.regs.srcLen.toNat
  bits : ∀ i, i < s.huf.cached → ∀ b, s.streamBit s.regs.srcAddr.toNat (bitPos s + i) = some b →
    s.huf.cache.getLsbD i = b

/-- Reading from the stream changes at most HUF state and the number of the next draw; the node counter never falls and the
output counter stays. -/
structure HufReads (s t : State) : Prop where
  frame : ∃ h d, t = (s.setDraws d).setHuf h
  draws_le : s.draws ≤ t.draws
  nextId_le : s.huf.nextId ≤ t.huf.nextId
  out_eq : t.huf.out = s.huf.out

theorem HufReads.refl (s : State) : HufReads s s := ⟨⟨s.huf, s.draws, rfl⟩, Nat.le_refl _, Nat.le_refl _, rfl⟩

theorem HufReads.trans {s t u : State} (h1 : HufReads s t) (h2 : HufReads t u) : HufReads s u := by
  obtain ⟨h, d, rfl⟩ := h1.frame
  obtain ⟨h', d', rfl⟩ := h2.frame
  exact ⟨⟨h', d', rfl⟩, Nat.le_trans h1.draws_le h2.draws_le, Nat.le_trans h1.nextId_le h2.nextId_le,
    h2.out_eq.trans h1.out_eq⟩

theorem HufReads.cfg_eq {s t : State} (h : HufReads s t) : t.cfg = s.cfg := by
  obtain ⟨_, _, rfl⟩ := h.frame
  rfl

theorem HufReads.regs_eq {s t : State} (h : HufReads s t) : t.regs = s.regs := by
  obtain ⟨_, _, rfl⟩ := h.frame
  rfl

theorem HufReads.mem_eq {s t : State} (h : HufReads s t) : t.mem = s.mem := by
  obtain ⟨_, _, rfl⟩ := h.frame
  rfl

theorem HufReads.setHuf {s t : State} (h : HufReads s t) {x : HufState} (h1 : t.huf.nextId ≤ x.nextId)
    (h2 : x.out = t.huf.out) : HufReads s (t.setHuf x) :=
  h.trans ⟨⟨x, t.draws, rfl⟩, Nat.le_refl _, h1, h2⟩

/-- What a fetch leaves: a full cache of the four bytes at the fetch address. -/
theorem fetchWord_spec (s : State) :
    ∃ b0 b1 b2 b3 d, fetchWord s =
        (s.setDraws d).setHuf { s.huf with cache := wordOf b0 b1 b2 b3, fetched := s.huf.fetched + 4, cached := 32 } ∧
      s.draws ≤ d ∧
      (∀ b, s.byteAt (s.regs.srcAddr.toNat + s.huf.fetched) = some b → b = b0) ∧
      (∀ b, s.byteAt (s.regs.srcAddr.toNat + s.huf.fetched + 1) = some b → b = b1) ∧
      (∀ b, s.byteAt (s.regs.srcAddr.toNat + s.huf.fetched + 2) = some b → b = b2) ∧
      (∀ b, s.byteAt (s.regs.srcAddr.toNat + s.huf.fetched + 3) = some b → b = b3) := by
  obtain ⟨b0, b1, b2, b3, d, h, hd, h0, h1, h2, h3, _⟩ := readWord_spec (s.regs.srcAddr.toNat + s.huf.fetched) s
  refine ⟨b0, b1, b2, b3, d, ?_, hd, h0, h1, h2, h3⟩
  rw [fetchWord, h]
  rfl

/-- The number of the word that the fetch at `pos` reads covers the 32 stream bits from there. -/
theorem fetchWord_bits {s : State} (hm : s.huf.fetched % 4 = 0) {b0 b1 b2 b3 : Byte}
    (h0 : ∀ b, s.byteAt (s.regs.srcAddr.toNat + s.huf.fetched) = some b → b = b0)
    (h1 : ∀ b, s.byteAt (s.regs.srcAddr.toNat + s.huf.fetched + 1) = some b → b = b1)
    (h2 : ∀ b, s.byteAt (s.regs.srcAddr.toNat + s.huf.fetched + 2) = some b → b = b2)
    (h3 : ∀ b, s.byteAt (s.regs.srcAddr.toNat + s.huf.fetched + 3) = some b → b = b3) (i : Nat) (hi : i < 32) (b : Bool)
    (hb : s.streamBit s.regs.srcAddr.toNat (8 * s.huf.fetched + i) = some b) :
    (wordOf b0 b1 b2 b3).getLsbD i = b := by
  have hdiv : (8 * s.huf.fetched + i) / 8 = s.huf.fetched + i / 8 := by omega
  have hmod : (8 * s.huf.fetched + i) % 8 = i % 8 := by omega
  rw [State.streamBit, hdiv, hmod, Option.map_eq_some_iff] at hb
  obtain ⟨c, hc, rfl⟩ := hb
  rw [getLsbD_wordOf]
  split_ifs with g0 g1 g2
  · have : i / 8 = 0 := by omega
    rw [this, Nat.add_zero] at hc
    rw [h0 c hc]
    congr 1
    omega
  · have : i / 8 = 1 := by omega
    rw [this, ← Nat.add_assoc] at hc
    rw [h1 c hc]
    congr 1
    omega
  · have : i / 8 = 2 := by omega
    rw [this, ← Nat.add_assoc] at hc
    rw [h2 c hc]
    congr 1
    omega
  · have : i / 8 = 3 := by omega
    rw [this, ← Nat.add_assoc] at hc
    rw [h3 c hc]
    congr 1
    omega

/-- All that a bit read can do, without any assumption: E_HUF_INPUT at the end of the window, or a bit. -/
theorem getBit_cases (s : State) :
    (s.huf.cached = 0 ∧ s.regs.srcLen.toNat < s.huf.fetched + 4 ∧ getBit s = .raised .hufInput s) ∨
    (s.huf.cached ≠ 0 ∧ getBit s = .value (s.huf.cache.getLsbD 0).toNat (s.setHuf s.huf.dropBit)) ∨
    (s.huf.cached = 0 ∧ s.huf.fetched + 4 ≤ s.regs.srcLen.toNat ∧
      getBit s = .value ((fetchWord s).huf.cache.getLsbD 0).toNat ((fetchWord s).setHuf (fetchWord s).huf.dropBit)) := by
  by_cases h : s.huf.cached = 0
  · by_cases h' : s.regs.srcLen.toNat < s.huf.fetched + 4
    · exact .inl ⟨h, h', by rw [getBit, fillCache, if_pos h, if_pos h']; rfl⟩
    · exact .inr (.inr ⟨h, by omega, by rw [getBit, fillCache, if_pos h, if_neg h']; rfl⟩)
  · exact .inr (.inl ⟨h, by rw [getBit, fillCache, if_neg h]; rfl⟩)

theorem getBit_reads (s : State) : HufReads s (getBit s).final := by
  rcases getBit_cases s with ⟨_, _, h⟩ | ⟨_, h⟩ | ⟨_, _, h⟩
  · rw [h]; exact .refl s
  · rw [h]; exact (HufReads.refl s).setHuf (Nat.le_refl _) rfl
  · obtain ⟨b0, b1, b2, b3, d, e, hd, -⟩ := fetchWord_spec s
    rw [h, e]
    exact ⟨⟨_, d, rfl⟩, hd, Nat.le_refl _, rfl⟩

/-- `bitsLeft` counts the bits the reader can still deliver: a bit read lowers it by one, and raises where it is 0. -/
theorem bitsLeft_getBit (s : State) :
    (bitsLeft s = 0 → getBit s = .raised .hufInput s) ∧
      (∀ b t, getBit s = .value b t → bitsLeft t + 1 = bitsLeft s) := by
  rcases getBit_cases s with ⟨h1, h2, h⟩ | ⟨h1, h⟩ | ⟨h1, h2, h⟩
  · exact ⟨fun _ => h, fun b t e => by rw [h] at e; cases e⟩
  · refine ⟨fun e => absurd e (by unfold bitsLeft; omega), fun b t e => ?_⟩
    rw [h] at e
    cases e
    simp only [bitsLeft, setHuf_huf, setHuf_regs, HufState.dropBit]
    omega
  · refine ⟨fun e => absurd e (by unfold bitsLeft; omega), fun b t e => ?_⟩
    obtain ⟨b0, b1, b2, b3, d, e', -⟩ := fetchWord_spec s
    rw [h, e'] at e
    cases e
    simp only [bitsLeft, setHuf_huf, setHuf_regs, setDraws_regs, HufState.dropBit]
    omega

/-- The reader delivers the stream bits in order (R103, "stream bit j is bit j % 32 of the word at S + 4*(j // 32)"): from a
reader in its place, a bit read ends the window's words, or answers stream bit `bitPos` and moves on by one. -/
theorem getBit_stream {s : State} (hs : ReaderOk s) :
    (getBit s = .raised .hufInput s ∧ s.regs.srcLen.toNat < fetchedFor (bitPos s + 1)) ∨
    (fetchedFor (bitPos s + 1) ≤ s.regs.srcLen.toNat ∧
      ∃ bit t, getBit s = .value (Bool.toNat bit) t ∧ HufReads s t ∧ ReaderOk t ∧ bitPos t = bitPos s + 1 ∧
        (∀ b, s.streamBit s.regs.srcAddr.toNat (bitPos s) = some b → bit = b) ∧
        t.huf = { s.huf with cache := t.huf.cache, cached := t.huf.cached, fetched := t.huf.fetched }) := by
  obtain ⟨c1, c2, c3, c4, c5⟩ := hs
  have hreads := getBit_reads s
  rcases getBit_cases s with ⟨h1, h2, h⟩ | ⟨h1, h⟩ | ⟨h1, h2, h⟩
  · refine .inl ⟨h, ?_⟩
    simp only [fetchedFor, bitPos, h1]
    omega
  · refine .inr ⟨?_, s.huf.cache.getLsbD 0, _, h, by rw [h] at hreads; exact hreads, ⟨?_, ?_, ?_, ?_, ?_⟩, ?_, ?_, rfl⟩
    · simp only [fetchedFor, bitPos]
      omega
    · simp only [setHuf_huf, HufState.dropBit]
      omega
    · exact c2
    · simp only [setHuf_huf, HufState.dropBit]
      omega
    · exact c4
    · intro i hi b hb
      simp only [setHuf_huf, HufState.dropBit, bitPos, setHuf_regs] at hi hb ⊢
      rw [BitVec.getLsbD_ushiftRight]
      refine c5 (1 + i) (by omega) b ?_
      have hpos : bitPos s + (1 + i) = 8 * s.huf.fetched - (s.huf.cached - 1) + i := by
        unfold bitPos
        omega
      rw [hpos]
      exact hb
    · simp only [bitPos, setHuf_huf, HufState.dropBit]
      omega
    · intro b hb
      exact c5 0 (by omega) b (by simpa using hb)
  · obtain ⟨b0, b1, b2, b3, d, e, hd, g0, g1, g2, g3⟩ := fetchWord_spec s
    have hword := fetchWord_bits c2 g0 g1 g2 g3
    rw [h] at hreads
    rw [e] at h hreads
    refine .inr ⟨?_, (wordOf b0 b1 b2 b3).getLsbD 0, _, h, hreads, ⟨?_, ?_, ?_, ?_, ?_⟩, ?_, ?_, rfl⟩
    · simp only [fetchedFor, bitPos, h1]
      omega
    · simp [HufState.dropBit]
    · simp only [setHuf_huf, HufState.dropBit]
      omega
    · simp only [setHuf_huf, HufState.dropBit]
      omega
    · simpa [HufState.dropBit] using h2
    · intro i hi b hb
      simp only [setHuf_huf, HufState.dropBit, bitPos, setHuf_regs, setDraws_regs] at hi hb ⊢
      rw [BitVec.getLsbD_ushiftRight]
      refine hword (1 + i) (by omega) b ?_
      have hpos : 8 * s.huf.fetched + (1 + i) = 8 * (s.huf.fetched + 4) - (32 - 1) + i := by omega
      rw [hpos]
      exact hb
    · simp only [bitPos, setHuf_huf, HufState.dropBit, h1]
      omega
    · intro b hb
      refine hword 0 (by omega) b ?_
      simpa [bitPos, h1] using hb

theorem getBitsFrom_reads (r n : Nat) (s : State) : HufReads s (getBitsFrom r n s).final := by
  induction n generalizing r s with
  | zero => exact .refl s
  | succ n ih =>
    rw [getBitsFrom]
    rcases final_andThen (getBit s) fun bit s => getBitsFrom (shiftIn r bit) n s with h | ⟨b, _, h⟩
    · rw [h]; exact getBit_reads s
    · rw [h]; exact (getBit_reads s).trans (ih _ _)

theorem getBits_reads (n : Nat) (s : State) : HufReads s (getBits n s).final := getBitsFrom_reads 0 n s

theorem getBits_one (s : State) : getBits 1 s = getBit s := by
  rw [getBits, getBitsFrom]
  cases h : getBit s with
  | raised e t => rfl
  | value b t => simp [getBitsFrom, shiftIn]

/-- A field read can only raise E_HUF_INPUT. -/
theorem getBitsFrom_raised {r n : Nat} {s t : State} {e : ErrCode} (h : getBitsFrom r n s = .raised e t) :
    e = .hufInput := by
  induction n generalizing r s with
  | zero => cases h
  | succ n ih =>
    rw [getBitsFrom] at h
    rcases getBit_cases s with ⟨_, _, h'⟩ | ⟨_, h'⟩ | ⟨_, _, h'⟩
    · rw [h'] at h
      cases h
      rfl
    · rw [h'] at h
      exact ih h
    · rw [h'] at h
      exact ih h

/-! ### The tree parse -/

theorem parseTree_zero (s : State) :
    parseTree 0 s = (getBits 1 s).andThen fun bit s => if bit = 1 then .raised .hufTree s else getBits 8 s := rfl

theorem parseTree_succ (room : Nat) (s : State) :
    parseTree (room + 1) s =
      (getBits 1 s).andThen fun bit s =>
        if bit = 1 then
          if s.cfg.hufMaxId < s.huf.nextId then .raised .hufTree s
          else
            (parseTree room (s.setHuf s.huf.openNode)).andThen fun l s' =>
              (parseTree room (s'.setHuf (s'.huf.closeLeft s.huf.nextId l))).andThen fun r s'' =>
                .value s.huf.nextId (s''.setHuf (s''.huf.closeRight s.huf.nextId r))
        else getBits 8 s := rfl

/-- The tree parse only reads. -/
theorem parseTree_reads (room : Nat) (s : State) : HufReads s (parseTree room s).final := by
  induction room generalizing s with
  | zero =>
    rw [parseTree_zero]
    rcases final_andThen (getBits 1 s) fun bit s =>
      if bit = 1 then HufRun.raised .hufTree s else getBits 8 s with h | ⟨b, _, h⟩
    · rw [h]; exact getBits_reads 1 s
    · rw [h]
      refine (getBits_reads 1 s).trans ?_
      split
      · exact .refl _
      · exact getBits_reads _ _
  | succ room ih =>
    rw [parseTree_succ]
    cases h0 : getBits 1 s with
    | raised e t => have := getBits_reads 1 s; rw [h0] at this; exact this
    | value b t =>
      have r0 : HufReads s t := by have := getBits_reads 1 s; rw [h0] at this; exact this
      simp only [andThen_value]
      split
      · split
        · exact r0
        · have r1 : HufReads s (t.setHuf t.huf.openNode) := r0.setHuf (Nat.le_succ _) rfl
          have r2 := ih (t.setHuf t.huf.openNode)
          cases h1 : parseTree room (t.setHuf t.huf.openNode) with
          | raised e u => rw [h1] at r2; exact r1.trans r2
          | value l u =>
            rw [h1] at r2
            have r3 := (r1.trans r2).setHuf (x := u.huf.closeLeft t.huf.nextId l) (Nat.le_refl _) rfl
            have r4 := ih (u.setHuf (u.huf.closeLeft t.huf.nextId l))
            simp only [andThen_value]
            cases h2 : parseTree room (u.setHuf (u.huf.closeLeft t.huf.nextId l)) with
            | raised e v => rw [h2] at r4; exact r3.trans r4
            | value r v =>
              rw [h2] at r4
              exact (r3.trans r4).setHuf (Nat.le_refl _) rfl
      · exact r0.trans (getBits_reads _ _)

/-- The bound on the path never decides: once the room covers the ids that are left, more room changes nothing. With
`HUF_MAX_ID` - 255 the parse of a HUF.DECODE starts there, since its first id is 256. -/
theorem parseTree_room {room : Nat} {s : State} (h : s.cfg.hufMaxId + 1 ≤ room + s.huf.nextId) (more : Nat) :
    parseTree (room + more) s = parseTree room s := by
  induction room generalizing s more with
  | zero =>
    cases more with
    | zero => rfl
    | succ more =>
      rw [Nat.zero_add, parseTree_succ, parseTree_zero]
      have r0 := getBits_reads 1 s
      cases h0 : getBits 1 s with
      | raised e t => rfl
      | value b t =>
        rw [h0] at r0
        have hlt : t.cfg.hufMaxId < t.huf.nextId := by
          have := r0.nextId_le
          have := congrArg Config.Params.hufMaxId r0.cfg_eq
          simp only [HufRun.final] at *
          omega
        simp only [andThen_value, hlt, if_true]
  | succ room ih =>
    rw [show room + 1 + more = (room + more) + 1 by omega, parseTree_succ, parseTree_succ]
    have r0 := getBits_reads 1 s
    cases h0 : getBits 1 s with
    | raised e t => rfl
    | value b t =>
      rw [h0] at r0
      have hc := congrArg Config.Params.hufMaxId r0.cfg_eq
      have hn := r0.nextId_le
      simp only [HufRun.final] at hc hn
      simp only [andThen_value]
      split
      · split
        · rfl
        · have h1 : (t.setHuf t.huf.openNode).cfg.hufMaxId + 1 ≤ room + (t.setHuf t.huf.openNode).huf.nextId := by
            simp only [setHuf_cfg, setHuf_huf, HufState.openNode]
            omega
          rw [ih h1 more]
          have r1 := parseTree_reads room (t.setHuf t.huf.openNode)
          cases h2 : parseTree room (t.setHuf t.huf.openNode) with
          | raised e u => rfl
          | value l u =>
            rw [h2] at r1
            have hc1 := congrArg Config.Params.hufMaxId r1.cfg_eq
            have hn1 := r1.nextId_le
            simp only [HufRun.final, setHuf_cfg, setHuf_huf, HufState.openNode] at hc1 hn1
            simp only [andThen_value]
            rw [ih (s := u.setHuf (u.huf.closeLeft t.huf.nextId l))
              (by simp only [setHuf_cfg, setHuf_huf, HufState.closeLeft]; omega) more]
      · rfl

/-! ### The descent -/

theorem descend_zero (sym : Nat) (s : State) :
    descend 0 sym s = if sym < 256 then .value sym s else .raised .hufInput s := rfl

theorem descend_succ (fuel sym : Nat) (s : State) :
    descend (fuel + 1) sym s =
      if sym < 256 then .value sym s
      else (getBits 1 s).andThen fun bit t => descend fuel (if bit = 1 then t.huf.right sym else t.huf.left sym) t := rfl

theorem descend_reads (fuel sym : Nat) (s : State) : HufReads s (descend fuel sym s).final := by
  induction fuel generalizing sym s with
  | zero =>
    rw [descend_zero]
    split <;> exact .refl s
  | succ fuel ih =>
    rw [descend_succ]
    split
    · exact .refl s
    · rcases final_andThen (getBits 1 s) fun bit s =>
        descend fuel (if bit = 1 then s.huf.right sym else s.huf.left sym) s with h | ⟨b, _, h⟩
      · rw [h]; exact getBits_reads 1 s
      · rw [h]; exact (getBits_reads 1 s).trans (ih _ _)

/-- The bound on the descent never decides: with at least `bitsLeft` of it, the descent is the loop of R102, one bit at a
time until a leaf or the end of the window. -/
theorem descend_fuel {fuel sym : Nat} {s : State} (h : bitsLeft s ≤ fuel) :
    descend fuel sym s =
      if sym < 256 then .value sym s
      else (getBits 1 s).andThen fun bit t => descend (bitsLeft t) (if bit = 1 then t.huf.right sym else t.huf.left sym) t := by
  induction fuel generalizing sym s with
  | zero => rw [descend_zero, getBits_one, (bitsLeft_getBit s).1 (by omega), andThen_raised]
  | succ fuel ih =>
    rw [descend_succ, getBits_one]
    cases h0 : getBit s with
    | raised e t => rfl
    | value b t =>
      have hb := (bitsLeft_getBit s).2 b t h0
      have self : ∀ sym, descend (bitsLeft t) sym t = descend fuel sym t := by
        intro sym
        rw [ih (by omega)]
        cases hk : bitsLeft t with
        | zero => rw [descend_zero, getBits_one, (bitsLeft_getBit t).1 hk, andThen_raised]
        | succ k =>
          rw [descend_succ, getBits_one]
          cases h1 : getBit t with
          | raised e u => rfl
          | value c u =>
            have hc := (bitsLeft_getBit t).2 c u h1
            have hu : bitsLeft u = k := by omega
            simp only [andThen_value, hu]
      simp only [andThen_value, self]

/-- The descent of R102, without its bound. -/
theorem descend_eq (sym : Nat) (s : State) :
    descend (bitsLeft s) sym s =
      if sym < 256 then .value sym s
      else (getBits 1 s).andThen fun bit t =>
        descend (bitsLeft t) (if bit = 1 then t.huf.right sym else t.huf.left sym) t :=
  descend_fuel (Nat.le_refl _)

theorem descend_raised {fuel sym : Nat} {s t : State} {e : ErrCode} (h : descend fuel sym s = .raised e t) :
    e = .hufInput := by
  induction fuel generalizing sym s with
  | zero =>
    rw [descend_zero] at h
    split at h <;> cases h
    rfl
  | succ fuel ih =>
    rw [descend_succ] at h
    split at h
    · cases h
    · rw [getBits_one] at h
      rcases getBit_cases s with ⟨_, _, h'⟩ | ⟨_, h'⟩ | ⟨_, _, h'⟩
      · rw [h'] at h
        cases h
        rfl
      · rw [h'] at h
        exact ih h
      · rw [h'] at h
        exact ih h

/-! ### The symbol loop -/

theorem decodeSymbols_succ (root n : Nat) (s : State) :
    decodeSymbols root (n + 1) s =
      (descend (bitsLeft s) root s).andThen fun sym s => decodeSymbols root n (emit sym s) := rfl

/-- All that the symbol loop can do: it writes output bytes in order from `DST_ADDR + out`, as many as it counts and at most
`n` of them, leaves every other byte alone, and changes nothing but buffer RAM, HUF state and the number of the next draw.
It ends after all `n`, or in E_HUF_INPUT before. -/
theorem decodeSymbols_spec (root n : Nat) (s : State) :
    ∃ m d h, (decodeSymbols root n s).final = ((s.setMem m).setDraws d).setHuf h ∧ s.draws ≤ d ∧
      s.huf.nextId ≤ h.nextId ∧ s.huf.out ≤ h.out ∧
      (decodeSymbols root n s = .value () (decodeSymbols root n s).final ∧ h.out = s.huf.out + n ∨
        decodeSymbols root n s = .raised .hufInput (decodeSymbols root n s).final ∧ h.out < s.huf.out + n) ∧
      (∀ x, x < s.regs.dstAddr.toNat + s.huf.out ∨ s.regs.dstAddr.toNat + h.out ≤ x →
        Memory.read? m x = Memory.read? s.mem x) ∧
      (∀ x, s.regs.dstAddr.toNat + s.huf.out ≤ x → x < s.regs.dstAddr.toNat + h.out →
        (Memory.read? m x).isSome = true) ∧
      (Memory.wf s.mem → Memory.wf m) ∧
      (∀ size, s.regs.dstAddr.toNat + s.huf.out + n ≤ size → Memory.within s.mem size → Memory.within m size) := by
  induction n generalizing s with
  | zero =>
    exact ⟨s.mem, s.draws, s.huf, rfl, Nat.le_refl _, Nat.le_refl _, Nat.le_refl _, .inl ⟨rfl, rfl⟩, fun _ _ => rfl,
      fun x h1 h2 => absurd h2 (by omega), id, fun _ _ => id⟩
  | succ n ih =>
    have r := descend_reads (bitsLeft s) root s
    rw [decodeSymbols_succ]
    cases h0 : descend (bitsLeft s) root s with
    | raised e t =>
      rw [h0] at r
      obtain rfl := descend_raised h0
      obtain ⟨h, d, rfl⟩ := r.frame
      refine ⟨s.mem, d, h, rfl, r.draws_le, r.nextId_le, Nat.le_of_eq r.out_eq.symm, .inr ⟨rfl, ?_⟩, fun _ _ => rfl,
        fun x h1 h2 => absurd h2 ?_, id, fun _ _ => id⟩
      · have := r.out_eq
        simp only [HufRun.final, setHuf_huf] at this
        omega
      · have := r.out_eq
        simp only [HufRun.final, setHuf_huf] at this
        omega
    | value sym t =>
      rw [h0] at r
      simp only [HufRun.final] at r
      simp only [andThen_value]
      obtain ⟨m, d, h, e, l, ln, lo, ends, out, full, wf, within⟩ := ih (emit sym t)
      have hm : (emit sym t).mem = Memory.write s.mem (s.regs.dstAddr.toNat + s.huf.out) (BitVec.ofNat 8 sym) := by
        rw [← r.out_eq, ← r.regs_eq, ← r.mem_eq]
        rfl
      have ho : (emit sym t).huf.out = s.huf.out + 1 := by
        rw [← r.out_eq]
        rfl
      have hreg : (emit sym t).regs = s.regs := r.regs_eq
      simp only [hm, ho, hreg] at out wf within full
      rw [ho] at lo ends
      have hk : h.out ≤ s.huf.out + 1 + n := by rcases ends with ⟨_, h⟩ | ⟨_, h⟩ <;> omega
      refine ⟨m, d, h, ?_, Nat.le_trans r.draws_le l, Nat.le_trans r.nextId_le ln, by omega, ?_, fun x hx => ?_,
        fun x h1 h2 => ?_, fun hw => wf (write_wf hw _ _),
        fun size hs hi => within size (by omega) (write_within hi (by omega) _)⟩
      · rw [e]
        obtain ⟨h', d', rfl⟩ := r.frame
        rfl
      · rcases ends with ⟨h1, h2⟩ | ⟨h1, h2⟩
        · exact .inl ⟨h1, by omega⟩
        · exact .inr ⟨h1, by omega⟩
      · rw [out x (by omega)]
        exact read?_write_other _ _ (by omega)
      · by_cases hx : x = s.regs.dstAddr.toNat + s.huf.out
        · rw [out x (by omega), hx, read?_write_same]
          rfl
        · exact full x (by omega) h2

/-- HUF.DECODE that passes its checks runs its pseudocode and completes. -/
theorem execHufDecode_of_checks {s : State} (h : hufChecks s = none) :
    execHufDecode s = .next (hufComplete (hufBody s)) := by
  rw [execHufDecode, h]

/-- HUF.DECODE that fails a check reports it and does nothing else. -/
theorem execHufDecode_of_error {s : State} {e : ErrReport} (h : hufChecks s = some e) :
    execHufDecode s = .next (raiseError e 0 0 s) := by
  rw [execHufDecode, h]

end Sys2Proof.Machine
end

