-- ==== Sys2Proof/Laws/PerInstr.lean ====
section
/-! SUPPORT. Statements about every command as a term, one lemma per constructor. -/

namespace Sys2Proof.Laws

open Sys2Proof

/-- The word of a command selects the row of R63 that the command stands for: `(w & mask) == match`. -/
def RowSelected.Statement (i : Instr) : Prop := encode i &&& rowMask i = rowMatch i

theorem RowSelected.nop : RowSelected.Statement .nop := by unfold RowSelected.Statement; decide
theorem RowSelected.hufDecode : RowSelected.Statement .hufDecode := by unfold RowSelected.Statement; decide
theorem RowSelected.subInit : RowSelected.Statement .subInit := by unfold RowSelected.Statement; decide
theorem RowSelected.subDecode (k : Byte) : RowSelected.Statement (.subDecode k) := by
  unfold RowSelected.Statement
  revert k
  decide
theorem RowSelected.subEncode (k : Byte) : RowSelected.Statement (.subEncode k) := by
  unfold RowSelected.Statement
  revert k
  decide
theorem RowSelected.entDecrypt : RowSelected.Statement .entDecrypt := by unfold RowSelected.Statement; decide
theorem RowSelected.entEncrypt : RowSelected.Statement .entEncrypt := by unfold RowSelected.Statement; decide

end Sys2Proof.Laws
end

