-- ==== Sys2Proof/Laws/Step.lean ====
section
/-! SUPPORT. The inversion of one step, and the inversion of `exec` by command: what each can answer, said once. -/

namespace Sys2Proof.Machine

open Sys2Proof

/-- All that a step can do. -/
theorem step_cases (s : State) :
    (∃ w i, s.running = some w ∧ decode w = .ok i ∧ (∀ t ∈ s.pending.head?, t.early = false) ∧ step s = exec i s) ∨
    (∃ w r, s.running = some w ∧ decode w = .error r ∧ (∀ t ∈ s.pending.head?, t.early = false) ∧
      step s = .next (raiseBadCommand w s)) ∨
    (∃ t rest, s.pending = t :: rest ∧ (s.running = none ∨ t.early = true) ∧
      step s = .next (hostEvent t.op (s.setPending rest))) ∨
    (s.running = none ∧ s.pending = [] ∧ step s = .next s) := by
  rcases nextMove_cases s with ⟨w, hr, hm, he⟩ | ⟨t, rest, hp, hm, he⟩ | ⟨hr, hp, hm⟩
  · cases hd : decode w with
    | ok i => exact .inl ⟨w, i, hr, hd, he, by rw [step, hm]; simp only [hd]⟩
    | error r => exact .inr (.inl ⟨w, r, hr, hd, he, by rw [step, hm]; simp only [hd]⟩)
  · exact .inr (.inr (.inl ⟨t, rest, hp, he, by rw [step, hm]⟩))
  · exact .inr (.inr (.inr ⟨hr, hp, by rw [step, hm]⟩))

theorem exec_nop (s : State) : exec .nop s = .next (complete 0 0 s) := rfl
theorem exec_hufDecode (s : State) : exec .hufDecode s = execHufDecode s := rfl
theorem exec_subInit (s : State) : exec .subInit s = execSubInit s := rfl
theorem exec_subDecode (k : Byte) (s : State) :
    exec (.subDecode k) s = .next (substitute (subDecodeByte s.tbl k) s) := rfl
theorem exec_subEncode (k : Byte) (s : State) :
    exec (.subEncode k) s = .next (substitute (subEncodeByte s.tbl k) s) := rfl
theorem exec_entDecrypt (s : State) : exec .entDecrypt s = .next (entCommand .decrypt s) := rfl
theorem exec_entEncrypt (s : State) : exec .entEncrypt s = .next (entCommand .encrypt s) := rfl

end Sys2Proof.Machine
end

