-- ==== Sys2Proof/Tests/Slice0.lean ====
section
/-! SUPPORT. The model's own tests. Expected values are those of spec/95_test_vectors.md (the vector is named) or of the tables
of spec/; then one witness for every statement that has hypotheses. -/

open Sys2Proof Sys2Proof.Machine

namespace Sys2Proof.Tests

/-! ### Small states -/

/-- `s` with the bytes `bs` in buffer RAM from `a` upward. -/
def poke (a : Nat) : List Byte → State → State
  | [], s => s
  | b :: bs, s => poke (a + 1) bs (writeByte a b s)

/-- What `n` bytes from `a` upward hold. -/
def peek (s : State) (a n : Nat) : List (Option Byte) := (List.range n).map fun i => Memory.read? s.mem (a + i)

/-- What a test looks at. -/
structure Report where
  done : Bool
  err : Bool
  code : ErrCode
  info : Word
  res0 : Word
  res1 : Word
  bytes : List (Option Byte)
  deriving DecidableEq, Repr

/-- The report of a step, with `n` bytes from `a` upward. -/
def report (a n : Nat) : Host.Outcome State Fault Refusal → Option Report
  | .next s => some ⟨s.status.done, s.status.err, s.errcode, s.errinfo, s.res0, s.res1, peek s a n⟩
  | _ => none

/-- A completion without error. -/
def ok (r0 r1 : Word) (bs : List Byte) : Option Report := some ⟨true, false, .none, 0, r0, r1, bs.map some⟩

/-- An error with RES0 = RES1 = 0. -/
def failed (e : ErrCode) (info : Word) : Option Report := some ⟨false, true, e, info, 0, 0, []⟩

/-- The instance of spec/95_test_vectors.md section 2.4: BUF_SIZE = 0x1000. -/
def base : State := State.resetWith { bufSize := 0x1000, hufMaxId := 511 }

/-- `s` with its two windows. -/
def windows (sa sl da dl : Word) (s : State) : State :=
  s.setRegs { s.regs with srcAddr := sa, srcLen := sl, dstAddr := da, dstLen := dl }

/-- `s` with a valid table. -/
def withTable (t : Vector Byte 256) (s : State) : State := (s.setTbl t).setStatus s.status.withTable

/-- The step of the command `w` from its accept. -/
def runWord (w : Word) (s : State) : Host.Outcome State Fault Refusal := step (accept w s)

/-- The state a step answers. -/
def after : Host.Outcome State Fault Refusal → State
  | .next s => s
  | _ => base

/-- A step answers a state. -/
def answers : Host.Outcome State Fault Refusal → Bool
  | .next _ => true
  | _ => false

theorem next_after {o : Host.Outcome State Fault Refusal} (h : answers o = true) : o = .next (after o) := by
  cases o with
  | next s => rfl
  | fault r => cases h
  | refused r => cases h

/-! ### Decoding: words written out from the table of R63 -/

theorem test_decode_nop : decode 0b00000000000000000000000000000000 = .ok .nop := by rfl
theorem test_decode_huf : decode 0b00000000000000000000000000000001 = .ok .hufDecode := by rfl
theorem test_decode_sub_init : decode 0b00000000000000000000000000000010 = .ok .subInit := by rfl
theorem test_decode_sub_decode : decode 0b00000000000000000011101000000011 = .ok (.subDecode 0x3A) := by rfl
theorem test_decode_sub_encode : decode 0b00000000000000001111111100000100 = .ok (.subEncode 0xFF) := by rfl
theorem test_decode_ent_decrypt : decode 0b00000000000000000000000000000101 = .ok .entDecrypt := by rfl
theorem test_decode_ent_encrypt : decode 0b00000000000000000000000000000110 = .ok .entEncrypt := by rfl
theorem test_decode_unknown : decode 0x00000007 = .error .unknownOp := by rfl
theorem test_decode_unknown_top : decode 0x000000FF = .error .unknownOp := by rfl
theorem test_decode_imm : decode 0x00000102 = .error .immNotZero := by rfl
theorem test_decode_rsv : decode 0x80003A03 = .error .reservedNotZero := by rfl
theorem test_decode_rsv_low : decode 0x00010000 = .error .reservedNotZero := by rfl
theorem test_table_word : decodeTableWord 32 0x3A03 = some (.subDecode 0x3A) := by rfl
theorem test_table_word_short : decodeTableWord 8 0x04 = some (.subEncode 0) := by rfl
theorem test_table_word_illegal : decodeTableWord 32 0x107 = none := by rfl

/-- After reset, a latched SUB.DECODE runs as the very next step: its empty window is legal and no table is built (E_NOTABLE). -/
theorem test_first_step : report 0 0 (step (State.reset.withFetchWord 32 0x3A03)) = failed .noTable 0 := by decide
theorem test_first_step_nop : report 0 0 (step (State.reset.withFetchWord 32 0)) = ok 0 0 [] := by decide

/-! ### Well-formedness: each check refuses an ill-formed term -/

theorem test_wf_command : AsmLine.wf (.cmd ⟨.subDecode, some 255⟩) = true := by decide
theorem test_wf_missing_imm : AsmLine.wf (.cmd ⟨.subDecode, none⟩) = false := by decide
theorem test_wf_imm_too_big : AsmLine.wf (.cmd ⟨.subEncode, some 256⟩) = false := by decide
theorem test_wf_imm_on_c0 : AsmLine.wf (.cmd ⟨.nop, some 0⟩) = false := by decide
theorem test_wf_run : AsmLine.wf (.run ⟨.entDecrypt, some 1⟩) = false := by decide
theorem test_wf_offset : AsmLine.wf (.rd (.offset 0x400)) = false := by decide
theorem test_wf_write_offset : AsmLine.wf (.wr (.offset 0x400) 0) = false := by decide
theorem test_wf_write_value : AsmLine.wf (.wr (.name .seed) 0x100000000) = false := by decide
theorem test_wf_bw_empty : AsmLine.wf (.bw 0 []) = false := by decide
theorem test_wf_bw_address : AsmLine.wf (.bw 0xFFFFFFFF [0, 0]) = false := by decide
theorem test_wf_bw_byte : AsmLine.wf (.bw 0 [256]) = false := by decide
theorem test_wf_br : AsmLine.wf (.br 0xFFFFFFFF 2) = false := by decide
theorem test_wf_setsrc : AsmLine.wf (.setSrc 0x100000000 0) = false := by decide
theorem test_wf_setdst : AsmLine.wf (.setDst 0 0x100000000) = false := by decide
theorem test_wf_ldsecret_length : AsmLine.wf (.ldSecret (List.replicate 17 0)) = false := by decide
theorem test_wf_ldsecret_word : AsmLine.wf (.ldSecret [0x100000000]) = false := by decide
theorem test_wf_ldmd5 : AsmLine.wf (.ldMd5 0 0 0 0x100000000) = false := by decide

/-! ### NOP and HUF -/

/-- N1. -/
theorem test_nop_n1 :
    let s := runWord 0 { base with status := ⟨false, true, true, false⟩, errcode := .noTable, res0 := 7 }
    report 0 0 s = ok 0 0 [] ∧ statusWord (after s).busy (after s).status = 0x0A := by decide

/-- H5: the stream ends after 13 of 30 bytes. -/
theorem test_huf_h5 :
    report 16 30 (runWord 1 (windows 0 4 16 30 (poke 0 [0x09, 0x12, 0x32, 0x00] base))) =
      some ⟨false, true, .hufInput, 13, 4, 257,
        [some 0x41, some 0x42, some 0x42] ++ List.replicate 10 (some 0x41) ++ List.replicate 17 none⟩ := by
  decide +kernel

/-- H9: three leaves, and a stream that crosses a word boundary. -/
theorem test_huf_h9 :
    report 16 12 (runWord 1 (windows 0 8 16 12 (poke 0 [0x79, 0xE4, 0xC9, 0x4B, 0x1F, 0x7D, 0x00, 0x00] base))) =
      ok 8 258 [0x78, 0x79, 0x7A, 0x7A, 0x79, 0x78, 0x78, 0x79, 0x7A, 0x7A, 0x79, 0x78] := by
  decide +kernel

/-! ### SUB -/

/-- S3: RES0, and the first and the last entries of table T3 through TBLWIN. -/
theorem test_sub_init_s3 :
    let t := after (runWord 2 (base.setRegs { base.regs with
      initKey := 0x12345678, initSummand := 0x9ABCDEF0, decoderFactor := 0x1A2B3C4D }))
    (t.res0, t.status.tblValid, (readReg 0x100 t).1, (readReg 0x1FC t).1) =
      (0x8CF1D1E6, true, 0xFAA17B1F, 0x9162E4DA) := by
  decide +kernel

/-- The keys of the first rounds of S3. -/
theorem test_sub_init_keys :
    (List.range 5).map (keyRef 0x12345678 0x9ABCDEF0 0x1A2B3C4D) =
      [0x12345678, 0xB7C76776, 0xA5AA3269, 0x8A9B4142, 0xBD2C4700] := by
  decide +kernel

/-- The four entries of T3 that S5 uses, in a table of zeros. -/
def tableS5 : Vector Byte 256 :=
  ((((Vector.replicate 256 0).set 0x3A 0x49).set 0x3B 0x61).set 0x38 0xD3).set 0xC5 0x1D

/-- S5. -/
theorem test_sub_decode_s5 :
    report 0x100 4 (runWord 0x3A03 (windows 0x100 4 0 0 (withTable tableS5 (poke 0x100 [0x00, 0x01, 0x02, 0xFF] base)))) =
      ok 4 0 [0x49, 0x61, 0xD3, 0x1D] := by
  decide +kernel

/-- S6. -/
theorem test_sub_encode_s6 :
    report 0x100 4 (runWord 0x3A04 (windows 0x100 4 0 0 (withTable tableS5 (poke 0x100 [0x49, 0x61, 0xD3, 0x1D] base)))) =
      ok 4 0 [0x00, 0x01, 0x02, 0xFF] := by
  decide +kernel

/-! ### ENT -/

/-- Configuration B of the vectors, with the three entries of T3 that E1 uses. -/
def configB (s : State) : State :=
  withTable ((((Vector.replicate 256 0).set 0 0x1F).set 4 0x88).set 0xEC 0x6F)
    (s.setRegs { s.regs with
      cmvsMd5 := #v[0x11111111, 0x22222222, 0x33333333, 0x44444444], seed := 0xDEADBEEF, entryInitKey := 0x01234567,
      entryKeyPos := 3, entryTailKey := 0x5A, secretLen := 4,
      secret := #v[1, 2, 3, 4, 0, 0, 0, 0, 0, 0, 0, 0, 0, 0, 0, 0] })

/-- E1. -/
theorem test_ent_encrypt_e1 :
    report 0x300 5 (runWord 6 (configB (windows 0x300 5 0 0 (poke 0x300 [0x68, 0x65, 0x6C, 0x6C, 0x6F] base)))) =
      ok 0x4C3D69BE 4 [0x03, 0x4A, 0xE5, 0xFC, 0xB6] := by
  decide +kernel

/-- E2. -/
theorem test_ent_decrypt_e2 :
    report 0x300 5 (runWord 5 (configB (windows 0x300 5 0 0 (poke 0x300 [0x03, 0x4A, 0xE5, 0xFC, 0xB6] base)))) =
      ok 0x4C3D69BE 4 [0x68, 0x65, 0x6C, 0x6C, 0x6F] := by
  decide +kernel

/-! ### Errors at accept -/

/-- X5. -/
theorem test_bad_command_x5 : report 0 0 (runWord 0x00FF0003 base) = failed .badCmd 0x00FF0003 := by decide
/-- X6. -/
theorem test_range_x6 : report 0 0 (runWord 1 (windows 0xFFE 4 0 0 base)) = failed .range 0 := by decide
/-- X7. -/
theorem test_range_x7 : report 0 0 (runWord 1 (windows 0 8 0x1000 1 base)) = failed .range 1 := by decide
/-- X11. -/
theorem test_overlap_x11 : report 0 0 (runWord 1 (windows 0 8 4 4 base)) = failed .overlap 0 := by decide
/-- X14: range before table. -/
theorem test_range_x14 : report 0 0 (runWord 3 (windows 0xFFE 4 0 0 base)) = failed .range 0 := by decide
/-- X17. -/
theorem test_cfg_x17 :
    report 0 0 (runWord 6 (withTable tblIdentity (windows 0 4 0 0
      (base.setRegs { base.regs with entryKeyPos := 16 })))) = failed .cfg 16 := by decide +kernel

/-! ### The host's ports -/

/-- W1. -/
theorem test_host_w1 : (readReg 0x03C (hostEvent (.regWrite 0x03C 40) base)).1 = 16 := by decide
/-- W2. -/
theorem test_host_w2 : (readReg 0x038 (hostEvent (.regWrite 0x038 0x1234) base)).1 = 0x34 := by decide
/-- W4: offset bits 1:0 are ignored. -/
theorem test_host_w4 : (readReg 0x010 (hostEvent (.regWrite 0x012 0x40) base)).1 = 0x40 := by decide
/-- The table of R21: what writes at 0x020 to 0x034 set. -/
theorem test_host_offsets :
    let t := [(0x020, 1), (0x024, 2), (0x028, 3), (0x02C, 4), (0x030, 5), (0x034, 6)].foldl
      (fun s (x : Offset × Word) => hostEvent (.regWrite x.1 x.2) s) base
    [t.regs.initKey, t.regs.initSummand, t.regs.decoderFactor, t.regs.seed, t.regs.entryInitKey, t.regs.entryKeyPos] =
      [1, 2, 3, 4, 5, 6] := by decide
/-- W6. -/
theorem test_host_w6 :
    (readReg 0x004 (hostEvent (.regWrite 0x004 0xFF) { base with status := ⟨true, true, true, false⟩ })).1 = 0x08 := by
  decide
/-- W7. -/
theorem test_host_w7 :
    let t := hostEvent (.regWrite 0x014 9) (accept 0 base)
    (t.regs.srcLen, t.status.wbusy, t.busy) = (0, true, true) := by decide
/-- P5, both ends: the write comes early and is dropped, or lands after the completion. -/
theorem test_host_p5 :
    let s (early : Bool) := accept 0x3A03 (windows 0x100 4 0 0 (withTable tableS5
      (poke 0x100 [0x00, 0x01, 0x02, 0xFF] { base with pending := [⟨.regWrite 0x014 2, early⟩] })))
    let view (t : State) := (statusWord t.busy t.status, t.regs.srcLen, peek t 0x100 4)
    view (after (Host.Core.run Sys2Proof.core 2 (s true))) =
      (0x1A, 4, [some 0x49, some 0x61, some 0xD3, some 0x1D]) ∧
    view (after (Host.Core.run Sys2Proof.core 2 (s false))) =
      (0x0A, 2, [some 0x49, some 0x61, some 0xD3, some 0x1D]) := by
  decide +kernel

/-- A reset while SUB.DECODE runs abandons it: idle, registers 0, and the bytes outside the window keep their values. -/
theorem test_reset_while_busy :
    let t := hostEvent .resetInput (accept 0x3A03 (windows 0x101 2 0 0 (withTable tableS5
      (poke 0x100 [0x11, 0x22, 0x33, 0x44] base))))
    (t.busy, t.status.tblValid, t.regs.srcLen, Memory.read? t.mem 0x100, Memory.read? t.mem 0x103,
      (Memory.read? t.mem 0x101).isSome) = (false, false, 0, some 0x11, some 0x44, true) := by
  decide +kernel

/-! ### Witnesses: the hypotheses of each statement are met together -/

/-- A table is valid, the SRC window is the last five bytes of the buffer, all written, and ENTRY_KEY_POS is its greatest
value. -/
def ready : State :=
  withTable tblIdentity (poke 0xFFB [0x10, 0x32, 0x54, 0x76, 0x98]
    (base.setRegs { base.regs with srcAddr := 0xFFB, srcLen := 5, entryKeyPos := 15 }))

theorem identity_isPermutation : isPermutation tblIdentity :=
  (Function.bijective_iff_has_inverse).2 ⟨id, fun x => tblGet_identity x, fun x => tblGet_identity x⟩

theorem ready_written : ready.windowWritten ready.regs.srcAddr ready.regs.srcLen := by
  rintro x ⟨h1, h2⟩
  have h1' : 0xFFB ≤ x := h1
  have h2' : x < 0x1000 := h2
  interval_cases x <;> decide +kernel

/-- The invariant holds in `ready`, idle with a table, and so in a state that no reset has just made. -/
theorem ready_inv : Inv ready where
  cfg_wf := by decide
  mem_wf := by decide +kernel
  mem_within := by decide +kernel
  not_both := by decide
  busy_clear := fun h => by cases h
  done_report := fun h => by cases h
  err_report := fun h => by cases h
  table := fun _ => identity_isPermutation

theorem witness_DecodeAgreesWithEncodeAndTable :
    decode 0x0000FF04 = .ok (.subEncode 0xFF) ∧
      (0x0000FF04 : Word) &&& rowMask (.subEncode 0xFF) = rowMatch (.subEncode 0xFF) := by decide

theorem witness_IllegalWordRaisesBadCommand :
    ∃ (s : State) (w : Word), s.running = some w ∧ hostWaits s ∧ decode w = .error .unknownOp :=
  ⟨accept 0x00000007 base, 0x00000007, rfl, (by intro t h; cases h), rfl⟩

theorem witness_AssembledCommandIsItsWord :
    AsmCmd.wf ⟨.subDecode, some 255⟩ = true ∧ AsmCmd.wf ⟨.subEncode, some 0⟩ = true ∧ AsmCmd.wf ⟨.nop, none⟩ = true := by
  decide

theorem witness_PseudoInstructionsExpand : (List.replicate 16 0xFFFFFFFF : List Nat).length ≤ 16 := by decide

theorem witness_StepRunsLatchedCommand :
    (∃ (s : State) (w : Word), s.running = some w ∧ hostWaits s ∧ decode w = .ok (.subDecode 0x3A)) ∧
    (∃ (s : State) (x : HostTxn) (rest : List HostTxn), s.pending = x :: rest ∧ s.running = none ∧ x.early = false) ∧
    (∃ (s : State) (x : HostTxn) (rest : List HostTxn), s.pending = x :: rest ∧ s.running ≠ none ∧ x.early = true) ∧
    ∃ s : State, s.running = none ∧ s.pending = [] :=
  ⟨⟨accept 0x3A03 ready, 0x3A03, rfl, (by intro t h; cases h), rfl⟩,
    ⟨ready.setPending [⟨.bufRead 0xFFF, false⟩], _, _, rfl, rfl, rfl⟩,
    ⟨accept 0x3A03 (ready.setPending [⟨.resetInput, true⟩]), _, _, rfl, (by intro h; cases h), rfl⟩, ready, rfl, rfl⟩

/-- A buffer read and the reset input, taken by a step. -/
theorem test_step_host_events :
    (after (step (ready.setPending [⟨.bufRead 0xFFF, false⟩]))).responses = [.buf 0xFFF 0x98] ∧
    (after (step (accept 0 (ready.setPending [⟨.resetInput, true⟩])))).running = none := by
  decide +kernel

theorem witness_CommandWriteIsAccepted : ready.busy = false ∧ (0x003 : Offset).toNat < 4 := by decide

theorem witness_AcceptedCommandCompletes : (accept 5 ready).busy = true := by decide

theorem witness_CommandsSetOnlyTheirFlags :
    ∃ s t : State, exec .subInit s = .next t ∧ t.status.tblValid ≠ s.status.tblValid :=
  ⟨base, _, exec_subInit base, by decide⟩

theorem witness_CommandsKeepHostRegisters : ∃ t, exec .entEncrypt ready = .next t := ⟨_, exec_entEncrypt ready⟩

theorem witness_WriteBehindRunningCommand :
    ∃ (s : State) (e : Bool), s.running = some (encode (.subDecode 0x3A)) ∧
      s.pending = [{ op := .regWrite 0x014 2, early := e }] :=
  ⟨accept 0x3A03 (ready.setPending [{ op := .regWrite 0x014 2, early := true }]), true, by decide, rfl⟩

theorem witness_ResetInputFromAnyState :
    ready.running = none ∧
    (∃ w, (accept 2 ready).running = some w ∧ ∀ i, decode w = .ok i → i = .nop ∨ i = .subInit) ∧
    (∃ w, (accept 1 ready).running = some w ∧ decode w = .ok .hufDecode) ∧
    (∃ w i, (accept 0x3A03 ready).running = some w ∧ decode w = .ok i ∧ (∃ k, i = .subDecode k ∨ i = .subEncode k) ∧
      inWindow ready.regs.srcAddr ready.regs.srcLen 0xFFF ∧ 0xFFF < ready.cfg.bufSize) :=
  ⟨rfl, ⟨2, rfl, fun i h => .inr (by cases h; rfl)⟩, ⟨1, rfl, rfl⟩,
    ⟨0x3A03, .subDecode 0x3A, rfl, rfl, ⟨0x3A, .inl rfl⟩, by decide, by decide⟩⟩

theorem witness_StepKeepsInvariant : Inv ready ∧ ∃ t, step ready = .next t := ⟨ready_inv, _, rfl⟩

theorem witness_TableValidGatesTable :
    (let s := windows 0x1000 0 0 0 base
     s.legalWindow s.regs.srcAddr s.regs.srcLen ∧ s.status.tblValid = false) ∧
    ∃ s t : State, step s = .next t ∧ s.status.tblValid = true ∧ ¬resetIsNext s :=
  ⟨by decide, ready, ready, rfl, by decide, by rintro ⟨t, h, _⟩; cases h⟩

theorem witness_TableIsPermutationAndPersists :
    ∃ s t : State, step s = .next t ∧ ¬resetIsNext s ∧ ∀ w, s.running = some w → decode w ≠ .ok .subInit :=
  ⟨accept 0 ready, _, rfl, (by rintro ⟨t, h, _⟩; cases h), by intro w h; cases h; decide⟩

theorem witness_IllegalWindowRaisesRange :
    (let s := windows 0xFFF 2 0 0 base
     ¬s.legalWindow s.regs.srcAddr s.regs.srcLen) ∧
    (let s := windows 0x1000 0 0x1001 0 base
     s.legalWindow s.regs.srcAddr s.regs.srcLen ∧ ¬s.legalWindow s.regs.dstAddr s.regs.dstLen) ∧
    (let s := windows 0x1000 0 0x1000 0 base
     s.legalWindow s.regs.srcAddr s.regs.srcLen ∧ s.legalWindow s.regs.dstAddr s.regs.dstLen ∧ s.errcode ≠ .range ∧
       answers (exec .hufDecode s) = true) := by decide

theorem witness_AcceptErrorsChangeNothing :
    ∃ (i : Instr) (s t : State), s.errcode = .none ∧ exec i s = .next t ∧ t.errcode = .overlap :=
  ⟨.hufDecode, windows 0 8 4 4 base, _, rfl, next_after (by decide), by decide⟩

theorem witness_SubDecodeSubstitutesWindow :
    (ready.legalWindow ready.regs.srcAddr ready.regs.srcLen ∧ ready.status.tblValid = true ∧
      inWindow ready.regs.srcAddr ready.regs.srcLen 0xFFF ∧ ready.byteAt 0xFFF = some 0x98) ∧
    ready.windowWritten ready.regs.srcAddr ready.regs.srcLen ∧
    (let s := ready.setMem []
     s.legalWindow s.regs.srcAddr s.regs.srcLen ∧ s.status.tblValid = true ∧
       inWindow s.regs.srcAddr s.regs.srcLen 0xFFB ∧ s.byteAt 0xFFB = none) ∧
    (let s := windows 0x1001 0 0 0 ready
     ¬s.legalWindow s.regs.srcAddr s.regs.srcLen) ∧
    (let s := windows 0x1000 0 0 0 base
     s.legalWindow s.regs.srcAddr s.regs.srcLen ∧ s.status.tblValid = false) :=
  ⟨by decide +kernel, ready_written, by decide, by decide, by decide⟩

theorem witness_SubEncodeSearchesTable :
    (ready.legalWindow ready.regs.srcAddr ready.regs.srcLen ∧ ready.status.tblValid = true ∧
      inWindow ready.regs.srcAddr ready.regs.srcLen 0xFFF ∧ ready.byteAt 0xFFF = some 0x98) ∧
    (∃ j, tblGet ready.tbl j = 0x98) ∧ isPermutation ready.tbl ∧
    ready.windowWritten ready.regs.srcAddr ready.regs.srcLen ∧
    (let s := windows 0x1001 0 0 0 ready
     ¬s.legalWindow s.regs.srcAddr s.regs.srcLen) ∧
    (let s := windows 0x1000 0 0 0 base
     s.legalWindow s.regs.srcAddr s.regs.srcLen ∧ s.status.tblValid = false) :=
  ⟨by decide +kernel, ⟨0x98, tblGet_identity _⟩, identity_isPermutation, ready_written, by decide, by decide⟩

theorem witness_SubInverseLaw :
    ready.legalWindow ready.regs.srcAddr ready.regs.srcLen ∧ ready.status.tblValid = true ∧ isPermutation ready.tbl ∧
      ready.windowWritten ready.regs.srcAddr ready.regs.srcLen :=
  ⟨by decide, by decide, identity_isPermutation, ready_written⟩

theorem witness_EntDerivesSecretArray :
    ready.legalWindow ready.regs.srcAddr ready.regs.srcLen ∧ ready.status.tblValid = true ∧
      ready.regs.entryKeyPos.toNat ≤ 15 := by decide

/-- The hypotheses of EntDecryptDecodesWindow and EntEncryptEncodesWindow, in each of their four clauses. -/
theorem witness_EntDecryptDecodesWindow_EntEncryptEncodesWindow :
    (ready.legalWindow ready.regs.srcAddr ready.regs.srcLen ∧ ready.status.tblValid = true ∧
      ready.regs.entryKeyPos.toNat ≤ 15 ∧ 0 < ready.regs.srcLen.toNat / 4 ∧
      ready.regs.srcAddr.toNat + 4 * (ready.regs.srcLen.toNat / 4) ≤ 0xFFF ∧
      0xFFF < ready.regs.srcAddr.toNat + ready.regs.srcLen.toNat ∧ ready.byteAt 0xFFF = some 0x98) ∧
    ready.windowWritten ready.regs.srcAddr ready.regs.srcLen ∧ isPermutation ready.tbl ∧
    (let s := windows 0xFFF 2 0 0 ready
     ¬s.legalWindow s.regs.srcAddr s.regs.srcLen) ∧
    (let s := windows 0xFFF 1 0 0 base
     s.legalWindow s.regs.srcAddr s.regs.srcLen ∧ s.status.tblValid = false) ∧
    (let s := ready.setRegs { ready.regs with entryKeyPos := 16 }
     s.legalWindow s.regs.srcAddr s.regs.srcLen ∧ s.status.tblValid = true ∧ 15 < s.regs.entryKeyPos.toNat) :=
  ⟨by decide +kernel, ready_written, identity_isPermutation, by decide, by decide, by decide⟩

theorem witness_EntInverseLaw :
    ready.legalWindow ready.regs.srcAddr ready.regs.srcLen ∧ ready.status.tblValid = true ∧ isPermutation ready.tbl ∧
      ready.regs.entryKeyPos.toNat ≤ 15 ∧ ready.windowWritten ready.regs.srcAddr ready.regs.srcLen :=
  ⟨by decide, by decide, identity_isPermutation, by decide, ready_written⟩

/-- The stream of H2, up to the end of the buffer, and the two bytes of the DST window just below it. -/
def stream : State := windows 0xFFC 4 0xFFA 2 (poke 0xFFC [0x09, 0x12, 0x32, 0x00] base)

/-- The tree of H2. -/
def tree : HufTree := .node (.leaf 0x41) (.leaf 0x42)

theorem stream_windows :
    stream.cfg.wf = true ∧ stream.status.err = false ∧ stream.legalWindow stream.regs.srcAddr stream.regs.srcLen ∧
      stream.legalWindow stream.regs.dstAddr stream.regs.dstLen := by decide

theorem stream_apart :
    ∀ a, inWindow stream.regs.srcAddr stream.regs.srcLen a → ¬inWindow stream.regs.dstAddr stream.regs.dstLen a := by
  rintro a ⟨h1, _⟩ ⟨_, h2⟩
  have h1' : 0xFFC ≤ a := h1
  have h2' : a < 0xFFC := h2
  omega

theorem witness_HufDecodesTransmittedTree :
    ∃ syms : List (Byte × List Bool), tree.nodes ≤ stream.cfg.hufMaxId - 255 ∧ (∀ x ∈ syms, tree.Code x.2 x.1) ∧
      syms.length = stream.regs.dstLen.toNat ∧
      stream.streamIs stream.regs.srcAddr.toNat (tree.bits ++ syms.flatMap (fun x => x.2)) ∧
      fetchedFor (tree.bits ++ syms.flatMap (fun x => x.2)).length ≤ stream.regs.srcLen.toNat := by
  refine ⟨[(0x41, [false]), (0x42, [true])], by decide, ?_, by decide, ?_, by decide⟩
  · intro x hx
    simp only [List.mem_cons, List.not_mem_nil, or_false] at hx
    rcases hx with rfl | rfl
    · exact .left (.leaf _)
    · exact .right (.leaf _)
  · unfold State.streamIs
    decide +kernel

theorem witness_HufShortInputIsRefused :
    let s := windows 0xFFD 3 0xFFA 3 base
    s.legalWindow s.regs.srcAddr s.regs.srcLen ∧ s.legalWindow s.regs.dstAddr s.regs.dstLen ∧
      (∀ a, inWindow s.regs.srcAddr s.regs.srcLen a → ¬inWindow s.regs.dstAddr s.regs.dstLen a) ∧
      s.regs.srcLen.toNat < 4 := by
  refine ⟨by decide, by decide, ?_, by decide⟩
  rintro a ⟨h1, _⟩ ⟨_, h2⟩
  have h1' : 0xFFD ≤ a := h1
  have h2' : a < 0xFFD := h2
  omega

/-- 0x41 is coded 0, 0x42 is coded 10, and the codes in `r` begin with 11. -/
def tree3 (r : HufTree) : HufTree := .node (.leaf 0x41) (.node (.leaf 0x42) r)

/-- One word: 29 bits of a tree of two internal nodes, the code of 0x41 twice, and the first bit of a longer code. -/
def cutCode : State := windows 0xFFC 4 0xFF9 3 (poke 0xFFC [0x09, 0x26, 0x44, 0x98] base)

/-- One word: the first 32 of the 39 bits of a tree of three internal nodes. -/
def cutTree : State := windows 0xFFC 4 0xFFC 0 (poke 0xFFC [0x09, 0x26, 0x94, 0x30] base)

/-- Both clauses: the end of the word inside a code, with room for one more symbol than decoded; the end inside the tree; and
a window without a whole word, that ends before the first bit. -/
theorem witness_HufRaisesInputAtWindowEnd :
    (cutCode.cfg.wf = true ∧ cutCode.legalWindow cutCode.regs.srcAddr cutCode.regs.srcLen ∧
      cutCode.legalWindow cutCode.regs.dstAddr cutCode.regs.dstLen ∧
      (∀ a, inWindow cutCode.regs.srcAddr cutCode.regs.srcLen a → ¬inWindow cutCode.regs.dstAddr cutCode.regs.dstLen a) ∧
      ∃ (syms : List (Byte × List Bool)) (part more : List Bool) (b : Byte),
        let tree := tree3 (.leaf 0x43)
        tree.nodes ≤ cutCode.cfg.hufMaxId - 255 ∧ (∀ x ∈ syms, tree.Code x.2 x.1) ∧
        syms.length + 1 = cutCode.regs.dstLen.toNat ∧ tree.Code (part ++ more) b ∧ more ≠ [] ∧
        cutCode.streamIs cutCode.regs.srcAddr.toNat (tree.bits ++ syms.flatMap (fun x => x.2) ++ part) ∧
        (tree.bits ++ syms.flatMap (fun x => x.2) ++ part).length = wholeWordBits cutCode.regs.srcLen) ∧
    (∀ s tree, (s = cutTree ∧ tree = tree3 (.node (.leaf 0x43) (.leaf 0x44)) ∨
        s = windows 0xFFD 3 0xFFD 0 base ∧ tree = .leaf 0x41) →
      s.cfg.wf = true ∧ s.legalWindow s.regs.srcAddr s.regs.srcLen ∧ s.legalWindow s.regs.dstAddr s.regs.dstLen ∧
      (∀ a, inWindow s.regs.srcAddr s.regs.srcLen a → ¬inWindow s.regs.dstAddr s.regs.dstLen a) ∧
      wholeWordBits s.regs.srcLen < tree.bits.length ∧
      tree.opened (wholeWordBits s.regs.srcLen) ≤ s.cfg.hufMaxId - 255 ∧
      s.streamIs s.regs.srcAddr.toNat (tree.bits.take (wholeWordBits s.regs.srcLen))) := by
  refine ⟨⟨by decide, by decide, by decide, ?_, [(0x41, [false]), (0x41, [false])], [true], [false], 0x42, by decide, ?_,
    by decide, .right (.left (.leaf _)), by decide, ?_, by decide⟩, ?_⟩
  · rintro a ⟨h1, _⟩ ⟨_, h2⟩
    have h1' : 0xFFC ≤ a := h1
    have h2' : a < 0xFFC := h2
    omega
  · intro x hx
    simp only [List.mem_cons, List.not_mem_nil, or_false] at hx
    rcases hx with rfl | rfl <;> exact .left (.leaf _)
  · unfold State.streamIs
    decide +kernel
  · rintro s tree (⟨rfl, rfl⟩ | ⟨rfl, rfl⟩) <;>
      refine ⟨by decide, by decide, by decide, fun a _ h => absurd h.2 (Nat.not_lt.2 h.1), by decide, by decide, ?_⟩ <;>
      · unfold State.streamIs
        decide +kernel

/-- H5's shape inside a code: RES0 4, RES1 258, ERRINFO 2, and the third byte not written. -/
theorem test_huf_cut_code :
    report 0xFF9 3 (exec .hufDecode cutCode) =
      some ⟨false, true, .hufInput, 2, 4, 258, [some 0x41, some 0x41, none]⟩ := by
  decide +kernel

/-- X18's shape inside a tree: three internal nodes met, no byte written. -/
theorem test_huf_cut_tree :
    report 0 0 (exec .hufDecode cutTree) = some ⟨false, true, .hufInput, 0, 4, 259, []⟩ := by
  decide +kernel

/-- `cutTree` in an instance with one node id: the 11th bit asks for a second one, and only the first word of the tree is
there. -/
def cutLarge : State := { cutTree with cfg := { bufSize := 0x1000, hufMaxId := 256 } }

/-- The stream is cut just behind the refusing bit or later, as in H7; and a whole tree in an instance with no node id. -/
theorem witness_HufTooLargeTreeIsRefused :
    (let s := cutLarge
     let tree := tree3 (.node (.leaf 0x43) (.leaf 0x44))
     s.cfg.wf = true ∧ s.legalWindow s.regs.srcAddr s.regs.srcLen ∧ s.legalWindow s.regs.dstAddr s.regs.dstLen ∧
       (∀ a, inWindow s.regs.srcAddr s.regs.srcLen a → ¬inWindow s.regs.dstAddr s.regs.dstLen a) ∧
       wholeWordBits s.regs.srcLen < tree.bits.length ∧
       ∀ n, n = 11 ∨ n = 32 → s.cfg.hufMaxId - 255 < tree.opened n ∧ n ≤ wholeWordBits s.regs.srcLen ∧
         s.streamIs s.regs.srcAddr.toNat (tree.bits.take n) ∧
         (n = 11 → tree.opened (n - 1) ≤ s.cfg.hufMaxId - 255)) ∧
    (let s : State := { stream with cfg := { bufSize := 0x1000, hufMaxId := 255 } }
     s.cfg.wf = true ∧ s.legalWindow s.regs.srcAddr s.regs.srcLen ∧ s.legalWindow s.regs.dstAddr s.regs.dstLen ∧
       (∀ a, inWindow s.regs.srcAddr s.regs.srcLen a → ¬inWindow s.regs.dstAddr s.regs.dstLen a) ∧
       s.cfg.hufMaxId - 255 < tree.opened tree.bits.length ∧ tree.bits.length ≤ wholeWordBits s.regs.srcLen ∧
       s.streamIs s.regs.srcAddr.toNat (tree.bits.take tree.bits.length)) := by
  refine ⟨⟨by decide, by decide, by decide, fun a _ h => absurd h.2 (Nat.not_lt.2 h.1), by decide, ?_⟩,
    by decide, by decide, by decide, stream_apart, by decide, by decide, ?_⟩
  · rintro n (rfl | rfl) <;> refine ⟨by decide, by decide, ?_, by decide⟩ <;>
      · unfold State.streamIs
        decide +kernel
  · unfold State.streamIs
    decide +kernel

/-- H7's shape: the stream ends inside the tree, behind the `1` bit that asks for an id above HUF_MAX_ID. -/
theorem test_huf_cut_large :
    report 0 0 (exec .hufDecode cutLarge) = some ⟨false, true, .hufTree, 0, 4, 257, []⟩ := by
  decide +kernel

/-- Two runs that meet the hypotheses of HufErrorPoints: the input ends before the window is full, and an instance with no room
for an internal node. -/
theorem witness_HufErrorPoints :
    (let s := windows 0xFFC 4 0xF00 30 stream
     answers (exec .hufDecode s) = true ∧ (after (exec .hufDecode s)).status.err = true ∧
       (after (exec .hufDecode s)).errcode = .hufInput) ∧
    (let s : State := { stream with cfg := { bufSize := 0x1000, hufMaxId := 255 } }
     answers (exec .hufDecode s) = true ∧ (after (exec .hufDecode s)).status.err = true ∧
       (after (exec .hufDecode s)).errcode = .hufTree) := by
  decide +kernel

theorem witness_HufOverlapIsRefused :
    (let s := windows 0 8 7 1 base
     s.legalWindow s.regs.srcAddr s.regs.srcLen ∧ s.legalWindow s.regs.dstAddr s.regs.dstLen ∧
       inWindow s.regs.srcAddr s.regs.srcLen 7 ∧ inWindow s.regs.dstAddr s.regs.dstLen 7) ∧
    (∀ a, inWindow stream.regs.srcAddr stream.regs.srcLen a → ¬inWindow stream.regs.dstAddr stream.regs.dstLen a) ∧
    stream.errcode ≠ .overlap ∧ ∃ t, exec .nop stream = .next t :=
  ⟨by decide, stream_apart, by decide, _, exec_nop stream⟩

theorem witness_HufHiddenStateBounds :
    stream.cfg.wf = true ∧ stream.status.err = false ∧
      (∀ a, inWindow stream.regs.srcAddr stream.regs.srcLen a → ¬inWindow stream.regs.dstAddr stream.regs.dstLen a) ∧
      ∃ t, exec .hufDecode stream = .next t ∧ t.status.err = false :=
  ⟨by decide, by decide, stream_apart, _, next_after (by decide +kernel), by decide +kernel⟩

theorem witness_MemReadIsLittleEndian :
    ready.byteAt 0xFFC = some 0x32 ∧ ready.byteAt 0xFFD = some 0x54 ∧ ready.byteAt 0xFFE = some 0x76 ∧
      ready.byteAt 0xFFF = some 0x98 ∧ ready.byteAt 0xFFA = none := by decide +kernel

theorem witness_RegisterMapIsTable : (0x012 : Offset).toNat / 4 = (0x010 : Offset).toNat / 4 := by decide

/-- The hypotheses of the statements about a host access while idle. -/
theorem witness_idle_access :
    ready.busy = false ∧ plainReg (.secret 15) = true ∧ regAt 0x3FC = none ∧
      (∃ r, regAt 0x054 = some r ∧ readOnlyReg r = true) ∧ regAt 0x001 = some .cmd :=
  ⟨rfl, rfl, by decide, ⟨.res1, by decide, rfl⟩, by decide⟩

theorem witness_BusyWritesAreDropped :
    (accept 0x3A03 ready).busy = true ∧
    ∃ s t : State, step s = .next t ∧ s.status.wbusy = true ∧ ¬resetIsNext s ∧
      ∀ x ∈ s.pending.head?, ∀ o v, x.op = .regWrite o v → regAt o = some .status → s.busy = false →
        v.getLsbD 4 = false :=
  ⟨by decide, { ready with status := ⟨false, false, true, true⟩, pending := [⟨.regWrite 0x004 0xEF, false⟩] }, _, rfl, rfl,
    (by rintro ⟨t, h, h'⟩; cases h; rcases h' with h' | h' <;> cases h'), by intro x hx o v ho; cases hx; cases ho; decide⟩

theorem witness_BufferWriteStoresByte_BufferReadAnswersByte :
    (ready.busy = false ∧ (0xFFF : Word).toNat < ready.cfg.bufSize ∧ ready.byteAt (0xFFF : Word).toNat = some 0x98) ∧
    ready.cfg.bufSize ≤ (0x1000 : Word).toNat ∧ (accept 0x3A03 ready).busy = true ∧
    (0xFFA : Word).toNat < ready.cfg.bufSize ∧ ready.byteAt (0xFFA : Word).toNat = none := by decide +kernel

theorem witness_TableWindowShowsTable :
    (ready.busy = false ∧ ready.status.tblValid = true) ∧ base.status.tblValid = false ∧
      (accept 0x3A03 ready).busy = true := by decide

end Sys2Proof.Tests
end

section
/-! PROOF. The gate, the set and the clear of TBL_VALID (spec/10_state.md R33). The part that other statements can use: what
a whole command can change (`exec_ends`, `exec_subInit_ends`) and what a host event other than a reset leaves of STATUS. -/

namespace Sys2Proof.Machine

open Sys2Proof

/-! ### What a command changes before it ends -/

/-- `u` is `s` after work of the engine between accept and completion: only buffer RAM, the number of the next draw, and the
HUF and ENT state may differ. -/
def EngineWork (s u : State) : Prop := ∃ m d h e, u = (((s.setMem m).setDraws d).setHuf h).setEnt e

theorem EngineWork.refl (s : State) : EngineWork s s := ⟨s.mem, s.draws, s.huf, s.ent, rfl⟩

theorem EngineWork.trans {s u v : State} (h₁ : EngineWork s u) (h₂ : EngineWork u v) : EngineWork s v := by
  obtain ⟨m₁, d₁, x₁, e₁, rfl⟩ := h₁
  obtain ⟨m, d, x, e, rfl⟩ := h₂
  exact ⟨m, d, x, e, by simp⟩

theorem EngineWork.status_eq {s u : State} (h : EngineWork s u) : u.status = s.status := by
  obtain ⟨_, _, _, _, rfl⟩ := h
  rfl

theorem HufReads.engineWork {s u : State} (h : HufReads s u) : EngineWork s u := by
  obtain ⟨x, d, rfl⟩ := h.frame
  exact ⟨s.mem, d, x, s.ent, rfl⟩

theorem mapBytes_engineWork (f : Byte → Byte) (a n : Nat) (s : State) : EngineWork s (mapBytes f a n s) := by
  obtain ⟨m, d, heq, -⟩ := mapBytes_spec f a n s
  exact ⟨m, d, s.huf, s.ent, heq⟩

theorem entBody_engineWork (dir : Direction) (s : State) : EngineWork s (entBody dir s) := by
  obtain ⟨m, d, e, -, heq, -⟩ := entBody_spec dir s
  exact ⟨m, d, s.huf, e _, heq⟩

theorem decodeSymbols_engineWork (root n : Nat) (s : State) : EngineWork s (decodeSymbols root n s).final := by
  obtain ⟨m, d, h, heq, -⟩ := decodeSymbols_spec root n s
  exact ⟨m, d, h, s.ent, heq⟩

theorem hufStart_engineWork (s : State) : EngineWork s (hufStart s) := ⟨s.mem, s.draws, (hufStart s).huf, s.ent, rfl⟩

theorem hufBody_engineWork (s : State) : EngineWork s (hufBody s).final := by
  have htree : EngineWork s (parseTree (s.cfg.hufMaxId - 255) (hufStart s)).final :=
    (hufStart_engineWork s).trans (parseTree_reads _ _).engineWork
  rcases final_andThen (parseTree (s.cfg.hufMaxId - 255) (hufStart s))
      (fun root s => decodeSymbols root s.regs.dstLen.toNat s) with heq | ⟨root, -, heq⟩
  · rw [hufBody, heq]
    exact htree
  · rw [hufBody, heq]
    exact htree.trans (decodeSymbols_engineWork _ _ _)

/-! ### How a command ends -/

/-- `t` is `u` after a completion or an error (R181, R186). -/
def EndsCommand (u t : State) : Prop :=
  (∃ r0 r1, t = complete r0 r1 u) ∨ ∃ e r0 r1, t = raiseError e r0 r1 u

theorem complete_endsCommand (r0 r1 : Word) (u : State) : EndsCommand u (complete r0 r1 u) := .inl ⟨r0, r1, rfl⟩

theorem raiseError_endsCommand (e : ErrReport) (r0 r1 : Word) (u : State) : EndsCommand u (raiseError e r0 r1 u) :=
  .inr ⟨e, r0, r1, rfl⟩

theorem EndsCommand.tblValid_eq {u t : State} (h : EndsCommand u t) : t.status.tblValid = u.status.tblValid := by
  obtain ⟨_, _, rfl⟩ | ⟨_, _, _, rfl⟩ := h <;> rfl

theorem hufComplete_endsCommand (r : HufRun Unit) : EndsCommand r.final (hufComplete r) := by
  cases r with
  | value _ u => exact complete_endsCommand _ _ u
  | raised e u => exact raiseError_endsCommand _ _ _ u

theorem substitute_ends (f : Byte → Byte) (s : State) : ∃ u, EngineWork s u ∧ EndsCommand u (substitute f s) := by
  cases h : subChecks s with
  | some e => exact ⟨s, .refl s, substitute_of_error h ▸ raiseError_endsCommand e 0 0 s⟩
  | none => exact ⟨_, mapBytes_engineWork f _ _ s, substitute_of_checks h ▸ complete_endsCommand _ _ _⟩

theorem entCommand_ends (dir : Direction) (s : State) : ∃ u, EngineWork s u ∧ EndsCommand u (entCommand dir s) := by
  cases h : entChecks s with
  | some e => exact ⟨s, .refl s, entCommand_of_error h ▸ raiseError_endsCommand e 0 0 s⟩
  | none => exact ⟨_, entBody_engineWork dir s, entCommand_of_checks h ▸ complete_endsCommand _ _ _⟩

theorem execHufDecode_ends (s : State) :
    ∃ u t, execHufDecode s = .next t ∧ EngineWork s u ∧ EndsCommand u t := by
  cases h : hufChecks s with
  | some e => exact ⟨s, _, execHufDecode_of_error h, .refl s, raiseError_endsCommand e 0 0 s⟩
  | none => exact ⟨_, _, execHufDecode_of_checks h, hufBody_engineWork s, hufComplete_endsCommand _⟩

/-- All that a command other than SUB.INIT can do: work of the engine, then a completion or an error. -/
theorem exec_ends {i : Instr} (hi : i ≠ .subInit) (s : State) :
    ∃ u t, exec i s = .next t ∧ EngineWork s u ∧ EndsCommand u t := by
  cases i with
  | nop => exact ⟨s, _, exec_nop s, .refl s, complete_endsCommand 0 0 s⟩
  | hufDecode => exact execHufDecode_ends s
  | subInit => exact absurd rfl hi
  | subDecode k =>
    obtain ⟨u, hwork, hends⟩ := substitute_ends (subDecodeByte s.tbl k) s
    exact ⟨u, _, exec_subDecode k s, hwork, hends⟩
  | subEncode k =>
    obtain ⟨u, hwork, hends⟩ := substitute_ends (subEncodeByte s.tbl k) s
    exact ⟨u, _, exec_subEncode k s, hwork, hends⟩
  | entDecrypt =>
    obtain ⟨u, hwork, hends⟩ := entCommand_ends .decrypt s
    exact ⟨u, _, exec_entDecrypt s, hwork, hends⟩
  | entEncrypt =>
    obtain ⟨u, hwork, hends⟩ := entCommand_ends .encrypt s
    exact ⟨u, _, exec_entEncrypt s, hwork, hends⟩

/-- SUB.INIT stores a table, sets TBL_VALID and ends. -/
theorem exec_subInit_ends (s : State) :
    ∃ tbl t, exec .subInit s = .next t ∧ EndsCommand ((s.setTbl tbl).setStatus s.status.withTable) t :=
  ⟨_, _, execSubInit_eq s, complete_endsCommand _ _ _⟩

/-! ### TBL_VALID: set by SUB.INIT, kept by everything but a reset -/

theorem exec_subInit_tblValid (s : State) : ∃ t, exec .subInit s = .next t ∧ t.status.tblValid = true := by
  obtain ⟨tbl, t, heq, hends⟩ := exec_subInit_ends s
  exact ⟨t, heq, hends.tblValid_eq⟩

theorem exec_keeps_tblValid {i : Instr} {s t : State} (h : exec i s = .next t) (hv : s.status.tblValid = true) :
    t.status.tblValid = true := by
  by_cases hi : i = .subInit
  · subst hi
    obtain ⟨t', heq, hv'⟩ := exec_subInit_tblValid s
    obtain rfl : t' = t := Host.Outcome.next.inj (heq.symm.trans h)
    exact hv'
  · obtain ⟨u, t', heq, hwork, hends⟩ := exec_ends hi s
    obtain rfl : t' = t := Host.Outcome.next.inj (heq.symm.trans h)
    rw [hends.tblValid_eq, hwork.status_eq, hv]

theorem storeReg_tblValid (v : Word) (s : State) (r : PortReg) :
    (storeReg v s r).status.tblValid = s.status.tblValid := by
  obtain ⟨-, heq⟩ | ⟨x, st, heq, rfl | rfl⟩ := storeReg_frame v s r <;> rw [heq] <;> rfl

theorem writeReg_tblValid (o : Offset) (v : Word) (s : State) :
    (writeReg o v s).status.tblValid = s.status.tblValid := by
  unfold writeReg
  split
  · rfl
  · split
    · rfl
    · exact storeReg_tblValid v s _

theorem writeBuffer_tblValid (a : Word) (b : Byte) (s : State) :
    (writeBuffer a b s).status.tblValid = s.status.tblValid := by
  unfold writeBuffer
  split
  · rfl
  · split <;> rfl

/-- No host event but a reset touches TBL_VALID. -/
theorem hostEvent_tblValid {op : HostOp} (h : ¬(op = .resetInput ∨ op = .powerOn)) (s : State) :
    (hostEvent op s).status.tblValid = s.status.tblValid := by
  cases op with
  | regWrite o v => exact writeReg_tblValid o v s
  | regRead o =>
    obtain ⟨d, -, heq⟩ := hostEvent_regRead o s
    rw [heq]
    rfl
  | bufWrite a b => exact writeBuffer_tblValid a b s
  | bufRead a =>
    obtain ⟨d, -, heq⟩ := hostEvent_bufRead a s
    rw [heq]
    rfl
  | resetInput => exact absurd (.inl rfl) h
  | powerOn => exact absurd (.inr rfl) h

theorem step_keeps_tblValid {s t : State} (h : step s = .next t) (hv : s.status.tblValid = true)
    (hr : ¬resetIsNext s) : t.status.tblValid = true := by
  rcases step_cases s with ⟨_, i, -, -, -, hstep⟩ | ⟨_, _, -, -, -, hstep⟩ | ⟨x, rest, hp, -, hstep⟩ | ⟨-, -, hstep⟩
  · exact exec_keeps_tblValid (hstep.symm.trans h) hv
  · obtain rfl := Host.Outcome.next.inj (hstep.symm.trans h)
    exact (raiseError_endsCommand _ _ _ s).tblValid_eq.trans hv
  · obtain rfl := Host.Outcome.next.inj (hstep.symm.trans h)
    have hop : ¬(x.op = .resetInput ∨ x.op = .powerOn) := fun hx => hr ⟨x, by simp [hp], hx⟩
    exact (hostEvent_tblValid hop _).trans hv
  · obtain rfl := Host.Outcome.next.inj (hstep.symm.trans h)
    exact hv

/-! ### TBL_VALID = 0: the users of TBL report E_NOTABLE -/

theorem srcWindowError_of_legal {s : State} (h : s.legalWindow s.regs.srcAddr s.regs.srcLen) :
    srcWindowError s = none := if_pos (decide_eq_true h)

section
variable {s : State} (hw : s.legalWindow s.regs.srcAddr s.regs.srcLen) (hv : s.status.tblValid = false)
include hv

theorem tableError_of_noTable : tableError s = some (.noTable, 0) := if_neg (by simp [hv])

include hw

theorem subChecks_of_noTable : subChecks s = some (.noTable, 0) := by
  rw [subChecks, srcWindowError_of_legal hw, tableError_of_noTable hv]
  rfl

theorem entChecks_of_noTable : entChecks s = some (.noTable, 0) := by
  rw [entChecks, srcWindowError_of_legal hw, tableError_of_noTable hv]
  rfl

theorem substitute_of_noTable (f : Byte → Byte) : substitute f s = afterError .noTable 0 s :=
  substitute_of_error (subChecks_of_noTable hw hv)

theorem entCommand_of_noTable (dir : Direction) : entCommand dir s = afterError .noTable 0 s :=
  entCommand_of_error (entChecks_of_noTable hw hv)

end

/-- Settles O17: the gate is the check order of R185, and only a reset clears TBL_VALID because every other step keeps it. -/
theorem tableValidGatesTable : Obligations.TableValidGatesTable := by
  unfold Obligations.TableValidGatesTable
  refine ⟨fun s k hw hv => ⟨?_, ?_, ?_, ?_⟩, exec_subInit_tblValid, fun _ _ => step_keeps_tblValid⟩
  · rw [exec_subDecode, substitute_of_noTable hw hv]
  · rw [exec_subEncode, substitute_of_noTable hw hv]
  · rw [exec_entDecrypt, entCommand_of_noTable hw hv]
  · rw [exec_entEncrypt, entCommand_of_noTable hw hv]

end Sys2Proof.Machine
end

section
/-! PROOF. The operand windows: E_RANGE (spec/20_memory.md R45) and E_OVERLAP (R58). The part that other statements can use:
the checks of each command as one list (`acceptChecks`), what a failed check does (`exec_of_acceptError`), what a command that
passed them can report (`exec_errcode_of_accepted`), and from these every report of every command (`exec_errcode_cases`). -/

namespace Sys2Proof.Machine

open Sys2Proof

/-! ### The checks at accept, command by command (R185) -/

/-- The checks that a command makes at accept, in the order of R185. -/
def acceptChecks : Instr → State → List (Option ErrReport)
  | .nop, _ | .subInit, _ => []
  | .hufDecode, s => [srcWindowError s, dstWindowError s, overlapError s]
  | .subDecode _, s | .subEncode _, s => [srcWindowError s, tableError s]
  | .entDecrypt, s | .entEncrypt, s => [srcWindowError s, tableError s, keyPosError s]

/-- A command whose checks fail reports the first error among them and does nothing else. -/
theorem exec_of_acceptError {i : Instr} {s : State} {e : ErrReport} (h : firstError (acceptChecks i s) = some e) :
    exec i s = .next (afterError e.1 e.2 s) := by
  cases i with
  | nop | subInit => cases h
  | hufDecode => exact execHufDecode_of_error h
  | subDecode k => exact congrArg _ (substitute_of_error h)
  | subEncode k => exact congrArg _ (substitute_of_error h)
  | entDecrypt => exact congrArg _ (entCommand_of_error h)
  | entEncrypt => exact congrArg _ (entCommand_of_error h)

/-- The error that R185 reports is one of the checks. -/
theorem mem_of_firstError {l : List (Option ErrReport)} {e : ErrReport} (h : firstError l = some e) : some e ∈ l := by
  induction l with
  | nil => cases h
  | cons x l ih =>
    cases x with
    | some y => exact List.mem_cons.2 (.inl h.symm)
    | none => exact List.mem_cons_of_mem _ (ih h)

theorem srcWindowError_eq_some {s : State} {e : ErrReport} :
    srcWindowError s = some e ↔ ¬s.legalWindow s.regs.srcAddr s.regs.srcLen ∧ e = (.range, 0) := by
  simp [srcWindowError, windowLegal, eq_comm (a := e)]

theorem dstWindowError_eq_some {s : State} {e : ErrReport} :
    dstWindowError s = some e ↔ ¬s.legalWindow s.regs.dstAddr s.regs.dstLen ∧ e = (.range, 1) := by
  simp [dstWindowError, windowLegal, eq_comm (a := e)]

theorem dstWindowError_of_legal {s : State} (h : s.legalWindow s.regs.dstAddr s.regs.dstLen) :
    dstWindowError s = none := if_pos (decide_eq_true h)

theorem overlapError_eq_some {s : State} {e : ErrReport} :
    overlapError s = some e ↔
      windowsOverlap s.regs.srcAddr s.regs.srcLen s.regs.dstAddr s.regs.dstLen = true ∧ e = (.overlap, 0) := by
  simp [overlapError, eq_comm (a := e)]

theorem tableError_eq_some {s : State} {e : ErrReport} :
    tableError s = some e ↔ s.status.tblValid = false ∧ e = (.noTable, 0) := by
  simp [tableError, eq_comm (a := e)]

theorem keyPosError_eq_some {s : State} {e : ErrReport} :
    keyPosError s = some e ↔ 15 < s.regs.entryKeyPos.toNat ∧ e = (.cfg, s.regs.entryKeyPos) := by
  simp [keyPosError, eq_comm (a := e)]

/-- R184, R185: what a failed check says of the state and of the command, and what it reports. -/
theorem acceptChecks_cases {i : Instr} {s : State} {e : ErrReport} (h : some e ∈ acceptChecks i s) :
    (¬s.legalWindow s.regs.srcAddr s.regs.srcLen ∧ e = (.range, 0)) ∨
    (i = .hufDecode ∧ ¬s.legalWindow s.regs.dstAddr s.regs.dstLen ∧ e = (.range, 1)) ∨
    (i = .hufDecode ∧ windowsOverlap s.regs.srcAddr s.regs.srcLen s.regs.dstAddr s.regs.dstLen = true ∧
      e = (.overlap, 0)) ∨
    (s.status.tblValid = false ∧ e = (.noTable, 0)) ∨
    (15 < s.regs.entryKeyPos.toNat ∧ e = (.cfg, s.regs.entryKeyPos)) := by
  rw [← srcWindowError_eq_some, ← dstWindowError_eq_some, ← overlapError_eq_some, ← tableError_eq_some,
    ← keyPosError_eq_some]
  cases i <;> simp only [acceptChecks, List.mem_cons, List.not_mem_nil, or_false, eq_comm (a := some e)] at h
  case hufDecode => exact h.imp_right fun h => h.imp (⟨rfl, ·⟩) fun h => .inl ⟨rfl, h⟩
  case subDecode | subEncode => exact h.imp_right fun h => .inr (.inr (.inl h))
  case entDecrypt | entEncrypt => exact h.imp_right fun h => .inr (.inr h)

/-! ### The errors that HUF.DECODE raises after its checks (R104) -/

theorem raised_of_andThen {α β : Type} {r : HufRun α} {f : α → State → HufRun β} {e : ErrCode} {t : State}
    (h : r.andThen f = .raised e t) : r = .raised e t ∨ ∃ a u, r = .value a u ∧ f a u = .raised e t := by
  cases r with
  | value a u => exact .inr ⟨a, u, rfl, h⟩
  | raised e' u =>
    cases h
    exact .inl rfl

theorem parseTree_raised {room : Nat} {s t : State} {e : ErrCode} (h : parseTree room s = .raised e t) :
    e = .hufTree ∨ e = .hufInput := by
  induction room generalizing s t e with
  | zero =>
    rw [parseTree_zero] at h
    obtain h | ⟨bit, u, -, h⟩ := raised_of_andThen h
    · exact .inr (getBitsFrom_raised h)
    · split at h
      · cases h
        exact .inl rfl
      · exact .inr (getBitsFrom_raised h)
  | succ room ih =>
    rw [parseTree_succ] at h
    obtain h | ⟨bit, u, -, h⟩ := raised_of_andThen h
    · exact .inr (getBitsFrom_raised h)
    · split at h
      · split at h
        · cases h
          exact .inl rfl
        · obtain h | ⟨l, v, -, h⟩ := raised_of_andThen h
          · exact ih h
          · obtain h | ⟨r, w, -, h⟩ := raised_of_andThen h
            · exact ih h
            · cases h
      · exact .inr (getBitsFrom_raised h)

theorem decodeSymbols_raised {root n : Nat} {s t : State} {e : ErrCode} (h : decodeSymbols root n s = .raised e t) :
    e = .hufInput := by
  induction n generalizing s with
  | zero => cases h
  | succ n ih =>
    rw [decodeSymbols_succ] at h
    obtain h | ⟨sym, u, -, h⟩ := raised_of_andThen h
    · exact descend_raised h
    · exact ih h

theorem hufBody_raised {s t : State} {e : ErrCode} (h : hufBody s = .raised e t) : e = .hufTree ∨ e = .hufInput := by
  obtain h | ⟨root, u, -, h⟩ := raised_of_andThen h
  · exact parseTree_raised h
  · exact .inr (decodeSymbols_raised h)

theorem EngineWork.errcode_eq {s u : State} (h : EngineWork s u) : u.errcode = s.errcode := by
  obtain ⟨_, _, _, _, rfl⟩ := h
  rfl

theorem hufComplete_errcode (s : State) :
    (hufComplete (hufBody s)).errcode = s.errcode ∨ (hufComplete (hufBody s)).errcode = .hufTree ∨
      (hufComplete (hufBody s)).errcode = .hufInput := by
  have hwork := hufBody_engineWork s
  cases h : hufBody s with
  | value a u =>
    rw [h] at hwork
    exact .inl hwork.errcode_eq
  | raised e u => exact .inr (hufBody_raised h)

/-! ### Every report of every command -/

theorem complete_done (r0 r1 : Word) (u : State) : (complete r0 r1 u).status.done = true := rfl

theorem complete_errcode (r0 r1 : Word) (u : State) : (complete r0 r1 u).errcode = u.errcode := rfl

/-- SUB.INIT has no check to fail: it always completes without error. -/
theorem exec_subInit_completes (s : State) :
    ∃ t, exec .subInit s = .next t ∧ t.status.done = true ∧ t.errcode = s.errcode := by
  refine ⟨_, execSubInit_eq s, complete_done _ _ _, ?_⟩
  rw [complete_errcode, setStatus_errcode, setTbl_errcode]

/-- After its checks a command other than HUF.DECODE leaves ERRCODE as accept made it; HUF.DECODE may raise its two run-time
errors. -/
theorem exec_errcode_of_accepted {i : Instr} {s t : State} (hc : firstError (acceptChecks i s) = none)
    (h : exec i s = .next t) :
    t.errcode = s.errcode ∨ i = .hufDecode ∧ (t.errcode = .hufTree ∨ t.errcode = .hufInput) := by
  cases i with
  | nop =>
    obtain rfl := Host.Outcome.next.inj ((exec_nop s).symm.trans h)
    exact .inl rfl
  | subInit =>
    obtain ⟨u, heq, -, herr⟩ := exec_subInit_completes s
    obtain rfl := Host.Outcome.next.inj (heq.symm.trans h)
    exact .inl herr
  | hufDecode =>
    obtain rfl := Host.Outcome.next.inj ((execHufDecode_of_checks hc).symm.trans h)
    exact (hufComplete_errcode s).imp_right (⟨rfl, ·⟩)
  | subDecode k =>
    obtain rfl := Host.Outcome.next.inj ((exec_subDecode k s).symm.trans h)
    rw [substitute_of_checks hc]
    exact .inl (mapBytes_engineWork _ _ _ s).errcode_eq
  | subEncode k =>
    obtain rfl := Host.Outcome.next.inj ((exec_subEncode k s).symm.trans h)
    rw [substitute_of_checks hc]
    exact .inl (mapBytes_engineWork _ _ _ s).errcode_eq
  | entDecrypt =>
    obtain rfl := Host.Outcome.next.inj ((exec_entDecrypt s).symm.trans h)
    rw [entCommand_of_checks hc]
    exact .inl (entBody_engineWork _ s).errcode_eq
  | entEncrypt =>
    obtain rfl := Host.Outcome.next.inj ((exec_entEncrypt s).symm.trans h)
    rw [entCommand_of_checks hc]
    exact .inl (entBody_engineWork _ s).errcode_eq

/-- ERRCODE after a command: what it was, a run-time error of HUF.DECODE, or the code of a check that failed. -/
theorem exec_errcode_cases {i : Instr} {s t : State} (h : exec i s = .next t) :
    t.errcode = s.errcode ∨ (t.errcode = .hufTree ∨ t.errcode = .hufInput) ∨
      ∃ e, some e ∈ acceptChecks i s ∧ t.errcode = e.1 := by
  cases hc : firstError (acceptChecks i s) with
  | some e =>
    obtain rfl := Host.Outcome.next.inj ((exec_of_acceptError hc).symm.trans h)
    exact .inr (.inr ⟨e, mem_of_firstError hc, rfl⟩)
  | none => exact (exec_errcode_of_accepted hc h).imp_right fun ⟨_, hrun⟩ => .inl hrun

/-- A code that only a check reports stands after a command because it stood before or because such a check failed. -/
theorem exec_reports_check {i : Instr} {s t : State} (h : exec i s = .next t) (hs : s.errcode ≠ t.errcode)
    (htree : t.errcode ≠ .hufTree) (hinput : t.errcode ≠ .hufInput) :
    ∃ e, some e ∈ acceptChecks i s ∧ e.1 = t.errcode := by
  obtain heq | (heq | heq) | ⟨e, hmem, heq⟩ := exec_errcode_cases h
  · exact absurd heq.symm hs
  · exact absurd heq htree
  · exact absurd heq hinput
  · exact ⟨e, hmem, heq.symm⟩

/-! ### E_RANGE -/

/-- R185: the SRC window is the first check of every command that uses one. -/
theorem exec_of_illegalSrc {i : Instr} {s : State} (hnop : i ≠ .nop) (hinit : i ≠ .subInit)
    (hw : ¬s.legalWindow s.regs.srcAddr s.regs.srcLen) : exec i s = .next (afterError .range 0 s) := by
  have hsrc : srcWindowError s = some (.range, 0) := srcWindowError_eq_some.2 ⟨hw, rfl⟩
  refine exec_of_acceptError (e := (.range, 0)) ?_
  cases i with
  | nop => exact absurd rfl hnop
  | subInit => exact absurd rfl hinit
  | hufDecode | subDecode | subEncode | entDecrypt | entEncrypt =>
    rw [acceptChecks, hsrc]
    rfl

theorem exec_hufDecode_of_illegalDst {s : State} (hsrc : s.legalWindow s.regs.srcAddr s.regs.srcLen)
    (hdst : ¬s.legalWindow s.regs.dstAddr s.regs.dstLen) : exec .hufDecode s = .next (afterError .range 1 s) := by
  refine exec_of_acceptError (e := (.range, 1)) ?_
  rw [acceptChecks, srcWindowError_of_legal hsrc, dstWindowError_eq_some.2 ⟨hdst, rfl⟩]
  rfl

theorem exec_errcode_ne_range {i : Instr} {s t : State} (hsrc : s.legalWindow s.regs.srcAddr s.regs.srcLen)
    (hdst : i = .hufDecode → s.legalWindow s.regs.dstAddr s.regs.dstLen) (hs : s.errcode ≠ .range)
    (h : exec i s = .next t) : t.errcode ≠ .range := by
  intro ht
  obtain ⟨e, hmem, he⟩ := exec_reports_check h (ht ▸ hs) (by simp [ht]) (by simp [ht])
  obtain ⟨hw, -⟩ | ⟨hi, hw, -⟩ | ⟨-, -, rfl⟩ | ⟨-, rfl⟩ | ⟨-, rfl⟩ := acceptChecks_cases hmem
  · exact hw hsrc
  · exact hw (hdst hi)
  all_goals cases he.trans ht

/-- Settles O19: the windows are the first checks of R185, and no other check and no later part of a command reports
E_RANGE. -/
theorem illegalWindowRaisesRange : Obligations.IllegalWindowRaisesRange := by
  unfold Obligations.IllegalWindowRaisesRange
  refine ⟨fun s k hw => ?_, fun s => exec_hufDecode_of_illegalDst, fun i s t => exec_errcode_ne_range,
    fun s => ⟨⟨_, exec_nop s, complete_done _ _ _, complete_errcode _ _ _⟩, exec_subInit_completes s⟩⟩
  exact ⟨exec_of_illegalSrc nofun nofun hw, exec_of_illegalSrc nofun nofun hw, exec_of_illegalSrc nofun nofun hw,
    exec_of_illegalSrc nofun nofun hw, exec_of_illegalSrc nofun nofun hw⟩

/-! ### E_OVERLAP -/

/-- R58: the two inequalities hold of non-empty windows exactly where an address lies in both. -/
theorem windowsOverlap_iff {srcA srcL dstA dstL : Word} :
    windowsOverlap srcA srcL dstA dstL = true ↔ ∃ a, inWindow srcA srcL a ∧ inWindow dstA dstL a := by
  simp only [windowsOverlap, Bool.and_eq_true, decide_eq_true_eq]
  constructor
  · rintro ⟨⟨⟨hsrc, hdst⟩, hlt⟩, hlt'⟩
    exact ⟨max srcA.toNat dstA.toNat, by omega, by omega⟩
  · rintro ⟨a, ⟨hsrc, hsrc'⟩, hdst, hdst'⟩
    omega

theorem exec_hufDecode_of_overlap {s : State} (hsrc : s.legalWindow s.regs.srcAddr s.regs.srcLen)
    (hdst : s.legalWindow s.regs.dstAddr s.regs.dstLen)
    (hshared : ∃ a, inWindow s.regs.srcAddr s.regs.srcLen a ∧ inWindow s.regs.dstAddr s.regs.dstLen a) :
    exec .hufDecode s = .next (afterError .overlap 0 s) := by
  refine exec_of_acceptError (e := (.overlap, 0)) ?_
  rw [acceptChecks, srcWindowError_of_legal hsrc, dstWindowError_of_legal hdst,
    overlapError_eq_some.2 ⟨windowsOverlap_iff.2 hshared, rfl⟩]
  rfl

theorem exec_errcode_ne_overlap {i : Instr} {s t : State}
    (hapart : i = .hufDecode →
      ∀ a, inWindow s.regs.srcAddr s.regs.srcLen a → ¬inWindow s.regs.dstAddr s.regs.dstLen a)
    (hs : s.errcode ≠ .overlap) (h : exec i s = .next t) : t.errcode ≠ .overlap := by
  intro ht
  obtain ⟨e, hmem, he⟩ := exec_reports_check h (ht ▸ hs) (by simp [ht]) (by simp [ht])
  obtain ⟨-, rfl⟩ | ⟨-, -, rfl⟩ | ⟨hi, hover, -⟩ | ⟨-, rfl⟩ | ⟨-, rfl⟩ := acceptChecks_cases hmem
  case inr.inr.inl =>
    obtain ⟨a, hsrc, hdst⟩ := windowsOverlap_iff.1 hover
    exact hapart hi a hsrc hdst
  all_goals cases he.trans ht

/-- Settles O34: behind two legal windows the overlap is the one check left, and no other check and no later part of a command
reports E_OVERLAP. -/
theorem hufOverlapIsRefused : Obligations.HufOverlapIsRefused := by
  unfold Obligations.HufOverlapIsRefused
  refine ⟨fun s hsrc hdst => ⟨exec_hufDecode_of_overlap hsrc hdst, fun hapart => ?_⟩,
    fun i s t hi => exec_errcode_ne_overlap (absurd · hi)⟩
  obtain ⟨-, t, h, -, -⟩ := exec_ends (i := .hufDecode) nofun s
  exact ⟨t, h, fun hs => exec_errcode_ne_overlap (fun _ => hapart) hs h⟩

end Sys2Proof.Machine
end

section
/-! PROOF. The command word (spec/30_encoding.md R60 to R65): decoder and encoder agree, the mask and match columns select
what the decoder accepts, and an illegal word is refused. The part that other statements can use: all that the decoder can
answer (`decode_cases`), the words that a command decodes from (`decode_eq_ok_iff`), the words that a row selects
(`rowSelects_iff`), the illegal words (`decode_eq_error_iff`), and the engine's move while the host waits
(`nextMove_of_hostWaits`). -/

namespace Sys2Proof

/-! ### The three fields of a word (R60) -/

@[simp] theorem opField_packCommand (rsv : BitVec 16) (imm op : Byte) : opField (packCommand rsv imm op) = op :=
  BitVec.extractLsb'_append_eq_right

@[simp] theorem immField_packCommand (rsv : BitVec 16) (imm op : Byte) : immField (packCommand rsv imm op) = imm := by
  rw [immField, packCommand, BitVec.extractLsb'_append_eq_of_le (by decide)]
  exact BitVec.extractLsb'_append_eq_right

@[simp] theorem rsvField_packCommand (rsv : BitVec 16) (imm op : Byte) : rsvField (packCommand rsv imm op) = rsv := by
  rw [rsvField, packCommand, BitVec.extractLsb'_append_eq_of_le (by decide)]
  exact BitVec.extractLsb'_append_eq_left

/-- A word is its three fields. -/
theorem packCommand_fields (w : Word) : packCommand (rsvField w) (immField w) (opField w) = w := by
  have hupper : rsvField w ++ immField w = w.extractLsb' 8 24 :=
    BitVec.extractLsb'_append_extractLsb'_eq_extractLsb' (start₁ := 8) (len₁ := 8) rfl
  have hword : w.extractLsb' 8 24 ++ opField w = w.extractLsb' 0 32 :=
    BitVec.extractLsb'_append_extractLsb'_eq_extractLsb' (start₁ := 0) (len₁ := 8) rfl
  calc packCommand (rsvField w) (immField w) (opField w)
      = w.extractLsb' 8 24 ++ opField w := congrArg (· ++ opField w) hupper
    _ = w.extractLsb' 0 32 := hword
    _ = w := BitVec.extractLsb'_eq_self

theorem packCommand_and (rsv rsv' : BitVec 16) (imm imm' op op' : Byte) :
    packCommand rsv imm op &&& packCommand rsv' imm' op' = packCommand (rsv &&& rsv') (imm &&& imm') (op &&& op') :=
  BitVec.and_append.trans (congrArg (· ++ (op &&& op')) BitVec.and_append)

/-- Eight bits of a word, taken by a shift and a mask. -/
theorem shiftRight_and_byte (w : Word) (n : Nat) : (w >>> n) &&& 0xFF = (w.extractLsb' n 8).setWidth 32 := by
  apply BitVec.eq_of_toNat_eq
  rw [BitVec.toNat_and, BitVec.toNat_ushiftRight, BitVec.toNat_setWidth_of_le (by decide), BitVec.extractLsb'_toNat]
  exact Nat.and_two_pow_sub_one_eq_mod _ 8

theorem setWidth_word_eq_zero_iff {n : Nat} (hn : n ≤ 32) {x : BitVec n} : x.setWidth 32 = 0 ↔ x = 0 := by
  simp [← BitVec.toNat_inj, BitVec.toNat_setWidth_of_le hn]

/-- OP by the mask of R64. -/
theorem toNat_and_byte (w : Word) : (w &&& 0xFF).toNat = (opField w).toNat :=
  (congrArg BitVec.toNat (shiftRight_and_byte w 0)).trans (BitVec.toNat_setWidth_of_le (by decide))

/-- IMM8 by the shift and the mask of R64. -/
theorem shiftRight_and_byte_eq_zero_iff {w : Word} : (w >>> 8) &&& 0xFF = 0 ↔ immField w = 0 := by
  rw [shiftRight_and_byte]
  exact setWidth_word_eq_zero_iff (by decide)

/-- RSV by the shift of R64. -/
theorem shiftRight_eq_zero_iff {w : Word} : w >>> 16 = 0 ↔ rsvField w = 0 := by
  have hfield : w >>> 16 = (rsvField w).setWidth 32 := by
    apply BitVec.eq_of_toNat_eq
    rw [BitVec.toNat_ushiftRight, BitVec.toNat_setWidth_of_le (by decide), rsvField, BitVec.extractLsb'_toNat,
      Nat.mod_eq_of_lt (by simp; omega)]
  rw [hfield]
  exact setWidth_word_eq_zero_iff (by decide)

/-! ### The decoder (R64, R65) -/

/-- The OPs of format C8. -/
theorem decodeC8_eq_none_iff {op k : Byte} : decodeC8 op k = none ↔ op.toNat ≠ 3 ∧ op.toNat ≠ 4 := by
  unfold decodeC8
  split
  case h_3 h3 h4 => exact iff_of_true rfl ⟨h3, h4⟩
  all_goals
    next hop => simp [hop]

/-- The OPs of format C0 are the rest of 0x00 .. 0x06. -/
theorem decodeC0_eq_none_iff {op : Byte} : decodeC0 op = none ↔ op.toNat = 3 ∨ op.toNat = 4 ∨ 7 ≤ op.toNat := by
  unfold decodeC0
  split
  case h_6 =>
    refine iff_of_true rfl ?_
    simp only [imp_false] at *
    omega
  all_goals
    next hop => simp [hop]

theorem encode_of_decodeC8 {op k : Byte} {i : Instr} (h : decodeC8 op k = some i) : encode i = packCommand 0 k op := by
  unfold decodeC8 at h
  split at h <;> cases h
  all_goals
    next hop => exact congrArg (packCommand 0 k) (BitVec.eq_of_toNat_eq hop.symm)

theorem encode_of_decodeC0 {op : Byte} {i : Instr} (h : decodeC0 op = some i) : encode i = packCommand 0 0 op := by
  unfold decodeC0 at h
  split at h <;> cases h
  all_goals
    next hop => exact congrArg (packCommand 0 0) (BitVec.eq_of_toNat_eq hop.symm)

/-- All that the decoder can answer: a command, whose word it is, or one of the three refusals of R64. -/
theorem decode_cases (w : Word) :
    (∃ i, decode w = .ok i ∧ encode i = w) ∨
    (decode w = .error .reservedNotZero ∧ rsvField w ≠ 0) ∨
    (decode w = .error .unknownOp ∧ 7 ≤ (opField w).toNat) ∨
    (decode w = .error .immNotZero ∧ immField w ≠ 0 ∧ (opField w).toNat ≠ 3 ∧ (opField w).toNat ≠ 4) := by
  by_cases hrsv : rsvField w = 0
  case neg => exact .inr (.inl ⟨by rw [decode, if_pos hrsv], hrsv⟩)
  have hlegal : ¬rsvField w ≠ 0 := not_not.2 hrsv
  have hw : packCommand 0 (immField w) (opField w) = w := hrsv ▸ packCommand_fields w
  cases h8 : decodeC8 (opField w) (immField w) with
  | some i => exact .inl ⟨i, by rw [decode, if_neg hlegal, h8], (encode_of_decodeC8 h8).trans hw⟩
  | none =>
    obtain ⟨h3, h4⟩ := decodeC8_eq_none_iff.1 h8
    cases h0 : decodeC0 (opField w) with
    | none =>
      have hop : 7 ≤ (opField w).toNat := by
        have := decodeC0_eq_none_iff.1 h0
        omega
      exact .inr (.inr (.inl ⟨by rw [decode, if_neg hlegal, h8, h0], hop⟩))
    | some i =>
      have hdecode : decode w = if immField w = 0 then .ok i else .error .immNotZero := by
        rw [decode, if_neg hlegal, h8, h0]
      by_cases himm : immField w = 0
      · exact .inl ⟨i, hdecode.trans (if_pos himm), (encode_of_decodeC0 h0).trans (himm ▸ hw)⟩
      · exact .inr (.inr (.inr ⟨hdecode.trans (if_neg himm), himm, h3, h4⟩))

/-- R63: the decoder reads every command back from its word. -/
theorem decode_encode (i : Instr) : decode (encode i) = .ok i := by
  cases i <;> simp [decode, encode, decodeC8, decodeC0]

/-- A command decodes from its own word and from no other. -/
theorem decode_eq_ok_iff {w : Word} {i : Instr} : decode w = .ok i ↔ encode i = w := by
  constructor
  · intro h
    obtain ⟨j, hj, hw⟩ | ⟨he, -⟩ | ⟨he, -⟩ | ⟨he, -⟩ := decode_cases w
    · obtain rfl := Except.ok.inj (hj.symm.trans h)
      exact hw
    all_goals cases he.symm.trans h
  · rintro rfl
    exact decode_encode i

/-! ### The mask and match columns (R63) -/

/-- The command of the same row of R63 with `k` for IMM8, where its format has one (R61). -/
def Instr.withImm (k : Byte) : Instr → Instr
  | .subDecode _ => .subDecode k
  | .subEncode _ => .subEncode k
  | i => i

theorem rowMatch_withImm (k : Byte) (i : Instr) : rowMatch (i.withImm k) = rowMatch i := by cases i <;> rfl

theorem rowMask_withImm (k : Byte) (i : Instr) : rowMask (i.withImm k) = rowMask i := by cases i <;> rfl

/-- The word of every command is selected by the row of that command. -/
theorem rowSelects_encode (i : Instr) : encode i &&& rowMask i = rowMatch i := by
  cases i with
  | nop => exact Laws.RowSelected.nop
  | hufDecode => exact Laws.RowSelected.hufDecode
  | subInit => exact Laws.RowSelected.subInit
  | subDecode k => exact Laws.RowSelected.subDecode k
  | subEncode k => exact Laws.RowSelected.subEncode k
  | entDecrypt => exact Laws.RowSelected.entDecrypt
  | entEncrypt => exact Laws.RowSelected.entEncrypt

/-- The mask of format C8 fixes RSV and OP and leaves IMM8 free. -/
theorem eq_packCommand_of_maskC8 {w : Word} {op : Byte} (h : w &&& 0xFFFF00FF = packCommand 0 0 op) :
    packCommand 0 (immField w) op = w := by
  have hmasked : w &&& 0xFFFF00FF = packCommand (rsvField w) 0 (opField w) := by
    calc w &&& 0xFFFF00FF
        = packCommand (rsvField w) (immField w) (opField w) &&& packCommand 0xFFFF 0 0xFF :=
          congrArg (· &&& _) (packCommand_fields w).symm
      _ = packCommand (rsvField w) 0 (opField w) := by
          rw [packCommand_and]
          exact congr (congr (congrArg packCommand BitVec.and_allOnes) BitVec.and_zero) BitVec.and_allOnes
  have hrsv : rsvField w = 0 := by simpa using congrArg rsvField (hmasked.symm.trans h)
  have hop : opField w = op := by simpa using congrArg opField (hmasked.symm.trans h)
  rw [← hrsv, ← hop, packCommand_fields]

/-- A row selects exactly the words of its commands; the command is the row's with the word's own IMM8. -/
theorem rowSelects_iff {w : Word} {j : Instr} :
    w &&& rowMask j = rowMatch j ↔ encode (j.withImm (immField w)) = w := by
  constructor
  · intro h
    cases j with
    | subDecode | subEncode => exact eq_packCommand_of_maskC8 h
    | nop | hufDecode | subInit | entDecrypt | entEncrypt => exact h.symm.trans BitVec.and_allOnes
  · intro h
    have hsel := rowSelects_encode (j.withImm (immField w))
    rwa [h, rowMask_withImm, rowMatch_withImm] at hsel

/-- Settles O1: a command and its word determine each other, and a row selects the words of its own commands. -/
theorem decodeAgreesWithEncodeAndTable : Obligations.DecodeAgreesWithEncodeAndTable := by
  unfold Obligations.DecodeAgreesWithEncodeAndTable
  refine ⟨decode_encode, fun w i h => ?_, fun w j h => ?_⟩
  · obtain rfl := decode_eq_ok_iff.1 h
    exact ⟨rfl, rowSelects_encode i⟩
  · exact ⟨j.withImm (immField w), decode_eq_ok_iff.2 (rowSelects_iff.1 h), rowMatch_withImm _ j⟩

/-! ### The illegal words (R64) -/

/-- The word of a command is none of the three cases of R64. -/
theorem encode_legal (i : Instr) :
    rsvField (encode i) = 0 ∧ (opField (encode i)).toNat < 7 ∧
      (immField (encode i) = 0 ∨ (opField (encode i)).toNat = 3 ∨ (opField (encode i)).toNat = 4) := by
  cases i <;> simp [encode]

/-- R64: a word is illegal exactly where OP is in 0x07 .. 0xFF, RSV is not 0, or IMM8 is not 0 on an OP of format C0. -/
theorem decode_eq_error_iff {w : Word} :
    (∃ r, decode w = .error r) ↔
      7 ≤ (opField w).toNat ∨ rsvField w ≠ 0 ∨
        (immField w ≠ 0 ∧ (opField w).toNat ≠ 3 ∧ (opField w).toNat ≠ 4) := by
  obtain ⟨i, hok, rfl⟩ | ⟨he, hrsv⟩ | ⟨he, hop⟩ | ⟨he, himm⟩ := decode_cases w
  · obtain ⟨hrsv, hop, himm⟩ := encode_legal i
    simp only [hok, reduceCtorEq, exists_false, false_iff]
    rintro (hop' | hrsv' | ⟨himm', h3, h4⟩)
    · omega
    · exact hrsv' hrsv
    · obtain himm | h | h := himm
      exacts [himm' himm, h3 h, h4 h]
  · exact iff_of_true ⟨_, he⟩ (.inr (.inl hrsv))
  · exact iff_of_true ⟨_, he⟩ (.inl hop)
  · exact iff_of_true ⟨_, he⟩ (.inr (.inr himm))

end Sys2Proof

namespace Sys2Proof.Machine

open Sys2Proof

/-- The engine moves while a command runs and the host waits. -/
theorem nextMove_of_hostWaits {s : State} {w : Word} (hrun : s.running = some w) (hwait : hostWaits s) :
    nextMove s = .engine w := by
  obtain ⟨v, hv, hmove, -⟩ | ⟨t, rest, hpend, -, hidle | hearly⟩ | ⟨hidle, -⟩ := nextMove_cases s
  · rw [hmove, Option.some.inj (hv.symm.trans hrun)]
  · cases hidle.symm.trans hrun
  · exact absurd hearly (by simp [hwait t (by simp [hpend])])
  · cases hidle.symm.trans hrun

/-- A latched illegal word is reported as E_BADCMD and does nothing else (R64, R185 (1)). -/
theorem step_of_illegal {s : State} {w : Word} {r : Illegal} (hrun : s.running = some w) (hwait : hostWaits s)
    (hillegal : decode w = .error r) : step s = .next (afterError .badCmd w s) := by
  rw [step, nextMove_of_hostWaits hrun hwait]
  simp only [hillegal]
  rfl

/-- Settles O2: the fields of `decode_eq_error_iff` are R64's shifts and masks, and the step of an illegal word is
E_BADCMD. -/
theorem illegalWordRaisesBadCommand : Obligations.IllegalWordRaisesBadCommand := by
  unfold Obligations.IllegalWordRaisesBadCommand
  refine ⟨fun w => ?_, fun s w r => step_of_illegal⟩
  simp only [toNat_and_byte, ne_eq, shiftRight_and_byte_eq_zero_iff, shiftRight_eq_zero_iff]
  exact decode_eq_error_iff

end Sys2Proof.Machine
end

section
/-! PROOF. HUF.DECODE over a transmitted tree (spec/40_huffman.md R101 to R103). The part that other statements can use: the
reader in front of known stream bits (`StreamAhead`) and what each part of the command does there, namely a bit
(`getBit_ahead`), a field (`getBitsFrom_ahead`), a whole tree (`parseTree_ahead`), a code (`descend_ahead`) and a list of
symbols (`decodeSymbols_ahead`); and the node tables that a parsed tree leaves (`HufState.Holds`). -/

namespace Sys2Proof.Machine

open Sys2Proof

/-! ### The reader in front of known bits (R103) -/

/-- The bit reader is in its place, the stream goes on with `bits` up to bit `stop`, and the whole words that hold the
stream up to there lie inside the SRC window. -/
structure StreamAhead (s : State) (bits : List Bool) (stop : Nat) : Prop where
  reader : ReaderOk s
  stream : ∀ j (h : j < bits.length), s.streamBit s.regs.srcAddr.toNat (bitPos s + j) = some bits[j]
  pos : bitPos s + bits.length = stop
  inside : fetchedFor stop ≤ s.regs.srcLen.toNat

/-- A reader in its place has fetched exactly the whole words that hold the bits it has delivered. -/
theorem ReaderOk.fetched_eq {s : State} (h : ReaderOk s) : s.huf.fetched = fetchedFor (bitPos s) := by
  obtain ⟨hlt, hmod, hle, -, -⟩ := h
  unfold fetchedFor bitPos
  omega

theorem StreamAhead.fetched_eq {s : State} {stop : Nat} (h : StreamAhead s [] stop) :
    s.huf.fetched = fetchedFor stop :=
  h.reader.fetched_eq.trans (congrArg fetchedFor h.pos)

@[simp] theorem hufStart_regs (s : State) : (hufStart s).regs = s.regs := rfl

theorem hufStart_readerOk (s : State) : ReaderOk (hufStart s) :=
  ⟨Nat.zero_lt_succ 31, rfl, Nat.zero_le _, Nat.zero_le _, fun _ hi => absurd hi (Nat.not_lt_zero _)⟩

/-- A HUF.DECODE starts at the first bit of its stream. -/
theorem hufStart_ahead {s : State} {bits : List Bool} (hstream : s.streamIs s.regs.srcAddr.toNat bits)
    (hinside : fetchedFor bits.length ≤ s.regs.srcLen.toNat) : StreamAhead (hufStart s) bits bits.length := by
  have hpos : bitPos (hufStart s) = 0 := rfl
  refine ⟨hufStart_readerOk s, fun j hj => ?_, by omega, hinside⟩
  rw [hpos, Nat.zero_add]
  exact hstream j hj

/-- A stream bit inside the SRC window depends on the bytes of the window only. -/
theorem streamBit_congr {s t : State} (hregs : t.regs = s.regs)
    (hmem : ∀ a, inWindow s.regs.srcAddr s.regs.srcLen a → t.byteAt a = s.byteAt a) {j : Nat}
    (hj : j < 8 * s.regs.srcLen.toNat) :
    t.streamBit t.regs.srcAddr.toNat j = s.streamBit s.regs.srcAddr.toNat j := by
  rw [hregs, State.streamBit, State.streamBit, hmem _ ⟨by omega, by omega⟩]

/-- What the reader is in front of depends on its three fields and on the bytes of the SRC window only. -/
theorem StreamAhead.congr {s t : State} {bits : List Bool} {stop : Nat} (h : StreamAhead s bits stop)
    (hregs : t.regs = s.regs) (hcache : t.huf.cache = s.huf.cache) (hcached : t.huf.cached = s.huf.cached)
    (hfetched : t.huf.fetched = s.huf.fetched)
    (hmem : ∀ a, inWindow s.regs.srcAddr s.regs.srcLen a → t.byteAt a = s.byteAt a) : StreamAhead t bits stop := by
  obtain ⟨⟨hlt, hmod, hle, hsrc, hbits⟩, hstream, hpos, hinside⟩ := h
  have hposEq : bitPos t = bitPos s := by rw [bitPos, bitPos, hcached, hfetched]
  refine ⟨⟨hcached ▸ hlt, hfetched ▸ hmod, by omega, by rw [hfetched, hregs]; exact hsrc, fun i hi b hb => ?_⟩,
    fun j hj => ?_, hposEq ▸ hpos, hregs ▸ hinside⟩
  · have hcover : bitPos s + i < 8 * s.regs.srcLen.toNat := by
      unfold bitPos
      omega
    rw [hposEq, streamBit_congr hregs hmem hcover] at hb
    rw [hcache]
    exact hbits i (hcached ▸ hi) b hb
  · have hcover : bitPos s + j < 8 * s.regs.srcLen.toNat := by
      unfold fetchedFor at hinside
      omega
    rw [hposEq, streamBit_congr hregs hmem hcover]
    exact hstream j hj

/-- The counters, the parse stack and the node tables do not move the reader. -/
theorem StreamAhead.setHuf {s : State} {bits : List Bool} {stop : Nat} (h : StreamAhead s bits stop) {x : HufState}
    (hcache : x.cache = s.huf.cache) (hcached : x.cached = s.huf.cached) (hfetched : x.fetched = s.huf.fetched) :
    StreamAhead (s.setHuf x) bits stop :=
  h.congr rfl hcache hcached hfetched fun _ _ => rfl

/-- An output byte outside the SRC window does not move the reader. -/
theorem StreamAhead.emit {s : State} {bits : List Bool} {stop : Nat} (h : StreamAhead s bits stop) (sym : Nat)
    (hapart : ¬inWindow s.regs.srcAddr s.regs.srcLen (s.regs.dstAddr.toNat + s.huf.out)) :
    StreamAhead (emit sym s) bits stop :=
  h.congr rfl rfl rfl rfl fun _ ha => read?_write_other _ _ fun heq => hapart (heq ▸ ha)

/-! ### Reading known bits -/

/-- `t` is `s` after bits have been read: besides the number of the next draw only the cache and its counters differ. -/
structure ReadsBits (s t : State) : Prop where
  reads : HufReads s t
  kept : t.huf = { s.huf with cache := t.huf.cache, cached := t.huf.cached, fetched := t.huf.fetched }

theorem ReadsBits.refl (s : State) : ReadsBits s s := ⟨.refl s, rfl⟩

theorem ReadsBits.trans {s t u : State} (h : ReadsBits s t) (h' : ReadsBits t u) : ReadsBits s u :=
  ⟨h.reads.trans h'.reads, by rw [h'.kept, h.kept]⟩

theorem ReadsBits.nextId_eq {s t : State} (h : ReadsBits s t) : t.huf.nextId = s.huf.nextId := by rw [h.kept]

theorem ReadsBits.left_eq {s t : State} (h : ReadsBits s t) (v : Nat) : t.huf.left v = s.huf.left v := by
  rw [h.kept]
  rfl

theorem ReadsBits.right_eq {s t : State} (h : ReadsBits s t) (v : Nat) : t.huf.right v = s.huf.right v := by
  rw [h.kept]
  rfl

/-- The reader delivers the bit it is in front of. -/
theorem getBit_ahead {s : State} {bit : Bool} {bits : List Bool} {stop : Nat} (h : StreamAhead s (bit :: bits) stop) :
    ∃ t, getBit s = .value bit.toNat t ∧ ReadsBits s t ∧ StreamAhead t bits stop := by
  obtain ⟨hreader, hstream, hpos, hinside⟩ := h
  rw [List.length_cons] at hpos
  obtain ⟨-, hend⟩ | ⟨-, bit', t, hget, hreads, hreader', hpos', hbit, hkept⟩ := getBit_stream hreader
  · unfold fetchedFor at hend hinside
    omega
  · obtain rfl : bit' = bit := hbit bit (hstream 0 (Nat.zero_lt_succ _))
    refine ⟨t, hget, ⟨hreads, hkept⟩, hreader', fun j hj => ?_, by omega, hreads.regs_eq ▸ hinside⟩
    have hnext := hstream (j + 1) (Nat.succ_lt_succ hj)
    rw [State.streamBit, State.byteAt, hreads.regs_eq, hreads.mem_eq, hpos',
      show bitPos s + 1 + j = bitPos s + (j + 1) by omega]
    exact hnext

/-- The value of a field of bits, the first bit the most significant (R103, decision D9), going on from `r`. -/
def fieldValue (r : Nat) (bits : List Bool) : Nat := bits.foldl (fun r bit => shiftIn r bit.toNat) r

theorem fieldValue_testBits (x n r : Nat) :
    fieldValue r ((List.range n).map fun i => x.testBit (n - 1 - i)) = 2 ^ n * r + x % 2 ^ n := by
  induction n generalizing r with
  | zero => simp [fieldValue, Nat.mod_one]
  | succ n ih =>
    have htail : (fun i => x.testBit (n + 1 - 1 - i)) ∘ Nat.succ = fun i => x.testBit (n - 1 - i) := by
      funext i
      exact congrArg x.testBit (by omega)
    rw [List.range_succ_eq_map, List.map_cons, List.map_map, htail]
    calc fieldValue r (x.testBit n :: (List.range n).map fun i => x.testBit (n - 1 - i))
        = 2 ^ n * (2 * r + (x.testBit n).toNat) + x % 2 ^ n := ih _
      _ = 2 ^ (n + 1) * r + x % 2 ^ (n + 1) := by
        rw [Nat.toNat_testBit, Nat.mod_pow_succ]
        ring

/-- A byte is the value of its bits. -/
theorem fieldValue_msbFirst (b : Byte) : fieldValue 0 (msbFirst b) = b.toNat :=
  calc fieldValue 0 (msbFirst b) = 2 ^ 8 * 0 + b.toNat % 2 ^ 8 := fieldValue_testBits b.toNat 8 0
    _ = b.toNat := by rw [Nat.mul_zero, Nat.zero_add, Nat.mod_eq_of_lt b.isLt]

theorem getBitsFrom_ahead {bits : List Bool} (r : Nat) {s : State} {rest : List Bool} {stop : Nat}
    (h : StreamAhead s (bits ++ rest) stop) :
    ∃ t, getBitsFrom r bits.length s = .value (fieldValue r bits) t ∧ ReadsBits s t ∧ StreamAhead t rest stop := by
  induction bits generalizing r s with
  | nil => exact ⟨s, rfl, .refl s, h⟩
  | cons bit bits ih =>
    obtain ⟨t, hbit, hreads, hahead⟩ := getBit_ahead h
    obtain ⟨u, hbits, hreads', hahead'⟩ := ih (shiftIn r bit.toNat) hahead
    refine ⟨u, ?_, hreads.trans hreads', hahead'⟩
    rw [List.length_cons, getBitsFrom, hbit]
    exact hbits

theorem getBits_byte_ahead {b : Byte} {s : State} {rest : List Bool} {stop : Nat}
    (h : StreamAhead s (msbFirst b ++ rest) stop) :
    ∃ t, getBits 8 s = .value b.toNat t ∧ ReadsBits s t ∧ StreamAhead t rest stop :=
  fieldValue_msbFirst b ▸ getBitsFrom_ahead 0 h

/-! ### The node tables that hold a tree (R101) -/

/-- The value of a parsed tree: a leaf is its byte, an internal node the id that was next when its bit was read. -/
def HufTree.rootId (n : Nat) : HufTree → Nat
  | .leaf b => b.toNat
  | .node _ _ => n

/-- The node tables hold the tree whose ids start at `n`: an internal node takes the next id, then come the ids of its left
and of its right subtree. -/
def HufState.Holds (h : HufState) : Nat → HufTree → Prop
  | _, .leaf _ => True
  | n, .node l r =>
    h.left n = l.rootId (n + 1) ∧ h.right n = r.rootId (n + 1 + l.nodes) ∧
      h.Holds (n + 1) l ∧ h.Holds (n + 1 + l.nodes) r

/-- Two node tables agree on the ids `lo .. hi - 1`. -/
def HufState.AgreesOn (h h' : HufState) (lo hi : Nat) : Prop :=
  ∀ v, lo ≤ v → v < hi → h'.left v = h.left v ∧ h'.right v = h.right v

theorem HufState.AgreesOn.mono {h h' : HufState} {lo hi lo' hi' : Nat} (ha : h.AgreesOn h' lo hi) (hlo : lo ≤ lo')
    (hhi : hi' ≤ hi) : h.AgreesOn h' lo' hi' :=
  fun v hv hv' => ha v (by omega) (by omega)

theorem HufState.AgreesOn.trans {h h' h'' : HufState} {lo hi : Nat} (ha : h.AgreesOn h' lo hi)
    (hb : h'.AgreesOn h'' lo hi) : h.AgreesOn h'' lo hi :=
  fun v hv hv' => ⟨(hb v hv hv').1.trans (ha v hv hv').1, (hb v hv hv').2.trans (ha v hv hv').2⟩

/-- A tree is held by the entries of its own ids. -/
theorem HufState.Holds.congr {h h' : HufState} {n : Nat} {tree : HufTree} (hh : h.Holds n tree)
    (ha : h.AgreesOn h' n (n + tree.nodes)) : h'.Holds n tree := by
  induction tree generalizing n with
  | leaf b => trivial
  | node l r ihl ihr =>
    obtain ⟨hleft, hright, hl, hr⟩ := hh
    rw [HufTree.nodes] at ha
    obtain ⟨hleft', hright'⟩ := ha n (Nat.le_refl n) (by omega)
    exact ⟨hleft'.trans hleft, hright'.trans hright, ihl hl (ha.mono (by omega) (by omega)),
      ihr hr (ha.mono (by omega) (by omega))⟩

theorem ReadsBits.agreesOn {s t : State} (h : ReadsBits s t) (lo hi : Nat) : s.huf.AgreesOn t.huf lo hi :=
  fun v _ _ => ⟨h.left_eq v, h.right_eq v⟩

theorem ReadsBits.holds {s t : State} (h : ReadsBits s t) {n : Nat} {tree : HufTree} (hh : s.huf.Holds n tree) :
    t.huf.Holds n tree :=
  hh.congr (h.agreesOn _ _)

/-! What the stores of the parse do to HUF state. -/

@[simp] theorem HufState.openNode_nextId (h : HufState) : h.openNode.nextId = h.nextId + 1 := rfl
@[simp] theorem HufState.closeLeft_nextId (h : HufState) (v l : Nat) : (h.closeLeft v l).nextId = h.nextId := rfl
@[simp] theorem HufState.closeRight_nextId (h : HufState) (v r : Nat) : (h.closeRight v r).nextId = h.nextId := rfl

section
variable (h : HufState) {v w : Nat}

theorem left_closeLeft_same (l : Nat) (hv : v < 512) : (h.closeLeft v l).left v = l := by
  simp only [HufState.left, HufState.closeLeft, Vector.getElem?_setIfInBounds]
  rw [if_pos trivial, if_pos (by omega)]
  rfl

theorem right_closeRight_same (r : Nat) (hv : v < 512) : (h.closeRight v r).right v = r := by
  simp only [HufState.right, HufState.closeRight, Vector.getElem?_setIfInBounds]
  rw [if_pos trivial, if_pos (by omega)]
  rfl

theorem left_closeLeft_other (l : Nat) (hv : 256 ≤ v) (hw : 256 ≤ w) (hne : w ≠ v) :
    (h.closeLeft v l).left w = h.left w := by
  simp only [HufState.left, HufState.closeLeft, Vector.getElem?_setIfInBounds]
  rw [if_neg (by omega)]

theorem right_closeRight_other (r : Nat) (hv : 256 ≤ v) (hw : 256 ≤ w) (hne : w ≠ v) :
    (h.closeRight v r).right w = h.right w := by
  simp only [HufState.right, HufState.closeRight, Vector.getElem?_setIfInBounds]
  rw [if_neg (by omega)]

theorem closeLeft_agreesOn (l : Nat) {lo hi : Nat} (hv : 256 ≤ v) (hlo : 256 ≤ lo) (hout : v < lo ∨ hi ≤ v) :
    h.AgreesOn (h.closeLeft v l) lo hi :=
  fun w _ _ => ⟨left_closeLeft_other h l hv (by omega) (by omega), rfl⟩

theorem closeRight_agreesOn (r : Nat) {lo hi : Nat} (hv : 256 ≤ v) (hlo : 256 ≤ lo) (hout : v < lo ∨ hi ≤ v) :
    h.AgreesOn (h.closeRight v r) lo hi :=
  fun w _ _ => ⟨rfl, right_closeRight_other h r hv (by omega) (by omega)⟩

end

/-- The two stores of a node join the tables of its subtrees: the left subtree is in the tables when the node's left entry is
stored, and the parse of the right subtree keeps the entries up to its own ids. -/
theorem HufState.Holds.node {g h : HufState} {n : Nat} {l r : HufTree} (hid : 256 ≤ n) (hlt : n < 512)
    (hl : g.Holds (n + 1) l) (holder : (g.closeLeft n (l.rootId (n + 1))).AgreesOn h 256 (n + 1 + l.nodes))
    (hr : h.Holds (n + 1 + l.nodes) r) :
    (h.closeRight n (r.rootId (n + 1 + l.nodes))).Holds n (.node l r) := by
  have hclose {lo hi : Nat} (hlo : n < lo) :
      h.AgreesOn (h.closeRight n (r.rootId (n + 1 + l.nodes))) lo hi :=
    closeRight_agreesOn h _ hid (by omega) (.inl hlo)
  have hleft : g.AgreesOn h (n + 1) (n + 1 + l.nodes) :=
    (closeLeft_agreesOn g _ hid (by omega) (.inl (Nat.lt_succ_self n))).trans (holder.mono (by omega) (Nat.le_refl _))
  exact ⟨(holder n hid (by omega)).1.trans (left_closeLeft_same g _ hlt), right_closeRight_same h _ hlt,
    hl.congr (hleft.trans (hclose (by omega))), hr.congr (hclose (by omega))⟩

/-! ### The tree parse over a transmitted tree (R101) -/

/-- `t` is `s` after the parse of `tree`: the tree has taken the next ids, its nodes are in the tables, and the entries of
the ids taken before are as they were. -/
structure ParsedTree (tree : HufTree) (s t : State) : Prop where
  reads : HufReads s t
  nextId : t.huf.nextId = s.huf.nextId + tree.nodes
  holds : t.huf.Holds s.huf.nextId tree
  older : s.huf.AgreesOn t.huf 256 s.huf.nextId

/-- A leaf: a 0 and its byte. -/
theorem parseTree_leaf_ahead (room : Nat) {b : Byte} {s : State} {rest : List Bool} {stop : Nat}
    (h : StreamAhead s ((HufTree.leaf b).bits ++ rest) stop) :
    ∃ t, parseTree room s = .value b.toNat t ∧ ParsedTree (.leaf b) s t ∧ StreamAhead t rest stop := by
  obtain ⟨t, hbit, hreads, hahead⟩ := getBit_ahead h
  obtain ⟨u, hbyte, hreads', hahead'⟩ := getBits_byte_ahead hahead
  have hall := hreads.trans hreads'
  refine ⟨u, ?_, ⟨hall.reads, hall.nextId_eq, trivial, hall.agreesOn _ _⟩, hahead'⟩
  cases room with
  | zero => rw [parseTree_zero, getBits_one, hbit]; exact hbyte
  | succ room => rw [parseTree_succ, getBits_one, hbit]; exact hbyte

/-- An internal node with a free id and room for it: a 1 and its two subtrees. -/
theorem parseTree_of_one {room l r : Nat} {s t u v : State} (hbit : getBit s = .value 1 t)
    (hfree : t.huf.nextId ≤ t.cfg.hufMaxId) (hl : parseTree room (t.setHuf t.huf.openNode) = .value l u)
    (hr : parseTree room (u.setHuf (u.huf.closeLeft t.huf.nextId l)) = .value r v) :
    parseTree (room + 1) s = .value t.huf.nextId (v.setHuf (v.huf.closeRight t.huf.nextId r)) := by
  rw [parseTree_succ, getBits_one, hbit]
  simp only [andThen_value, if_true, if_neg (Nat.not_lt.2 hfree), hl, hr]

/-- The parses of two subtrees make the parse of their node. -/
theorem ParsedTree.node {l r : HufTree} {s t u v : State} (hbit : ReadsBits s t) (hid : 256 ≤ s.huf.nextId)
    (hlt : s.huf.nextId < 512) (hl : ParsedTree l (t.setHuf t.huf.openNode) u)
    (hr : ParsedTree r (u.setHuf (u.huf.closeLeft s.huf.nextId (l.rootId (s.huf.nextId + 1)))) v) :
    ParsedTree (.node l r) s
      (v.setHuf (v.huf.closeRight s.huf.nextId (r.rootId (s.huf.nextId + 1 + l.nodes)))) := by
  obtain ⟨hreadsL, hnextL, hholdsL, holderL⟩ := hl
  obtain ⟨hreadsR, hnextR, hholdsR, holderR⟩ := hr
  simp only [setHuf_huf, HufState.openNode_nextId, hbit.nextId_eq] at hnextL hholdsL holderL
  simp only [setHuf_huf, HufState.closeLeft_nextId] at hnextR hholdsR holderR
  rw [hnextL] at hnextR hholdsR holderR
  refine ⟨?_, ?_, .node hid hlt hholdsL holderR hholdsR, ?_⟩
  · have hopen : HufReads s (t.setHuf t.huf.openNode) := hbit.reads.setHuf (Nat.le_succ _) rfl
    have hstored := (hopen.trans hreadsL).setHuf (x := u.huf.closeLeft s.huf.nextId (l.rootId (s.huf.nextId + 1)))
      (Nat.le_refl _) rfl
    exact (hstored.trans hreadsR).setHuf (Nat.le_refl _) rfl
  · rw [setHuf_huf, HufState.closeRight_nextId, HufTree.nodes]
    omega
  · have hopened : s.huf.AgreesOn t.huf.openNode 256 s.huf.nextId := hbit.agreesOn _ _
    have hleft := hopened.trans (holderL.mono (Nat.le_refl _) (Nat.le_succ _))
    have hstored := hleft.trans (closeLeft_agreesOn u.huf (l.rootId (s.huf.nextId + 1)) hid (Nat.le_refl _)
      (.inr (Nat.le_refl _)))
    have hright := hstored.trans (holderR.mono (Nat.le_refl _) (by omega))
    exact hright.trans (closeRight_agreesOn v.huf _ hid (Nat.le_refl _) (.inr (Nat.le_refl _)))

/-- The parse of a transmitted tree, with room for its ids, answers the tree's value and stores its nodes. -/
theorem parseTree_ahead {tree : HufTree} {room : Nat} {s : State} {rest : List Bool} {stop : Nat}
    (hroom : tree.nodes ≤ room) (hmax : s.cfg.hufMaxId < 512) (hid : 256 ≤ s.huf.nextId)
    (hfit : s.huf.nextId + tree.nodes ≤ s.cfg.hufMaxId + 1) (h : StreamAhead s (tree.bits ++ rest) stop) :
    ∃ t, parseTree room s = .value (tree.rootId s.huf.nextId) t ∧ ParsedTree tree s t ∧ StreamAhead t rest stop := by
  induction tree generalizing room s rest with
  | leaf b => exact parseTree_leaf_ahead room h
  | node l r ihl ihr =>
    rw [HufTree.nodes] at hroom hfit
    obtain ⟨room, rfl⟩ : ∃ k, room = k + 1 := ⟨room - 1, by omega⟩
    rw [HufTree.bits, List.cons_append, List.append_assoc] at h
    obtain ⟨t, hbit, hreads, hahead⟩ := getBit_ahead h
    have hnext : t.huf.nextId = s.huf.nextId := hreads.nextId_eq
    have hcfg : t.cfg = s.cfg := hreads.reads.cfg_eq
    obtain ⟨u, hl, hparsed, hahead⟩ :=
      ihl (room := room) (s := t.setHuf t.huf.openNode) (by omega) (by rwa [setHuf_cfg, hcfg])
        (by simp only [setHuf_huf, HufState.openNode_nextId]; omega)
        (by simp only [setHuf_huf, HufState.openNode_nextId, setHuf_cfg, hcfg]; omega) (hahead.setHuf rfl rfl rfl)
    have hnextL := hparsed.nextId
    have hcfgL := hparsed.reads.cfg_eq
    simp only [setHuf_huf, setHuf_cfg, HufState.openNode_nextId, hnext, hcfg] at hl hnextL hcfgL
    obtain ⟨v, hr, hparsed', hahead⟩ :=
      ihr (room := room) (s := u.setHuf (u.huf.closeLeft s.huf.nextId (l.rootId (s.huf.nextId + 1)))) (by omega)
        (by rwa [setHuf_cfg, hcfgL]) (by simp only [setHuf_huf, HufState.closeLeft_nextId]; omega)
        (by simp only [setHuf_huf, HufState.closeLeft_nextId, setHuf_cfg, hcfgL]; omega) (hahead.setHuf rfl rfl rfl)
    simp only [setHuf_huf, HufState.closeLeft_nextId, hnextL] at hr
    rw [← hnext] at hl hr
    exact ⟨_, hnext ▸ parseTree_of_one hbit (by rw [hcfg]; omega) hl hr, .node hreads hid (by omega) hparsed hparsed',
      hahead.setHuf rfl rfl rfl⟩

/-! ### The symbols (R102) -/

/-- The descent along a code of a tree in the tables reads the code and answers the leaf. -/
theorem descend_ahead {tree : HufTree} {path : List Bool} {b : Byte} (hcode : tree.Code path b) {n : Nat} {s : State}
    {rest : List Bool} {stop : Nat} (hid : 256 ≤ n) (hholds : s.huf.Holds n tree)
    (h : StreamAhead s (path ++ rest) stop) :
    ∃ t, descend (bitsLeft s) (tree.rootId n) s = .value b.toNat t ∧ ReadsBits s t ∧ StreamAhead t rest stop := by
  induction hcode generalizing n s with
  | leaf b => exact ⟨s, by rw [descend_eq]; exact if_pos b.isLt, .refl s, h⟩
  | left hcode ih =>
    obtain ⟨t, hbit, hreads, hahead⟩ := getBit_ahead h
    obtain ⟨hleft, -, hl, -⟩ := hreads.holds hholds
    obtain ⟨u, hdesc, hreads', hahead'⟩ := ih (by omega) hl hahead
    refine ⟨u, ?_, hreads.trans hreads', hahead'⟩
    rw [descend_eq, HufTree.rootId, if_neg (by omega), getBits_one, hbit, andThen_value, if_neg (by decide), hleft]
    exact hdesc
  | right hcode ih =>
    obtain ⟨t, hbit, hreads, hahead⟩ := getBit_ahead h
    obtain ⟨-, hright, -, hr⟩ := hreads.holds hholds
    obtain ⟨u, hdesc, hreads', hahead'⟩ := ih (by omega) hr hahead
    refine ⟨u, ?_, hreads.trans hreads', hahead'⟩
    rw [descend_eq, HufTree.rootId, if_neg (by omega), getBits_one, hbit, andThen_value, if_pos (by decide), hright]
    exact hdesc

@[simp] theorem emit_regs (sym : Nat) (s : State) : (emit sym s).regs = s.regs := rfl
@[simp] theorem emit_out (sym : Nat) (s : State) : (emit sym s).huf.out = s.huf.out + 1 := rfl

theorem emit_byteAt_out (b : Byte) (s : State) :
    (emit b.toNat s).byteAt (s.regs.dstAddr.toNat + s.huf.out) = some b := by
  rw [emit, BitVec.ofNat_toNat, BitVec.setWidth_eq]
  exact read?_write_same _ _ _

theorem emit_holds {s : State} (sym : Nat) {n : Nat} {tree : HufTree} (hh : s.huf.Holds n tree) :
    (emit sym s).huf.Holds n tree :=
  hh.congr fun _ _ _ => ⟨rfl, rfl⟩

/-- The symbol loop leaves every byte outside the output bytes it writes. -/
theorem decodeSymbols_byteAt_outside {root n : Nat} {s t : State} (h : decodeSymbols root n s = .value () t) {x : Nat}
    (hx : x < s.regs.dstAddr.toNat + s.huf.out ∨ s.regs.dstAddr.toNat + s.huf.out + n ≤ x) :
    t.byteAt x = s.byteAt x := by
  obtain ⟨m, d, hf, hfinal, -, -, -, hend, houtside, -⟩ := decodeSymbols_spec root n s
  rw [h] at hfinal hend
  obtain ⟨-, hout⟩ | ⟨hraised, -⟩ := hend
  · obtain rfl : t = ((s.setMem m).setDraws d).setHuf hf := hfinal
    exact houtside x (by omega)
  · cases hraised

/-- The codes of `syms` are decoded in order: one output byte for each, and the reader moves on to what follows. The output
bytes lie outside the SRC window. -/
theorem decodeSymbols_ahead {tree : HufTree} {syms : List (Byte × List Bool)} (hcodes : ∀ x ∈ syms, tree.Code x.2 x.1)
    {n : Nat} {s : State} {rest : List Bool} {stop : Nat} (hid : 256 ≤ n) (hholds : s.huf.Holds n tree)
    (hapart : ∀ i, i < syms.length →
      ¬inWindow s.regs.srcAddr s.regs.srcLen (s.regs.dstAddr.toNat + s.huf.out + i))
    (h : StreamAhead s (syms.flatMap (fun x => x.2) ++ rest) stop) :
    ∃ t, decodeSymbols (tree.rootId n) syms.length s = .value () t ∧ StreamAhead t rest stop ∧
      t.huf.nextId = s.huf.nextId ∧
      ∀ (i : Nat) (hi : i < syms.length), t.byteAt (s.regs.dstAddr.toNat + s.huf.out + i) = some syms[i].1 := by
  induction syms generalizing s with
  | nil => exact ⟨s, rfl, h, rfl, fun i hi => absurd hi (Nat.not_lt_zero i)⟩
  | cons x syms ih =>
    rw [List.flatMap_cons, List.append_assoc] at h
    obtain ⟨t, hdesc, hreads, hahead⟩ := descend_ahead (hcodes x List.mem_cons_self) hid hholds h
    have hregs := hreads.reads.regs_eq
    have hout := hreads.reads.out_eq
    have hdst : s.regs.dstAddr.toNat + s.huf.out = t.regs.dstAddr.toNat + t.huf.out := by rw [hregs, hout]
    obtain ⟨u, hdec, hahead', hnext, hbytes⟩ :=
      ih (s := emit x.1.toNat t) (fun y hy => hcodes y (List.mem_cons_of_mem _ hy))
        (emit_holds _ (hreads.holds hholds)) (fun i hi => by
          have := hapart (i + 1) (Nat.succ_lt_succ hi)
          rwa [hdst, ← hregs, show t.regs.dstAddr.toNat + t.huf.out + (i + 1)
            = t.regs.dstAddr.toNat + (t.huf.out + 1) + i by omega] at this)
        (hahead.emit x.1.toNat (by
          have := hapart 0 (Nat.zero_lt_succ _)
          rwa [hdst, ← hregs] at this))
    refine ⟨u, ?_, hahead', hnext.trans hreads.nextId_eq, fun i hi => ?_⟩
    · rw [List.length_cons, decodeSymbols_succ, hdesc]
      exact hdec
    · rw [hdst]
      cases i with
      | zero =>
        rw [Nat.add_zero, decodeSymbols_byteAt_outside hdec (by rw [emit_regs, emit_out]; omega)]
        exact emit_byteAt_out x.1 t
      | succ i =>
        have hbyte := hbytes i (Nat.lt_of_succ_lt_succ hi)
        rwa [emit_regs, emit_out, show t.regs.dstAddr.toNat + (t.huf.out + 1) + i
          = t.regs.dstAddr.toNat + t.huf.out + (i + 1) by omega] at hbyte

/-! ### The command (R100) -/

/-- Nothing but buffer RAM, the number of the next draw and HUF state changes, whatever the stream is. -/
theorem hufBody_frame (s : State) : ∃ m d h, (hufBody s).final = ((s.setMem m).setDraws d).setHuf h := by
  obtain ⟨h, d, hparse⟩ := (parseTree_reads (s.cfg.hufMaxId - 255) (hufStart s)).frame
  obtain heq | ⟨root, -, heq⟩ := final_andThen (parseTree (s.cfg.hufMaxId - 255) (hufStart s))
    fun root s => decodeSymbols root s.regs.dstLen.toNat s
  · exact ⟨s.mem, d, h, heq.trans hparse⟩
  · obtain ⟨m, d', h', hfinal, -⟩ := decodeSymbols_spec root s.regs.dstLen.toNat (((hufStart s).setDraws d).setHuf h)
    refine ⟨m, d', h', ?_⟩
    rw [hufBody, heq, hparse, setHuf_regs, setDraws_regs, hufStart_regs, hfinal]
    simp [hufStart]

/-- The pseudocode of R100 over a transmitted tree and the codes of `DST_LEN` symbols: it ends without error behind the last
code, with the symbols in the output bytes and every other byte as it was. -/
theorem hufBody_ahead {tree : HufTree} {syms : List (Byte × List Bool)} {s : State} (hcfg : s.cfg.wf = true)
    (hnodes : tree.nodes ≤ s.cfg.hufMaxId - 255) (hcodes : ∀ x ∈ syms, tree.Code x.2 x.1)
    (hlen : syms.length = s.regs.dstLen.toNat)
    (hapart : ∀ a, inWindow s.regs.srcAddr s.regs.srcLen a → ¬inWindow s.regs.dstAddr s.regs.dstLen a) {stop : Nat}
    (h : StreamAhead (hufStart s) (tree.bits ++ syms.flatMap (fun x => x.2)) stop) :
    ∃ u, hufBody s = .value () u ∧ u.huf.fetched = fetchedFor stop ∧
      u.huf.nextId = 256 + tree.nodes ∧
      (∀ (i : Nat) (hi : i < syms.length), u.byteAt (s.regs.dstAddr.toNat + i) = some syms[i].1) ∧
      (∀ a, ¬inWindow s.regs.dstAddr s.regs.dstLen a → u.byteAt a = s.byteAt a) := by
  obtain ⟨-, -, hmin, hmax⟩ := of_decide_eq_true hcfg
  obtain ⟨t, htree, hparsed, hahead⟩ := parseTree_ahead (s := hufStart s) hnodes (Nat.lt_succ_of_le hmax) (Nat.le_refl 256)
    (show 256 + tree.nodes ≤ s.cfg.hufMaxId + 1 by omega) h
  have hregs : t.regs = s.regs := hparsed.reads.regs_eq
  have hout : t.huf.out = 0 := hparsed.reads.out_eq
  have hmem : t.mem = s.mem := hparsed.reads.mem_eq
  have hdst : t.regs.dstAddr.toNat + t.huf.out = s.regs.dstAddr.toNat := by rw [hregs, hout, Nat.add_zero]
  rw [← List.append_nil (syms.flatMap fun x => x.2)] at hahead
  obtain ⟨u, hdec, hend, hnext, hbytes⟩ := decodeSymbols_ahead hcodes (Nat.le_refl 256) hparsed.holds
    (fun i hi hsrc => by
      rw [hdst, hregs] at hsrc
      exact hapart _ hsrc ⟨by omega, by omega⟩) hahead
  rw [hdst] at hbytes
  refine ⟨u, ?_, hend.fetched_eq, hnext.trans hparsed.nextId, hbytes, fun a ha => ?_⟩
  · rw [hufBody, htree, andThen_value, hregs, ← hlen]
    exact hdec
  · rw [decodeSymbols_byteAt_outside hdec (by rw [hdst]; omega), State.byteAt, hmem]

/-- A completion behind work of HUF.DECODE, field by field. -/
theorem complete_of_hufWork (r0 r1 : Word) (s : State) (m : List Host.Cell) (d : Nat) (h : HufState) :
    complete r0 r1 (((s.setMem m).setDraws d).setHuf h) =
      { s with mem := m, draws := d, huf := h, res0 := r0, res1 := r1, status := { s.status with done := true },
               running := none } := by
  cases s
  rfl

/-- Settles O30: the checks pass, the parse and the symbol loop read exactly the bits of the tree and of the codes, and the
completion reports the counters they leave. -/
theorem hufDecodesTransmittedTree : Obligations.HufDecodesTransmittedTree := by
  unfold Obligations.HufDecodesTransmittedTree
  intro s tree syms hcfg hsrc hdst hapart hnodes hcodes hlen hstream hinside
  have hoverlap : windowsOverlap s.regs.srcAddr s.regs.srcLen s.regs.dstAddr s.regs.dstLen = false :=
    Bool.eq_false_iff.2 fun hover => by
      obtain ⟨a, ha, ha'⟩ := windowsOverlap_iff.1 hover
      exact hapart a ha ha'
  obtain ⟨u, hbody, hfetched, hnext, hbytes, hframe⟩ :=
    hufBody_ahead hcfg hnodes hcodes hlen hapart (hufStart_ahead hstream hinside)
  have hexec : exec .hufDecode s = .next (complete (hufRes0 u) (hufRes1 u) u) := by
    rw [exec_hufDecode, execHufDecode_of_checks (hufChecks_eq_none.2 ⟨hsrc, hdst, hoverlap⟩), hbody]
    rfl
  refine ⟨_, hexec, hbytes, hframe, ?_⟩
  obtain ⟨m, d, h, hfinal⟩ := hufBody_frame s
  rw [hbody] at hfinal
  obtain rfl : u = ((s.setMem m).setDraws d).setHuf h := hfinal
  rw [hufRes0, hufRes1, hfetched, hnext, complete_of_hufWork]

end Sys2Proof.Machine
end

section
/-! PROOF. SUB: the schedule of SUB.INIT, the two substitution commands, and the life of TBL (spec/41_substitution.md R120 to
R124). The part that other statements can use: the table and the key after any number of rounds (`tblGet_initRounds`,
`initRounds_key`), the end of SUB.INIT field by field (`exec_subInit_eq`) and that its table is a permutation
(`subInitTable_isPermutation`), all that a host event other than a reset can change (`hostEvent_effect`), what a substitution
command that passes its checks leaves (`substitute_substituted`), and the inverse of a permutation table (`tblGet_eq_iff`). -/

namespace Sys2Proof.Machine

open Sys2Proof

/-! ### The schedule of SUB.INIT (R120) -/

theorem byteOf_eq_indexRef (w : Word) (i : Nat) : byteOf w i = indexRef w (8 * i) := by
  rw [indexRef, shiftRight_and_byte, BitVec.setWidth_setWidth_of_le _ (by decide), BitVec.setWidth_eq, byteOf]

theorem nextKey_eq_rotrRef (summand factor key : Word) :
    nextKey summand factor key = summand + factor * rotrRef key 2 := rfl

/-- The rounds once more with the last one split off, as the reference forms count them. -/
theorem initRounds_succ_last (summand factor : Word) (n : Nat) (key : Word) (t : Vector Byte 256) :
    initRounds summand factor (n + 1) key t =
      (nextKey summand factor (initRounds summand factor n key t).1,
        roundSwaps (initRounds summand factor n key t).1 (initRounds summand factor n key t).2) := by
  induction n generalizing key t with
  | zero => rfl
  | succ n ih => rw [initRounds_succ, ih, initRounds_succ]

theorem initRounds_key (summand factor : Word) (n : Nat) (key : Word) (t : Vector Byte 256) :
    (initRounds summand factor n key t).1 = keyRef key summand factor n := by
  induction n with
  | zero => rfl
  | succ n ih => rw [initRounds_succ_last, ih, nextKey_eq_rotrRef, keyRef]

theorem tblGet_roundSwaps (key : Word) (t : Vector Byte 256) (j : Byte) :
    tblGet (roundSwaps key t) j =
      tblGet t (Equiv.swap (indexRef key 16) (indexRef key 0) (Equiv.swap (indexRef key 8) (indexRef key 24) j)) := by
  simp only [roundSwaps, tblGet_tblSwap, byteOf_eq_indexRef]

/-- `n` rounds compose the table they start from with the permutation of the reference form. -/
theorem tblGet_initRounds (summand factor : Word) (n : Nat) (key : Word) (t : Vector Byte 256) (j : Byte) :
    tblGet (initRounds summand factor n key t).2 j = tblGet t (scheduleRef key summand factor n j) := by
  induction n generalizing j with
  | zero => rfl
  | succ n ih =>
    rw [initRounds_succ_last, tblGet_roundSwaps, initRounds_key, ih]
    rfl

/-- The table that SUB.INIT builds from the registers. -/
def subInitTable (r : PortRegs) : Vector Byte 256 :=
  (initRounds r.initSummand r.decoderFactor 256 r.initKey tblIdentity).2

theorem tblGet_subInitTable (r : PortRegs) (j : Byte) :
    tblGet (subInitTable r) j = scheduleRef r.initKey r.initSummand r.decoderFactor 256 j :=
  (tblGet_initRounds _ _ _ _ _ j).trans (tblGet_identity _)

/-- A completion that stores a table, field by field. -/
theorem complete_of_table (r0 r1 : Word) (t : Vector Byte 256) (s : State) :
    complete r0 r1 ((s.setTbl t).setStatus s.status.withTable) =
      { s with tbl := t, res0 := r0, res1 := r1, status := { s.status with done := true, tblValid := true },
               running := none } := rfl

theorem exec_subInit_eq (s : State) :
    exec .subInit s = .next
      { s with tbl := subInitTable s.regs, res0 := keyRef s.regs.initKey s.regs.initSummand s.regs.decoderFactor 256,
               res1 := 0, status := { s.status with done := true, tblValid := true }, running := none } := by
  rw [exec_subInit, execSubInit_eq, complete_of_table, initRounds_key, subInitTable]

/-- Settles O22: induction over the rounds, of which each composes the table with its two transpositions. -/
theorem subInitBuildsSchedule : Obligations.SubInitBuildsSchedule := by
  unfold Obligations.SubInitBuildsSchedule
  exact fun s => ⟨_, exec_subInit_eq s, tblGet_subInitTable s.regs, rfl⟩

/-! ### The life of TBL (R121) -/

/-- R121: a composition of transpositions is a permutation. -/
theorem subInitTable_isPermutation (r : PortRegs) : isPermutation (subInitTable r) := by
  rw [isPermutation, funext (tblGet_subInitTable r)]
  exact Equiv.bijective _

theorem EngineWork.tbl_eq {s u : State} (h : EngineWork s u) : u.tbl = s.tbl := by
  obtain ⟨_, _, _, _, rfl⟩ := h
  rfl

theorem EndsCommand.tbl_eq {u t : State} (h : EndsCommand u t) : t.tbl = u.tbl := by
  obtain ⟨_, _, rfl⟩ | ⟨_, _, _, rfl⟩ := h <;> rfl

theorem exec_keeps_tbl {i : Instr} (hi : i ≠ .subInit) {s t : State} (h : exec i s = .next t) : t.tbl = s.tbl := by
  obtain ⟨u, t', heq, hwork, hends⟩ := exec_ends hi s
  obtain rfl : t' = t := Host.Outcome.next.inj (heq.symm.trans h)
  exact hends.tbl_eq.trans hwork.tbl_eq

/-- `t` is `s` after host accesses: the parameters, the result registers, TBL, the HUF and ENT state and the events still to
come are those of `s`. -/
def HostEffect (s t : State) : Prop :=
  t = { s with regs := t.regs, status := t.status, errcode := t.errcode, errinfo := t.errinfo, running := t.running,
               mem := t.mem, draws := t.draws, responses := t.responses }

theorem HostEffect.tbl_eq {s t : State} (h : HostEffect s t) : t.tbl = s.tbl := (congrArg State.tbl h).trans rfl

theorem writeReg_effect (o : Offset) (v : Word) (s : State) : HostEffect s (writeReg o v s) := by
  unfold writeReg
  split
  · rfl
  · split
    · rfl
    · obtain ⟨-, heq⟩ | ⟨_, _, heq, -⟩ := storeReg_frame v s _ <;> rw [heq] <;> rfl

theorem writeBuffer_effect (a : Word) (b : Byte) (s : State) : HostEffect s (writeBuffer a b s) := by
  unfold writeBuffer
  split
  · rfl
  · split <;> rfl

/-- All that a host event other than a reset can change. -/
theorem hostEvent_effect {op : HostOp} (h : ¬(op = .resetInput ∨ op = .powerOn)) (s : State) :
    HostEffect s (hostEvent op s) := by
  cases op with
  | regWrite o v => exact writeReg_effect o v s
  | regRead o =>
    obtain ⟨d, -, heq⟩ := hostEvent_regRead o s
    rw [heq]
    rfl
  | bufWrite a b => exact writeBuffer_effect a b s
  | bufRead a =>
    obtain ⟨d, -, heq⟩ := hostEvent_bufRead a s
    rw [heq]
    rfl
  | resetInput => exact absurd (.inl rfl) h
  | powerOn => exact absurd (.inr rfl) h

/-- Only SUB.INIT and a reset write TBL. -/
theorem step_keeps_tbl {s t : State} (h : step s = .next t) (hr : ¬resetIsNext s)
    (hinit : ∀ w, s.running = some w → decode w ≠ .ok .subInit) : t.tbl = s.tbl := by
  rcases step_cases s with ⟨w, i, hrun, hdec, -, hstep⟩ | ⟨_, _, -, -, -, hstep⟩ | ⟨x, rest, hp, -, hstep⟩ | ⟨-, -, hstep⟩
  · exact exec_keeps_tbl (fun hi => hinit w hrun (hi ▸ hdec)) (hstep.symm.trans h)
  · obtain rfl := Host.Outcome.next.inj (hstep.symm.trans h)
    exact (raiseError_endsCommand _ _ _ s).tbl_eq
  · obtain rfl := Host.Outcome.next.inj (hstep.symm.trans h)
    have hop : ¬(x.op = .resetInput ∨ x.op = .powerOn) := fun hx => hr ⟨x, by simp [hp], hx⟩
    exact (hostEvent_effect hop _).tbl_eq
  · obtain rfl := Host.Outcome.next.inj (hstep.symm.trans h)
    rfl

/-- Settles O18: SUB.INIT leaves the permutation of its schedule, and no other move of a step but a reset writes TBL. -/
theorem tableIsPermutationAndPersists : Obligations.TableIsPermutationAndPersists := by
  unfold Obligations.TableIsPermutationAndPersists
  exact ⟨fun s => ⟨_, exec_subInit_eq s, subInitTable_isPermutation s.regs, rfl⟩, fun _ _ => step_keeps_tbl⟩

/-! ### A substitution command behind its checks (R122, R123) -/

/-- `t` is `s` with `f` of every byte of the SRC window in its place (of a draw, where nothing had been written), and the
report of a completion. -/
structure Substituted (f : Byte → Byte) (s t : State) : Prop where
  inside : ∀ a, inWindow s.regs.srcAddr s.regs.srcLen a →
    ∃ b, (∀ c, s.byteAt a = some c → c = b) ∧ t.byteAt a = some (f b)
  outside : ∀ a, ¬inWindow s.regs.srcAddr s.regs.srcLen a → t.byteAt a = s.byteAt a
  draws : s.windowWritten s.regs.srcAddr s.regs.srcLen → t.draws = s.draws
  frame : t = { s with mem := t.mem, draws := t.draws, res0 := s.regs.srcLen, res1 := 0,
                       status := { s.status with done := true }, running := none }

theorem substitute_substituted (f : Byte → Byte) {s : State} (hw : s.legalWindow s.regs.srcAddr s.regs.srcLen)
    (hv : s.status.tblValid = true) : Substituted f s (substitute f s) := by
  rw [substitute_of_checks (subChecks_eq_none.2 ⟨hw, hv⟩)]
  obtain ⟨m, d, heq, -, hout, hin, hdraws, -⟩ := mapBytes_spec f s.regs.srcAddr.toNat s.regs.srcLen.toNat s
  rw [heq]
  exact {
    inside := fun a ha => hin a ha.1 ha.2
    outside := fun a ha => hout a (by omega)
    draws := fun hwritten => hdraws fun a hlo hhi => hwritten a ⟨hlo, hhi⟩
    frame := rfl }

theorem Substituted.byteAt_of_some {f : Byte → Byte} {s t : State} (h : Substituted f s t) {a : Nat} {b : Byte}
    (ha : inWindow s.regs.srcAddr s.regs.srcLen a) (hb : s.byteAt a = some b) : t.byteAt a = some (f b) := by
  obtain ⟨c, hc, ht⟩ := h.inside a ha
  rw [ht, hc b hb]

/-- Settles O23: `subDecodeByte` is the formula of R122, and the two errors are the checks of R185. -/
theorem subDecodeSubstitutesWindow : Obligations.SubDecodeSubstitutesWindow := by
  unfold Obligations.SubDecodeSubstitutesWindow
  refine fun k s => ⟨fun hw hv => ?_, exec_of_illegalSrc nofun nofun, fun hw hv => ?_⟩
  · have h := substitute_substituted (subDecodeByte s.tbl k) hw hv
    refine ⟨_, exec_subDecode k s, fun a b => h.byteAt_of_some, fun a ha _ => ?_, h.outside, h.draws, h.frame⟩
    obtain ⟨b, -, hb⟩ := h.inside a ha
    exact ⟨b, hb⟩
  · rw [exec_subDecode, substitute_of_noTable hw hv]

/-! ### The inverse of the table (R123, R124) -/

/-- In a permutation the search finds the one index that holds the byte. -/
theorem tblGet_eq_iff {t : Vector Byte 256} (ht : isPermutation t) {j b : Byte} :
    tblGet t j = b ↔ j = tblIndexOf t b := by
  have hfound : tblGet t (tblIndexOf t b) = b := (tblGet_tblIndexOf (ht.surjective b)).1
  exact ⟨fun hj => ht.injective (hj.trans hfound.symm), fun hj => hj ▸ hfound⟩

theorem subDecodeByte_subEncodeByte {t : Vector Byte 256} (ht : isPermutation t) (k b : Byte) :
    subDecodeByte t k (subEncodeByte t k b) = b := by
  have hxor : k ^^^ (tblIndexOf t b ^^^ k) = tblIndexOf t b := by
    rw [BitVec.xor_comm, BitVec.xor_assoc, BitVec.xor_self, BitVec.xor_zero]
  rw [subDecodeByte, subEncodeByte, hxor, (tblGet_eq_iff ht).2 rfl]

theorem subEncodeByte_subDecodeByte {t : Vector Byte 256} (ht : isPermutation t) (k b : Byte) :
    subEncodeByte t k (subDecodeByte t k b) = b := by
  have hindex : k ^^^ b = tblIndexOf t (tblGet t (k ^^^ b)) := (tblGet_eq_iff ht).1 rfl
  rw [subEncodeByte, subDecodeByte, ← hindex, BitVec.xor_comm k, BitVec.xor_assoc, BitVec.xor_self, BitVec.xor_zero]

/-- Settles O24: the search is `tblGet_tblIndexOf`, unique over a permutation, and the two errors are the checks of R185. -/
theorem subEncodeSearchesTable : Obligations.SubEncodeSearchesTable := by
  unfold Obligations.SubEncodeSearchesTable
  refine fun k s => ⟨fun hw hv => ?_, exec_of_illegalSrc nofun nofun, fun hw hv => ?_⟩
  · have h := substitute_substituted (subEncodeByte s.tbl k) hw hv
    refine ⟨_, exec_subEncode k s, fun a b ha hb hfound => ?_, fun hperm a ha => ?_, h.outside, h.draws, h.frame⟩
    · exact ⟨tblIndexOf s.tbl b, h.byteAt_of_some ha hb, tblGet_tblIndexOf hfound⟩
    · obtain ⟨b, hread, hb⟩ := h.inside a ha
      exact ⟨b, tblIndexOf s.tbl b, hread, hb, fun _ => tblGet_eq_iff hperm⟩
  · rw [exec_subEncode, substitute_of_noTable hw hv]

/-- Two substitutions of one written window, the second by a left inverse of the first, restore every byte. -/
theorem substitute_substitute_byteAt {f g : Byte → Byte} (hgf : ∀ b, g (f b) = b) {s : State}
    (hw : s.legalWindow s.regs.srcAddr s.regs.srcLen) (hv : s.status.tblValid = true)
    (hwritten : s.windowWritten s.regs.srcAddr s.regs.srcLen) (a : Nat) :
    (substitute g (substitute f s)).byteAt a = s.byteAt a := by
  have hf := substitute_substituted f hw hv
  obtain ⟨t, ht⟩ : ∃ t, substitute f s = t := ⟨_, rfl⟩
  rw [ht] at hf ⊢
  have hcfg : t.cfg = s.cfg := by rw [hf.frame]
  have hregs : t.regs = s.regs := by rw [hf.frame]
  have hvalid : t.status.tblValid = true := by rw [hf.frame]; exact hv
  have hg : Substituted g t (substitute g t) := substitute_substituted g (by rwa [State.legalWindow, hregs, hcfg]) hvalid
  by_cases ha : inWindow s.regs.srcAddr s.regs.srcLen a
  · obtain ⟨b, hb⟩ := Option.isSome_iff_exists.1 (hwritten a ha)
    rw [hg.byteAt_of_some (hregs ▸ ha) (hf.byteAt_of_some ha hb), hgf, hb]
  · rw [hg.outside a (hregs ▸ ha), hf.outside a ha]

theorem substitute_tbl (f : Byte → Byte) (s : State) : (substitute f s).tbl = s.tbl := by
  obtain ⟨u, hwork, hends⟩ := substitute_ends f s
  exact hends.tbl_eq.trans hwork.tbl_eq

/-- Settles O25: over a permutation the byte maps of the two commands are inverse to each other, and the first command leaves
the table to the second. -/
theorem subInverseLaw : Obligations.SubInverseLaw := by
  unfold Obligations.SubInverseLaw
  refine fun k s hw hv hperm hwritten => ⟨?_, ?_⟩
  · refine ⟨_, _, exec_subEncode k s, exec_subDecode k _, ?_⟩
    rw [substitute_tbl]
    exact substitute_substitute_byteAt (subDecodeByte_subEncodeByte hperm k) hw hv hwritten
  · refine ⟨_, _, exec_subDecode k s, exec_subEncode k _, ?_⟩
    rw [substitute_tbl]
    exact substitute_substitute_byteAt (subEncodeByte_subDecodeByte hperm k) hw hv hwritten

end Sys2Proof.Machine
end

section
/-! PROOF. ENT: the working secret array, the two commands, and their inverse law (spec/42_entry_cipher.md R140 to R144). The
part that other statements can use: the bytes of the working secret array (`secretArray_buildSk`), all that an ENT command that
passes its checks leaves (`entCommand_ciphered`), the running key and the index it goes through (`Ciphered.trajectory`), and
that the opposite command goes through the same ones (`Ciphered.retrace`). -/

namespace Sys2Proof.Machine

open Sys2Proof

/-! ### Bytes of words -/

theorem byteOf_xor (v w : Word) (i : Nat) : byteOf (v ^^^ w) i = byteOf v i ^^^ byteOf w i :=
  BitVec.extractLsb'_xor

theorem byteOf_zero (i : Nat) : byteOf 0 i = 0 := BitVec.extractLsb'_zero

theorem eq_of_byteOf_eq {v w : Word} (h : ∀ j, j < 4 → byteOf v j = byteOf w j) : v = w := by
  rw [← wordOf_byteOf v, ← wordOf_byteOf w, h 0 (by decide), h 1 (by decide), h 2 (by decide), h 3 (by decide)]

/-- The bytes that make up a word of buffer RAM. -/
theorem read?_of_word? {m : List Host.Cell} {a : Nat} {w : Word} (h : Memory.word? m a = some w) {j : Nat} (hj : j < 4) :
    Memory.read? m (a + j) = some (byteOf w j) := by
  rw [Memory.word?] at h
  split at h
  next b0 b1 b2 b3 h0 h1 h2 h3 =>
    obtain rfl := Option.some.inj h
    obtain ⟨q0, q1, q2, q3⟩ := byteOf_wordOf b0 b1 b2 b3
    interval_cases j
    · exact h0.trans (congrArg some q0.symm)
    · exact h1.trans (congrArg some q1.symm)
    · exact h2.trans (congrArg some q2.symm)
    · exact h3.trans (congrArg some q3.symm)
  next => cases h

/-- Where the word at `a` has been written, it is the only one that the engine may read there. -/
theorem State.readsAs.eq_of_wordAt {s : State} {a : Nat} {v w : Word} (hv : s.readsAs a v) (hw : s.wordAt a = some w) :
    v = w :=
  eq_of_byteOf_eq fun j hj => hv j hj _ (read?_of_word? hw hj)

/-! ### The working secret array (R140) -/

theorem byteOf_mapSecret (t : Vector Byte 256) (k0 : Byte) (w : Word) {b : Nat} (hb : b < 4) :
    byteOf (mapSecret t k0 w) b = k0 ^^^ tblGet t (byteOf w b) := by
  obtain ⟨q0, q1, q2, q3⟩ := byteOf_wordOf (k0 ^^^ tblGet t (byteOf w 0)) (k0 ^^^ tblGet t (byteOf w 1))
    (k0 ^^^ tblGet t (byteOf w 2)) (k0 ^^^ tblGet t (byteOf w 3))
  interval_cases b
  · exact q0
  · exact q1
  · exact q2
  · exact q3

/-- `K0` is the low byte of `CMVS_MD5[1] >> 2`. -/
theorem secretKeyByte_eq (r : PortRegs) : secretKeyByte r = (r.cmvsMd5[1] >>> 2).setWidth 8 :=
  (BitVec.setWidth_eq_extractLsb' (by decide)).symm

theorem secretArray_buildSk (s : State) : s.secretArray (buildSk s.regs s.tbl) := by
  intro j b hb
  have hword : (buildSk s.regs s.tbl)[j] =
      (if j.val < s.regs.secretLen.val then mapSecret s.tbl (secretKeyByte s.regs) s.regs.secret[j] else 0)
        ^^^ s.regs.seed := Vector.getElem_ofFn _
  rw [hword, byteOf_xor]
  split
  · rw [byteOf_mapSecret _ _ _ hb, secretKeyByte_eq]
  · rw [byteOf_zero]

/-! ### The formulas of R142 and R143 -/

theorem getD_toList_eq {n : Nat} (v : Vector Word n) {i : Nat} (hi : i < n) : v.toList.getD i 0 = v[i] := by
  simp [hi]

theorem toNat_shiftRight_and_nibble (w : Word) (n : Nat) : ((w >>> n) &&& 0xF).toNat = (w.extractLsb' n 4).toNat := by
  rw [BitVec.toNat_and, BitVec.toNat_ushiftRight, BitVec.extractLsb'_toNat]
  exact Nat.and_two_pow_sub_one_eq_mod _ 4

theorem toNat_and_three (w : Word) : (w &&& 3).toNat = (w.extractLsb' 0 2).toNat := by
  rw [BitVec.toNat_and, BitVec.extractLsb'_toNat]
  exact Nat.and_two_pow_sub_one_eq_mod _ 2

theorem maskRef_eq (e : EntState) : maskRef e.sk e.rk (e.k.setWidth 32) = entMask e := by
  have hk : (e.k.setWidth 32).toNat = e.k.toNat := BitVec.toNat_setWidth_of_le (by decide)
  have hlt : (e.rk.extractLsb' 6 4).toNat < 16 := BitVec.isLt _
  have hklt : e.k.toNat < 16 := e.k.isLt
  rw [maskRef, wordIndex, wordIndex, toNat_shiftRight_and_nibble, hk, getD_toList_eq _ hlt, getD_toList_eq _ hklt, entMask]

theorem md5Ref_eq (r : PortRegs) (e : EntState) : md5Ref r e.rk = entMd5 r e := by
  have hlt : (e.rk.extractLsb' 0 2).toNat < 4 := BitVec.isLt _
  rw [md5Ref, toNat_and_three, getD_toList_eq _ hlt, entMd5]

theorem decryptRef_eq (r : PortRegs) (e : EntState) (c : Word) :
    decryptRef r e.sk e.rk (e.k.setWidth 32) c = decryptWord r e c := by
  rw [decryptRef, maskRef_eq, md5Ref_eq, decryptWord]

theorem encryptRef_eq (r : PortRegs) (e : EntState) (p : Word) :
    encryptRef r e.sk e.rk (e.k.setWidth 32) p = encryptWord r e p := by
  rw [encryptRef, maskRef_eq, md5Ref_eq, encryptWord]

/-- The 4-bit index advances as R141 writes it on a word. -/
theorem setWidth_succ_nibble (k : BitVec 4) : (k + 1).setWidth 32 = (k.setWidth 32 + 1 : Word) &&& 0xF := by
  revert k
  decide

/-- A value that E_CFG lets through fits the 4-bit index. -/
theorem setWidth_nibble_of_le {w : Word} (h : w.toNat ≤ 15) : (w.setWidth 4).setWidth 32 = w := by
  apply BitVec.eq_of_toNat_eq
  simp only [BitVec.toNat_setWidth]
  omega

/-! ### An ENT command behind its checks (R141 to R143) -/

/-- `t` is `s` after the ENT command `dir`: the words `x` of the SRC window were read under the ENT states `e` and replaced by
their cipher words, each tail byte (a draw, where nothing had been written) by its image; and the report of a completion. -/
structure Ciphered (dir : Direction) (s t : State) (e : Nat → EntState) (x : Nat → Word) : Prop where
  start : e 0 = (entStart s).ent
  reads : ∀ i, i < s.regs.srcLen.toNat / 4 → s.readsAs (s.regs.srcAddr.toNat + 4 * i) (x i)
  stores : ∀ i, i < s.regs.srcLen.toNat / 4 →
    t.wordAt (s.regs.srcAddr.toNat + 4 * i) = some (cipherWord dir s.regs (e i) (x i))
  advance : ∀ i, i < s.regs.srcLen.toNat / 4 →
    e (i + 1) = entAdvance s.regs (plainWord dir (x i) (cipherWord dir s.regs (e i) (x i))) (e i)
  tail : ∀ a, s.regs.srcAddr.toNat + 4 * (s.regs.srcLen.toNat / 4) ≤ a →
    a < s.regs.srcAddr.toNat + s.regs.srcLen.toNat →
    ∃ b, (∀ c, s.byteAt a = some c → c = b) ∧ t.byteAt a = some (tailByte dir s.tbl s.regs.entryTailKey b)
  outside : ∀ a, ¬inWindow s.regs.srcAddr s.regs.srcLen a → t.byteAt a = s.byteAt a
  draws : s.windowWritten s.regs.srcAddr s.regs.srcLen → t.draws = s.draws
  ent : t.ent = e (s.regs.srcLen.toNat / 4)
  frame : t = { s with mem := t.mem, draws := t.draws, ent := t.ent, res0 := (e (s.regs.srcLen.toNat / 4)).rk,
                       res1 := (e (s.regs.srcLen.toNat / 4)).k.setWidth 32, status := { s.status with done := true },
                       running := none }

theorem entCommand_ciphered (dir : Direction) {s : State} (hw : s.legalWindow s.regs.srcAddr s.regs.srcLen)
    (hv : s.status.tblValid = true) (hk : s.regs.entryKeyPos.toNat ≤ 15) :
    ∃ e x, Ciphered dir s (entCommand dir s) e x := by
  rw [entCommand_of_checks (entChecks_eq_none.2 ⟨hw, hv, hk⟩)]
  obtain ⟨m, d, e, x, heq, -, hstart, hout, hwords, htail, hdraws, -⟩ := entBody_spec dir s
  refine ⟨e, x, ?_⟩
  rw [entComplete, heq]
  exact {
    start := hstart
    reads := fun i hi => (hwords i hi).1
    stores := fun i hi => (hwords i hi).2.1
    advance := fun i hi => (hwords i hi).2.2
    tail := htail
    outside := hout
    draws := hdraws
    ent := rfl
    frame := rfl }

section
variable {dir : Direction} {s t : State} {e : Nat → EntState} {x : Nat → Word} (h : Ciphered dir s t e x)
include h

theorem Ciphered.sk_eq_buildSk {i : Nat} (hi : i ≤ s.regs.srcLen.toNat / 4) : (e i).sk = buildSk s.regs s.tbl := by
  induction i with
  | zero => rw [h.start]; rfl
  | succ i ih => rw [h.advance i hi, entAdvance_sk, ih (Nat.le_of_succ_le hi)]

theorem Ciphered.ent_sk : t.ent.sk = buildSk s.regs s.tbl := by
  rw [h.ent, h.sk_eq_buildSk (Nat.le_refl _)]

/-- Every word is ciphered under the array that the command leaves. -/
theorem Ciphered.sk_eq {i : Nat} (hi : i < s.regs.srcLen.toNat / 4) : t.ent.sk = (e i).sk :=
  h.ent_sk.trans (h.sk_eq_buildSk (Nat.le_of_lt hi)).symm

theorem Ciphered.secretArray : s.secretArray t.ent.sk := by
  rw [h.ent_sk]
  exact secretArray_buildSk s

theorem Ciphered.trajectory (hk : s.regs.entryKeyPos.toNat ≤ 15) :
    Trajectory s.regs (s.regs.srcLen.toNat / 4) (fun i => (e i).rk) (fun i => (e i).k.setWidth 32)
      (fun i => plainWord dir (x i) (cipherWord dir s.regs (e i) (x i))) where
  rk_start := by rw [h.start]; rfl
  k_start := by rw [h.start]; exact setWidth_nibble_of_le hk
  rk_next i hi := by rw [h.advance i hi]; rfl
  k_next i hi := by rw [h.advance i hi]; exact setWidth_succ_nibble _

theorem Ciphered.cfg_eq : t.cfg = s.cfg := by rw [h.frame]
theorem Ciphered.regs_eq : t.regs = s.regs := by rw [h.frame]
theorem Ciphered.tbl_eq : t.tbl = s.tbl := by rw [h.frame]
theorem Ciphered.tblValid_eq : t.status.tblValid = s.status.tblValid := by rw [h.frame]
theorem Ciphered.res0_eq : t.res0 = (e (s.regs.srcLen.toNat / 4)).rk := by rw [h.frame]
theorem Ciphered.res1_eq : t.res1 = (e (s.regs.srcLen.toNat / 4)).k.setWidth 32 := by rw [h.frame]

end

/-- R185: an ENTRY_KEY_POS above 15 is the last check of an ENT command. -/
theorem entCommand_of_keyPos (dir : Direction) {s : State} (hw : s.legalWindow s.regs.srcAddr s.regs.srcLen)
    (hv : s.status.tblValid = true) (hk : 15 < s.regs.entryKeyPos.toNat) :
    entCommand dir s = afterError .cfg s.regs.entryKeyPos s := by
  refine entCommand_of_error (e := (.cfg, s.regs.entryKeyPos)) ?_
  rw [entChecks, srcWindowError_of_legal hw, tableError, if_pos hv, keyPosError_eq_some.2 ⟨hk, rfl⟩]
  rfl

/-- Settles O26: both commands start from `buildSk` and no word changes it. -/
theorem entDerivesSecretArray : Obligations.EntDerivesSecretArray := by
  unfold Obligations.EntDerivesSecretArray
  rintro i s (rfl | rfl) hw hv hk
  · obtain ⟨e, x, h⟩ := entCommand_ciphered .decrypt hw hv hk
    exact ⟨_, exec_entDecrypt s, h.secretArray⟩
  · obtain ⟨e, x, h⟩ := entCommand_ciphered .encrypt hw hv hk
    exact ⟨_, exec_entEncrypt s, h.secretArray⟩

/-- Settles O27: `decryptWord` is the formula of R142, and the three errors are the checks of R185. -/
theorem entDecryptDecodesWindow : Obligations.EntDecryptDecodesWindow := by
  unfold Obligations.EntDecryptDecodesWindow
  refine fun s => ⟨fun hw hv hk => ?_, exec_of_illegalSrc nofun nofun, fun hw hv => ?_, fun hw hv hk => ?_⟩
  · obtain ⟨e, x, h⟩ := entCommand_ciphered .decrypt hw hv hk
    refine ⟨_, _, _, x, _, exec_entDecrypt s, h.secretArray, h.trajectory hk,
      fun i hi => ⟨h.reads i hi, ?_, h.stores i hi⟩, h.tail, h.outside, h.draws, h.frame⟩
    rw [h.sk_eq hi, decryptRef_eq]
    rfl
  · rw [exec_entDecrypt, entCommand_of_noTable hw hv]
  · rw [exec_entDecrypt, entCommand_of_keyPos .decrypt hw hv hk]

/-- Settles O28: `encryptWord` is the formula of R143, the tail search is unique over a permutation, and the three errors are
the checks of R185. -/
theorem entEncryptEncodesWindow : Obligations.EntEncryptEncodesWindow := by
  unfold Obligations.EntEncryptEncodesWindow
  refine fun s => ⟨fun hw hv hk => ?_, exec_of_illegalSrc nofun nofun, fun hw hv => ?_, fun hw hv hk => ?_⟩
  · obtain ⟨e, x, h⟩ := entCommand_ciphered .encrypt hw hv hk
    refine ⟨_, _, _, x, exec_entEncrypt s, h.secretArray, h.trajectory hk, fun i hi => ⟨h.reads i hi, ?_⟩,
      fun hperm a hlo hhi => ?_, h.outside, h.draws, h.frame⟩
    · rw [h.stores i hi, h.sk_eq hi, encryptRef_eq]
      rfl
    · obtain ⟨b, hread, hb⟩ := h.tail a hlo hhi
      exact ⟨b, tblIndexOf s.tbl b, hread, fun _ => tblGet_eq_iff hperm, hb⟩
  · rw [exec_entEncrypt, entCommand_of_noTable hw hv]
  · rw [exec_entEncrypt, entCommand_of_keyPos .encrypt hw hv hk]

/-! ### The inverse law (R144) -/

/-- The command that undoes a command. -/
def Direction.inverse : Direction → Direction
  | .decrypt => .encrypt
  | .encrypt => .decrypt

theorem cipherWord_inverse (dir : Direction) (r : PortRegs) (e : EntState) (x : Word) :
    cipherWord dir.inverse r e (cipherWord dir r e x) = x := by
  cases dir with
  | decrypt => exact encryptWord_decryptWord r e x
  | encrypt => exact decryptWord_encryptWord r e x

/-- A word step and its undoing have one plaintext word. -/
theorem plainWord_inverse (dir : Direction) (x y : Word) : plainWord dir.inverse y x = plainWord dir x y := by
  cases dir <;> rfl

/-- R142: a tail byte is transformed as SUB.DECODE #EntryTailKey transforms it. -/
theorem tailByte_decrypt (t : Vector Byte 256) (key b : Byte) : tailByte .decrypt t key b = subDecodeByte t key b := by
  rw [tailByte, subDecodeByte, BitVec.xor_comm]

theorem tailByte_encrypt (t : Vector Byte 256) (key b : Byte) : tailByte .encrypt t key b = subEncodeByte t key b := rfl

theorem tailByte_inverse {t : Vector Byte 256} (ht : isPermutation t) (dir : Direction) (key b : Byte) :
    tailByte dir.inverse t key (tailByte dir t key b) = b := by
  cases dir with
  | decrypt =>
    rw [Direction.inverse, tailByte_decrypt, tailByte_encrypt]
    exact subEncodeByte_subDecodeByte ht key b
  | encrypt =>
    rw [Direction.inverse, tailByte_decrypt, tailByte_encrypt]
    exact subDecodeByte_subEncodeByte ht key b

section
variable {dir : Direction} {s t u : State} {e e' : Nat → EntState} {x x' : Nat → Word} (h : Ciphered dir s t e x)
  (h' : Ciphered dir.inverse t u e' x')
include h h'

/-- The second command reads the words that the first one stored. -/
theorem Ciphered.reads_back {i : Nat} (hi : i < s.regs.srcLen.toNat / 4) : x' i = cipherWord dir s.regs (e i) (x i) := by
  have hreads := h'.reads i
  rw [h.regs_eq] at hreads
  exact (hreads hi).eq_of_wordAt (h.stores i hi)

/-- R143: both commands go through one sequence of ENT states, because they advance with the same plaintext words. -/
theorem Ciphered.retrace {i : Nat} (hi : i ≤ s.regs.srcLen.toNat / 4) : e' i = e i := by
  induction i with
  | zero => rw [h'.start, h.start, entStart, entStart, setEnt_ent, setEnt_ent, h.regs_eq, h.tbl_eq]
  | succ i ih =>
    have hstep := h'.advance i
    rw [h.regs_eq, h.reads_back h' hi, ih (Nat.le_of_succ_le hi), cipherWord_inverse, plainWord_inverse] at hstep
    rw [hstep hi, h.advance i hi]

/-- The second command puts every word back. -/
theorem Ciphered.stores_back {i : Nat} (hi : i < s.regs.srcLen.toNat / 4) :
    u.wordAt (s.regs.srcAddr.toNat + 4 * i) = some (x i) := by
  have hstores := h'.stores i
  rw [h.regs_eq, h.reads_back h' hi, h.retrace h' (Nat.le_of_lt hi), cipherWord_inverse] at hstores
  exact hstores hi

theorem Ciphered.byteAt_back (hperm : isPermutation s.tbl) (hwritten : s.windowWritten s.regs.srcAddr s.regs.srcLen)
    (a : Nat) : u.byteAt a = s.byteAt a := by
  by_cases ha : inWindow s.regs.srcAddr s.regs.srcLen a
  · obtain ⟨b, hb⟩ := Option.isSome_iff_exists.1 (hwritten a ha)
    rw [hb]
    obtain ⟨hlo, hhi⟩ := ha
    by_cases hword : a < s.regs.srcAddr.toNat + 4 * (s.regs.srcLen.toNat / 4)
    · obtain ⟨i, j, hi, hj, rfl⟩ : ∃ i j, i < s.regs.srcLen.toNat / 4 ∧ j < 4 ∧ a = s.regs.srcAddr.toNat + 4 * i + j :=
        ⟨(a - s.regs.srcAddr.toNat) / 4, (a - s.regs.srcAddr.toNat) % 4, by omega, by omega, by omega⟩
      have hu : u.byteAt (s.regs.srcAddr.toNat + 4 * i + j) = some (byteOf (x i) j) :=
        read?_of_word? (h.stores_back h' hi) hj
      rw [hu, h.reads i hi j hj b hb]
    · have htail' := h'.tail a
      rw [h.regs_eq, h.tbl_eq] at htail'
      obtain ⟨c, hc, ht⟩ := h.tail a (Nat.le_of_not_lt hword) hhi
      obtain ⟨c', hc', hu⟩ := htail' (Nat.le_of_not_lt hword) hhi
      rw [hu, ← hc' _ ht, tailByte_inverse hperm, hc b hb]
  · have hout := h'.outside a
    rw [h.regs_eq] at hout
    rw [hout ha, h.outside a ha]

theorem Ciphered.results_back : u.res0 = t.res0 ∧ u.res1 = t.res1 := by
  rw [h'.res0_eq, h'.res1_eq, h.res0_eq, h.res1_eq, h.regs_eq, h.retrace h' (Nat.le_refl _)]
  exact ⟨rfl, rfl⟩

end

/-- An ENT command and then the opposite one restore every byte and report the same results. -/
theorem entCommand_inverse (dir : Direction) {s : State} (hw : s.legalWindow s.regs.srcAddr s.regs.srcLen)
    (hv : s.status.tblValid = true) (hperm : isPermutation s.tbl) (hk : s.regs.entryKeyPos.toNat ≤ 15)
    (hwritten : s.windowWritten s.regs.srcAddr s.regs.srcLen) :
    (∀ a, (entCommand dir.inverse (entCommand dir s)).byteAt a = s.byteAt a) ∧
      (entCommand dir.inverse (entCommand dir s)).res0 = (entCommand dir s).res0 ∧
      (entCommand dir.inverse (entCommand dir s)).res1 = (entCommand dir s).res1 := by
  obtain ⟨e, x, h⟩ := entCommand_ciphered dir hw hv hk
  obtain ⟨e', x', h'⟩ := entCommand_ciphered dir.inverse (s := entCommand dir s)
    (by rwa [State.legalWindow, h.regs_eq, h.cfg_eq]) (h.tblValid_eq.trans hv) (by rwa [h.regs_eq])
  exact ⟨h.byteAt_back h' hperm hwritten, h.results_back h'⟩

/-- Settles O29: `entCommand_inverse` in both orders. -/
theorem entInverseLaw : Obligations.EntInverseLaw := by
  unfold Obligations.EntInverseLaw
  exact fun s hw hv hperm hk hwritten =>
    ⟨⟨_, _, exec_entEncrypt s, exec_entDecrypt _, entCommand_inverse .encrypt hw hv hperm hk hwritten⟩,
      ⟨_, _, exec_entDecrypt s, exec_entEncrypt _, entCommand_inverse .decrypt hw hv hperm hk hwritten⟩⟩

end Sys2Proof.Machine
end

section
/-! PROOF. NOP and the buffer port's write (spec/43_host_and_system.md R160, R163). The part that other statements can use: what
accept and a completion without error leave together (`complete_accept`), what a byte write stores (`byteAt_writeByte`), and
the two idle cases of a buffer write (`writeBuffer_of_inside`, `writeBuffer_of_outside`). -/

namespace Sys2Proof.Machine

open Sys2Proof

/-! ### NOP (R160) -/

/-- A command that does nothing between its accept and its completion clears the error report and keeps TBL_VALID, WBUSY
and all the rest. -/
theorem complete_accept (r0 r1 w : Word) (s : State) :
    complete r0 r1 (accept w s) =
      { s with res0 := r0, res1 := r1, status := { s.status with done := true, err := false }, errcode := .none,
               errinfo := 0, running := none } := by
  rw [complete_eq, accept_eq]
  rfl

/-- Settles O21: NOP is its completion, from any state and so right after its own accept. -/
theorem nopCompletes : Obligations.NopCompletes := by
  unfold Obligations.NopCompletes
  refine ⟨exec_nop, fun s => ?_⟩
  rw [exec_nop, complete_accept]

/-! ### The buffer port's write (R163) -/

theorem byteAt_writeByte (a : Nat) (b : Byte) (s : State) (x : Nat) :
    (writeByte a b s).byteAt x = if x = a then some b else s.byteAt x := read?_write s.mem a x b

theorem hostEvent_bufWrite (a : Word) (b : Byte) (s : State) : hostEvent (.bufWrite a b) s = writeBuffer a b s := rfl

section

variable {s : State} {a : Word} (hidle : s.busy = false) (b : Byte)
include hidle

theorem writeBuffer_of_inside (ha : a.toNat < s.cfg.bufSize) : writeBuffer a b s = writeByte a.toNat b s := by
  rw [writeBuffer, if_neg (by simp [hidle]), if_pos ha]

theorem writeBuffer_of_outside (ha : s.cfg.bufSize ≤ a.toNat) : writeBuffer a b s = s := by
  rw [writeBuffer, if_neg (by simp [hidle]), if_neg (Nat.not_lt.2 ha)]

end

/-- Settles O46: the three cases of `writeBuffer`, the first by what a byte write stores. -/
theorem bufferWriteStoresByte : Obligations.BufferWriteStoresByte := by
  unfold Obligations.BufferWriteStoresByte
  intro s a b
  rw [hostEvent_bufWrite]
  refine ⟨fun hidle ha => ?inside, fun hidle ha => writeBuffer_of_outside hidle b ha, fun hbusy => ?dropped⟩
  case inside =>
    rw [writeBuffer_of_inside hidle b ha]
    exact ⟨by rw [byteAt_writeByte, if_pos rfl], fun x hx => by rw [byteAt_writeByte, if_neg hx], rfl⟩
  case dropped =>
    rw [writeBuffer_of_busy hbusy]
    rfl

end Sys2Proof.Machine
end

section
/-! PROOF. Host writes while BUSY = 1 and the life of WBUSY (spec/60_exceptions.md R183). The part that other statements can
use: a command leaves WBUSY as it is (`exec_wbusy`), and so does every register store but a write of 1 to STATUS bit 4
(`storeReg_wbusy`); a host event other than those and a reset keeps it set (`hostEvent_keeps_wbusy`). -/

namespace Sys2Proof.Machine

open Sys2Proof

/-! ### A command leaves WBUSY as it is -/

theorem EndsCommand.wbusy_eq {u t : State} (h : EndsCommand u t) : t.status.wbusy = u.status.wbusy := by
  obtain ⟨_, _, rfl⟩ | ⟨_, _, _, rfl⟩ := h <;> rfl

theorem exec_wbusy {i : Instr} {s t : State} (h : exec i s = .next t) : t.status.wbusy = s.status.wbusy := by
  by_cases hi : i = .subInit
  · subst hi
    obtain ⟨tbl, t', heq, hends⟩ := exec_subInit_ends s
    obtain rfl : t' = t := Host.Outcome.next.inj (heq.symm.trans h)
    exact hends.wbusy_eq
  · obtain ⟨u, t', heq, hwork, hends⟩ := exec_ends hi s
    obtain rfl : t' = t := Host.Outcome.next.inj (heq.symm.trans h)
    rw [hends.wbusy_eq, hwork.status_eq]

/-! ### A host event keeps WBUSY set -/

theorem clearBy_wbusy {v : Word} (hv : v.getLsbD 4 = false) (x : Status) : (x.clearBy v).wbusy = x.wbusy := by
  rw [Status.clearBy, hv, Bool.not_false, Bool.and_true]

theorem storeReg_wbusy {v : Word} {r : PortReg} (hclear : r = .status → v.getLsbD 4 = false) (s : State) :
    (storeReg v s r).status.wbusy = s.status.wbusy := by
  cases r with
  | status => exact clearBy_wbusy (hclear rfl) s.status
  | _ => rfl

theorem writeReg_keeps_wbusy {o : Offset} {v : Word} {s : State} (hset : s.status.wbusy = true)
    (hclear : regAt o = some .status → s.busy = false → v.getLsbD 4 = false) : (writeReg o v s).status.wbusy = true := by
  cases hbusy : s.busy with
  | true => exact congrArg (·.status.wbusy) (writeReg_of_busy hbusy o v)
  | false =>
    cases hreg : regAt o with
    | none =>
      rw [writeReg, if_neg (by simp [hbusy]), hreg]
      exact hset
    | some r =>
      rw [writeReg_of_idle hbusy hreg, storeReg_wbusy (fun hr => hclear (hr ▸ hreg) hbusy), hset]

theorem writeBuffer_keeps_wbusy {s : State} (hset : s.status.wbusy = true) (a : Word) (b : Byte) :
    (writeBuffer a b s).status.wbusy = true := by
  cases hbusy : s.busy with
  | true => exact congrArg (·.status.wbusy) (writeBuffer_of_busy hbusy a b)
  | false =>
    rcases Nat.lt_or_ge a.toNat s.cfg.bufSize with ha | ha
    · rw [writeBuffer_of_inside hbusy b ha]
      exact hset
    · rw [writeBuffer_of_outside hbusy b ha]
      exact hset

/-- R183: only a reset and a write of 1 to STATUS bit 4 while BUSY = 0 clear WBUSY. -/
theorem hostEvent_keeps_wbusy {op : HostOp} (hreset : ¬(op = .resetInput ∨ op = .powerOn)) {s : State}
    (hset : s.status.wbusy = true)
    (hclear : ∀ o v, op = .regWrite o v → regAt o = some .status → s.busy = false → v.getLsbD 4 = false) :
    (hostEvent op s).status.wbusy = true := by
  cases op with
  | regWrite o v => exact writeReg_keeps_wbusy hset (hclear o v rfl)
  | regRead o =>
    obtain ⟨d, -, heq⟩ := hostEvent_regRead o s
    rw [heq]
    exact hset
  | bufWrite a b => exact writeBuffer_keeps_wbusy hset a b
  | bufRead a =>
    obtain ⟨d, -, heq⟩ := hostEvent_bufRead a s
    rw [heq]
    exact hset
  | resetInput => exact absurd (.inl rfl) hreset
  | powerOn => exact absurd (.inr rfl) hreset

/-! ### A step keeps WBUSY set -/

theorem step_keeps_wbusy {s t : State} (h : step s = .next t) (hset : s.status.wbusy = true) (hr : ¬resetIsNext s)
    (hclear : ∀ x ∈ s.pending.head?, ∀ o v, x.op = .regWrite o v → regAt o = some .status → s.busy = false →
      v.getLsbD 4 = false) : t.status.wbusy = true := by
  rcases step_cases s with ⟨_, i, -, -, -, hstep⟩ | ⟨_, _, -, -, -, hstep⟩ | ⟨x, rest, hp, -, hstep⟩ | ⟨-, -, hstep⟩
  · exact (exec_wbusy (hstep.symm.trans h)).trans hset
  · obtain rfl := Host.Outcome.next.inj (hstep.symm.trans h)
    exact (raiseError_endsCommand _ _ _ s).wbusy_eq.trans hset
  · obtain rfl := Host.Outcome.next.inj (hstep.symm.trans h)
    have hhead : x ∈ s.pending.head? := by simp [hp]
    exact hostEvent_keeps_wbusy (fun hx => hr ⟨x, hhead, hx⟩) hset (hclear x hhead)
  · obtain rfl := Host.Outcome.next.inj (hstep.symm.trans h)
    exact hset

/-- Settles O44: while busy both ports answer a write with `dropWrite`, and every move of a step keeps WBUSY set. -/
theorem busyWritesAreDropped : Obligations.BusyWritesAreDropped := by
  unfold Obligations.BusyWritesAreDropped
  exact ⟨fun s o v a b hbusy => ⟨writeReg_of_busy hbusy o v, writeBuffer_of_busy hbusy a b⟩, fun _ _ => step_keeps_wbusy⟩

end Sys2Proof.Machine
end

section
/-! PROOF. What every command reports and what it leaves of buffer RAM (spec/10_state.md R37, spec/60_exceptions.md R181 to
R186). The part that other statements can use: how a command ends, with the code of its error (`ReportsEnd`), and the work of
the engine before it, which keeps buffer RAM canonical and inside the buffer (`exec_reports`). -/

namespace Sys2Proof.Machine

open Sys2Proof

/-! ### Buffer RAM under the engine's work -/

/-- The memory of `u` is canonical and inside the buffer if that of `s` is. -/
structure KeepsBuffer (s u : State) : Prop where
  wf : Memory.wf s.mem → Memory.wf u.mem
  within : Memory.within s.mem s.cfg.bufSize → Memory.within u.mem s.cfg.bufSize

theorem KeepsBuffer.refl (s : State) : KeepsBuffer s s := ⟨id, id⟩

theorem KeepsBuffer.of_mem_eq {s u : State} (h : u.mem = s.mem) : KeepsBuffer s u := ⟨fun hm => h ▸ hm, fun hm => h ▸ hm⟩

theorem mapBytes_keepsBuffer (f : Byte → Byte) {s : State} (hw : s.legalWindow s.regs.srcAddr s.regs.srcLen) :
    KeepsBuffer s (mapBytes f s.regs.srcAddr.toNat s.regs.srcLen.toNat s) := by
  obtain ⟨m, d, heq, -, -, -, -, hwf, hin⟩ := mapBytes_spec f s.regs.srcAddr.toNat s.regs.srcLen.toNat s
  rw [heq]
  exact ⟨hwf, hin _ hw⟩

theorem entBody_keepsBuffer (dir : Direction) {s : State} (hw : s.legalWindow s.regs.srcAddr s.regs.srcLen) :
    KeepsBuffer s (entBody dir s) := by
  obtain ⟨m, d, e, x, heq, -, -, -, -, -, -, hwf, hin⟩ := entBody_spec dir s
  rw [heq]
  exact ⟨hwf, hin _ hw⟩

theorem hufBody_keepsBuffer {s : State} (hw : s.legalWindow s.regs.dstAddr s.regs.dstLen) :
    KeepsBuffer s (hufBody s).final := by
  have hparse := parseTree_reads (s.cfg.hufMaxId - 255) (hufStart s)
  obtain heq | ⟨root, -, heq⟩ := final_andThen (parseTree (s.cfg.hufMaxId - 255) (hufStart s))
    fun root s => decodeSymbols root s.regs.dstLen.toNat s
  · exact .of_mem_eq (by rw [hufBody, heq]; exact hparse.mem_eq)
  · rw [hufBody, heq]
    generalize (parseTree (s.cfg.hufMaxId - 255) (hufStart s)).final = u at hparse
    have hregs : u.regs = s.regs := hparse.regs_eq
    have hout : u.huf.out = 0 := hparse.out_eq
    have hmem : u.mem = s.mem := hparse.mem_eq
    obtain ⟨m, d, h, hfinal, -, -, -, -, -, -, hwf, hin⟩ := decodeSymbols_spec root u.regs.dstLen.toNat u
    rw [hmem] at hwf hin
    rw [hregs, hout] at hin
    rw [hfinal]
    exact ⟨hwf, hin _ hw⟩

/-! ### How a command ends, with the code of its error -/

/-- `t` is `u` after a completion, or after an error whose code is not 0 (R181, R184, R186). -/
def ReportsEnd (u t : State) : Prop :=
  (∃ r0 r1, t = complete r0 r1 u) ∨ ∃ e r0 r1, e.1 ≠ .none ∧ t = raiseError e r0 r1 u

theorem hufBody_reportsEnd (s : State) : ReportsEnd (hufBody s).final (hufComplete (hufBody s)) := by
  cases h : hufBody s with
  | value a u => exact .inl ⟨_, _, rfl⟩
  | raised e u =>
    have hcode : e ≠ .none := by
      obtain rfl | rfl := hufBody_raised h
      exacts [nofun, nofun]
    exact .inr ⟨_, _, _, hcode, rfl⟩

/-- R184: no check reports the code 0. -/
theorem acceptChecks_code_ne_none {i : Instr} {s : State} {e : ErrReport} (h : some e ∈ acceptChecks i s) :
    e.1 ≠ .none := by
  obtain ⟨-, rfl⟩ | ⟨-, -, rfl⟩ | ⟨-, -, rfl⟩ | ⟨-, rfl⟩ | ⟨-, rfl⟩ := acceptChecks_cases h <;> exact nofun

/-- A command other than SUB.INIT that passes its checks: the engine's work inside the windows, then its end. -/
theorem exec_reports_of_accepted {i : Instr} (hi : i ≠ .subInit) {s : State} (hc : firstError (acceptChecks i s) = none) :
    ∃ u t, exec i s = .next t ∧ EngineWork s u ∧ KeepsBuffer s u ∧ ReportsEnd u t := by
  cases i with
  | nop => exact ⟨s, _, exec_nop s, .refl s, .refl s, .inl ⟨0, 0, rfl⟩⟩
  | subInit => exact absurd rfl hi
  | hufDecode =>
    obtain ⟨-, hdst, -⟩ := hufChecks_eq_none.1 hc
    exact ⟨_, _, execHufDecode_of_checks hc, hufBody_engineWork s, hufBody_keepsBuffer hdst, hufBody_reportsEnd s⟩
  | subDecode k =>
    obtain ⟨hsrc, -⟩ := subChecks_eq_none.1 hc
    exact ⟨_, _, (exec_subDecode k s).trans (congrArg _ (substitute_of_checks hc)), mapBytes_engineWork _ _ _ s,
      mapBytes_keepsBuffer _ hsrc, .inl ⟨_, _, rfl⟩⟩
  | subEncode k =>
    obtain ⟨hsrc, -⟩ := subChecks_eq_none.1 hc
    exact ⟨_, _, (exec_subEncode k s).trans (congrArg _ (substitute_of_checks hc)), mapBytes_engineWork _ _ _ s,
      mapBytes_keepsBuffer _ hsrc, .inl ⟨_, _, rfl⟩⟩
  | entDecrypt =>
    obtain ⟨hsrc, -⟩ := entChecks_eq_none.1 hc
    exact ⟨_, _, (exec_entDecrypt s).trans (congrArg _ (entCommand_of_checks hc)), entBody_engineWork _ s,
      entBody_keepsBuffer _ hsrc, .inl ⟨_, _, rfl⟩⟩
  | entEncrypt =>
    obtain ⟨hsrc, -⟩ := entChecks_eq_none.1 hc
    exact ⟨_, _, (exec_entEncrypt s).trans (congrArg _ (entCommand_of_checks hc)), entBody_engineWork _ s,
      entBody_keepsBuffer _ hsrc, .inl ⟨_, _, rfl⟩⟩

/-- All that a command other than SUB.INIT can do: work of the engine that keeps buffer RAM in order, then its end. -/
theorem exec_reports {i : Instr} (hi : i ≠ .subInit) (s : State) :
    ∃ u t, exec i s = .next t ∧ EngineWork s u ∧ KeepsBuffer s u ∧ ReportsEnd u t := by
  cases hc : firstError (acceptChecks i s) with
  | some e =>
    exact ⟨s, _, exec_of_acceptError hc, .refl s, .refl s,
      .inr ⟨e, 0, 0, acceptChecks_code_ne_none (mem_of_firstError hc), rfl⟩⟩
  | none => exact exec_reports_of_accepted hi hc

/-- Settles O10: the engine's work leaves STATUS and the report alone, the end of a command is a completion or an error with a
code, and SUB.INIT alone writes TBL_VALID. -/
theorem commandsSetOnlyTheirFlags : Obligations.CommandsSetOnlyTheirFlags := by
  unfold Obligations.CommandsSetOnlyTheirFlags
  intro i s t h
  by_cases hi : i = .subInit
  · subst hi
    obtain rfl := Host.Outcome.next.inj ((exec_subInit_eq s).symm.trans h)
    exact ⟨rfl, rfl, fun _ => ⟨rfl, rfl⟩, .inl ⟨rfl, rfl, rfl, rfl⟩⟩
  · obtain ⟨u, t', heq, ⟨m, d, x, e, rfl⟩, -, hend⟩ := exec_reports hi s
    obtain rfl : t' = t := Host.Outcome.next.inj (heq.symm.trans h)
    obtain ⟨r0, r1, rfl⟩ | ⟨e, r0, r1, hcode, rfl⟩ := hend
    · simp [complete_eq, Status.atDone]
    · simp [raiseError_eq, Status.atError, hcode]

/-- Settles O11: neither the engine's work nor the end of a command touches these fields, nor does SUB.INIT. -/
theorem commandsKeepHostRegisters : Obligations.CommandsKeepHostRegisters := by
  unfold Obligations.CommandsKeepHostRegisters
  intro i s t h
  by_cases hi : i = .subInit
  · subst hi
    obtain rfl := Host.Outcome.next.inj ((exec_subInit_eq s).symm.trans h)
    exact ⟨rfl, rfl, rfl, rfl⟩
  · obtain ⟨u, t', heq, ⟨m, d, x, e, rfl⟩, hend⟩ := exec_ends hi s
    obtain rfl : t' = t := Host.Outcome.next.inj (heq.symm.trans h)
    obtain ⟨r0, r1, rfl⟩ | ⟨e, r0, r1, rfl⟩ := hend
    · simp [complete_eq]
    · simp [raiseError_eq]

/-- Settles O20: these four codes come from the checks only, and a failed check leaves nothing but its report. -/
theorem acceptErrorsChangeNothing : Obligations.AcceptErrorsChangeNothing := by
  unfold Obligations.AcceptErrorsChangeNothing
  intro i s t hs h hcode
  cases hc : firstError (acceptChecks i s) with
  | some e =>
    obtain rfl := Host.Outcome.next.inj ((exec_of_acceptError hc).symm.trans h)
    rfl
  | none =>
    obtain heq | ⟨-, heq | heq⟩ := exec_errcode_of_accepted hc h
    · rw [heq, hs] at hcode
      simp at hcode
    all_goals
      rw [heq] at hcode
      simp at hcode

end Sys2Proof.Machine
end

section
/-! PROOF. The invariant of the block (spec/10_state.md R23, R25, R26, spec/20_memory.md R40, spec/41_substitution.md R121):
it holds after reset, and every step keeps it. The part that other statements can use: which changes of a state keep it
(`Inv.congr`, `Inv.setStatus`, `Inv.setMem`, `Inv.accept`), and what a host event leaves of it (`Inv.hostEvent`). -/

namespace Sys2Proof.Machine

open Sys2Proof

/-! ### Changes that keep the invariant -/

section
variable {s : State} (h : Inv s)
include h

/-- The invariant speaks of the parameters, buffer RAM, STATUS, the error report, the latch and TBL only. -/
theorem Inv.congr {t : State}
    (heq : t = { s with regs := t.regs, res0 := t.res0, res1 := t.res1, huf := t.huf, ent := t.ent, draws := t.draws,
                        pending := t.pending, responses := t.responses }) : Inv t := by
  rw [heq]
  exact ⟨h.cfg_wf, h.mem_wf, h.mem_within, h.not_both, h.busy_clear, h.done_report, h.err_report, h.table⟩

/-- Clearing STATUS bits keeps it, and so does any change of WBUSY. -/
theorem Inv.setStatus {x : Status} (hdone : x.done = true → s.status.done = true)
    (herr : x.err = true → s.status.err = true) (htbl : x.tblValid = true → s.status.tblValid = true) :
    Inv (s.setStatus x) where
  cfg_wf := h.cfg_wf
  mem_wf := h.mem_wf
  mem_within := h.mem_within
  not_both := fun ⟨hd, he⟩ => h.not_both ⟨hdone hd, herr he⟩
  busy_clear hbusy := by
    obtain ⟨hd, he, hcode, hinfo⟩ := h.busy_clear hbusy
    exact ⟨Bool.eq_false_iff.2 fun hx => by simp [hdone hx] at hd, Bool.eq_false_iff.2 fun hx => by simp [herr hx] at he,
      hcode, hinfo⟩
  done_report hd := h.done_report (hdone hd)
  err_report he := h.err_report (herr he)
  table hv := h.table (htbl hv)

theorem Inv.setMem {m : List Host.Cell} (hwf : Memory.wf m) (hin : Memory.within m s.cfg.bufSize) : Inv (s.setMem m) :=
  ⟨h.cfg_wf, hwf, hin, h.not_both, h.busy_clear, h.done_report, h.err_report, h.table⟩

/-- R180: an accept clears the report. -/
theorem Inv.accept (w : Word) : Inv (accept w s) :=
  ⟨h.cfg_wf, h.mem_wf, h.mem_within, nofun, fun _ => ⟨rfl, rfl, rfl, rfl⟩, nofun, nofun, h.table⟩

theorem Inv.dropWrite : Inv (dropWrite s) := h.setStatus id id id

/-! ### The end of a command -/

/-- A completion or an error ends a command that ran with a clear report. -/
theorem Inv.reportsEnd (hbusy : s.busy = true) {u t : State} (hwork : EngineWork s u) (hbuf : KeepsBuffer s u)
    (hend : ReportsEnd u t) : Inv t := by
  obtain ⟨hdone, herr, hcode, hinfo⟩ := h.busy_clear hbusy
  obtain ⟨m, d, x, e, rfl⟩ := hwork
  have hwf : Memory.wf m := hbuf.wf h.mem_wf
  have hin : Memory.within m s.cfg.bufSize := hbuf.within h.mem_within
  obtain ⟨r0, r1, rfl⟩ | ⟨e, r0, r1, hne, rfl⟩ := hend
  · constructor
    case mem_within => exact hin
    case table => simpa [complete_eq, Status.atDone] using h.table
    all_goals simp [complete_eq, Status.atDone, h.cfg_wf, hwf, herr, hcode, hinfo]
  · constructor
    case mem_within => exact hin
    case table => simpa [raiseError_eq, Status.atError] using h.table
    all_goals simp [raiseError_eq, Status.atError, h.cfg_wf, hwf, hdone, hne]

theorem Inv.exec (hbusy : s.busy = true) {i : Instr} {t : State} (hexec : exec i s = .next t) : Inv t := by
  by_cases hi : i = .subInit
  · subst hi
    obtain rfl := Host.Outcome.next.inj ((exec_subInit_eq s).symm.trans hexec)
    obtain ⟨-, herr, hcode, hinfo⟩ := h.busy_clear hbusy
    exact ⟨h.cfg_wf, h.mem_wf, h.mem_within, fun ⟨_, he⟩ => by simp [herr] at he, nofun, fun _ => ⟨hcode, hinfo⟩,
      fun he => by simp [herr] at he, fun _ => subInitTable_isPermutation s.regs⟩
  · obtain ⟨u, t', heq, hwork, hbuf, hend⟩ := exec_reports hi s
    obtain rfl : t' = t := Host.Outcome.next.inj (heq.symm.trans hexec)
    exact h.reportsEnd hbusy hwork hbuf hend

/-! ### Host events -/

theorem Inv.storeReg (v : Word) (r : PortReg) : Inv (storeReg v s r) := by
  obtain ⟨-, heq⟩ | ⟨x, st, heq, hst⟩ := storeReg_frame v s r
  · rw [heq]
    exact h.accept v
  · rw [heq]
    have hregs : Inv (s.setRegs x) := h.congr rfl
    obtain rfl | rfl := hst
    · exact hregs.setStatus id id id
    · exact hregs.setStatus (fun hd => (Bool.and_eq_true_iff.1 hd).1) (fun he => (Bool.and_eq_true_iff.1 he).1) id

theorem Inv.writeReg (o : Offset) (v : Word) : Inv (writeReg o v s) := by
  unfold Machine.writeReg
  split
  · exact h.dropWrite
  · split
    · exact h
    · exact h.storeReg v _

theorem Inv.writeBuffer (a : Word) (b : Byte) : Inv (writeBuffer a b s) := by
  unfold Machine.writeBuffer
  split
  · exact h.dropWrite
  · split
    next ha => exact h.setMem (write_wf h.mem_wf _ _) (write_within h.mem_within ha _)
    next => exact h

end

/-- R39: the registers after a reset meet the invariant over any buffer RAM in order. -/
theorem inv_resetWith {p : Config.Params} (hp : p.wf = true) {m : List Host.Cell} (hwf : Memory.wf m)
    (hin : Memory.within m p.bufSize) : Inv ((State.resetWith p).setMem m) :=
  ⟨hp, hwf, hin, nofun, nofun, nofun, nofun, nofun⟩

theorem Inv.hostEvent {s : State} (h : Inv s) (op : HostOp) : Inv (hostEvent op s) := by
  cases op with
  | regWrite o v => exact h.writeReg o v
  | regRead o =>
    obtain ⟨d, -, heq⟩ := hostEvent_regRead o s
    rw [heq]
    exact h.congr rfl
  | bufWrite a b => exact h.writeBuffer a b
  | bufRead a =>
    obtain ⟨d, -, heq⟩ := hostEvent_bufRead a s
    rw [heq]
    exact h.congr rfl
  | resetInput =>
    obtain ⟨m, d, heq, -, -, -, hwf, hin⟩ := resetInput_spec s
    rw [Machine.hostEvent, heq]
    exact (inv_resetWith h.cfg_wf (hwf h.mem_wf) (hin h.mem_within)).congr rfl
  | powerOn =>
    rw [Machine.hostEvent, powerOn_eq]
    exact (inv_resetWith h.cfg_wf (m := []) .nil nofun).congr rfl

/-! ### Reset and step -/

theorem params_wf : Config.params.wf = true := by
  have hsize := Config.bufSizeAbove16.isLt
  refine decide_eq_true ⟨?_, ?_, by decide, by decide⟩ <;> simp only [Config.params, Config.bufSize] <;> omega

/-- Settles O14: the parameters are within R5, the registers those of R39, and no byte is written. -/
theorem resetMeetsInvariant : Obligations.ResetMeetsInvariant := inv_resetWith params_wf (m := []) .nil nofun

/-- Settles O16: each of the four moves of a step keeps the invariant. -/
theorem stepKeepsInvariant : Obligations.StepKeepsInvariant := by
  unfold Obligations.StepKeepsInvariant
  intro s t h hst
  rcases step_cases s with ⟨w, i, hrun, -, -, hstep⟩ | ⟨w, r, hrun, -, -, hstep⟩ | ⟨x, rest, -, -, hstep⟩ | ⟨-, -, hstep⟩
  · exact h.exec (by simp [State.busy, hrun]) (hstep.symm.trans hst)
  · obtain rfl := Host.Outcome.next.inj (hstep.symm.trans hst)
    exact h.reportsEnd (by simp [State.busy, hrun]) (.refl s) (.refl s) (.inr ⟨(.badCmd, w), 0, 0, nofun, rfl⟩)
  · obtain rfl := Host.Outcome.next.inj (hstep.symm.trans hst)
    have hrest : Inv (s.setPending rest) := h.congr rfl
    exact hrest.hostEvent x.op
  · obtain rfl := Host.Outcome.next.inj (hstep.symm.trans hst)
    exact h

end Sys2Proof.Machine
end

section
/-! PROOF. The moves of a step (spec/60_exceptions.md R180 to R182), how BUSY falls, and program P5. The part that other
statements can use: the three moves (`step_of_latched`, `step_of_hostEvent`, `step_of_idle`), what a run of steps is
(`run_succ`), and that the byte loop and a substitution command do not see the host's side of the ports
(`substitute_of_outside`). -/

namespace Sys2Proof.Machine

open Sys2Proof

/-! ### The moves of a step -/

theorem step_of_latched {s : State} {w : Word} {i : Instr} (hrun : s.running = some w) (hwait : hostWaits s)
    (hdec : decode w = .ok i) : step s = exec i s := by
  rw [step, nextMove_of_hostWaits hrun hwait]
  simp only [hdec]

theorem step_of_hostEvent {s : State} {x : HostTxn} {rest : List HostTxn} (hp : s.pending = x :: rest)
    (hfirst : s.running = none ∨ x.early = true) : step s = .next (hostEvent x.op (s.setPending rest)) := by
  have hmove : nextMove s = .host x.op rest := by
    rcases hfirst with hidle | hearly
    · rw [nextMove, hidle, hp]
    · cases hrun : s.running with
      | none => rw [nextMove, hrun, hp]
      | some w => rw [nextMove, hrun, hp]; exact if_pos hearly
  rw [step, hmove]

theorem step_of_idle {s : State} (hrun : s.running = none) (hp : s.pending = []) : step s = .next s := by
  rw [step, nextMove, hrun, hp]

/-- Settles O6: the three branches of `nextMove`. -/
theorem stepRunsLatchedCommand : Obligations.StepRunsLatchedCommand := by
  unfold Obligations.StepRunsLatchedCommand
  exact ⟨fun _ _ _ => step_of_latched, fun _ _ _ => step_of_hostEvent, fun _ => step_of_idle⟩

/-- Every command answers a next state. -/
theorem exec_goesOn (i : Instr) (s : State) : ∃ t, exec i s = .next t := by
  by_cases hi : i = .subInit
  · exact ⟨_, hi ▸ exec_subInit_eq s⟩
  · obtain ⟨-, t, heq, -⟩ := exec_ends hi s
    exact ⟨t, heq⟩

/-- Settles O8: no command stops, and no other move can. -/
theorem everyStepGoesOn : Obligations.EveryStepGoesOn := by
  unfold Obligations.EveryStepGoesOn
  intro s
  rcases step_cases s with ⟨w, i, -, -, -, hstep⟩ | ⟨w, r, -, -, -, hstep⟩ | ⟨x, rest, -, -, hstep⟩ | ⟨-, -, hstep⟩
  · rw [hstep]
    exact exec_goesOn i s
  all_goals exact ⟨_, hstep⟩

/-! ### BUSY falls (R182) -/

theorem coreRun_succ {M : Host.Core} {s t : M.State} (h : M.step s = .next t) (n : Nat) : M.run (n + 1) s = M.run n t := by
  rw [Host.Core.run, h]

theorem run_zero (s : State) : Sys2Proof.core.run 0 s = .next s := rfl

theorem run_succ {s t : State} (h : step s = .next t) (n : Nat) :
    Sys2Proof.core.run (n + 1) s = Sys2Proof.core.run n t :=
  coreRun_succ (M := Sys2Proof.core) h n

theorem HostEffect.pending_eq {s t : State} (h : HostEffect s t) : t.pending = s.pending :=
  (congrArg State.pending h).trans rfl

/-- No host event, a reset among them, touches the events still to come. -/
theorem hostEvent_pending (op : HostOp) (s : State) : (hostEvent op s).pending = s.pending := by
  by_cases hop : op = .resetInput ∨ op = .powerOn
  · obtain rfl | rfl := hop
    · obtain ⟨m, d, heq, -⟩ := resetInput_spec s
      rw [hostEvent, heq]
      rfl
    · rfl
  · exact (hostEvent_effect hop s).pending_eq

/-- While a command runs, a step ends it or takes a host event. -/
theorem step_of_busy {s : State} (hbusy : s.busy = true) :
    (∃ t, step s = .next t ∧ t.busy = false) ∨
      ∃ x rest, s.pending = x :: rest ∧ step s = .next (hostEvent x.op (s.setPending rest)) := by
  rcases step_cases s with ⟨w, i, -, -, -, hstep⟩ | ⟨w, r, -, -, -, hstep⟩ | ⟨x, rest, hp, -, hstep⟩ | ⟨hrun, -, -⟩
  · obtain ⟨t, heq⟩ := exec_goesOn i s
    obtain ⟨hrun, -⟩ := commandsSetOnlyTheirFlags i s t heq
    exact .inl ⟨t, hstep.trans heq, by rw [State.busy, hrun]; rfl⟩
  · exact .inl ⟨_, hstep, rfl⟩
  · exact .inr ⟨x, rest, hp, hstep⟩
  · simp [State.busy, hrun] at hbusy

/-- BUSY falls within one step more than there are host events to come: each step before the completion takes one of them. -/
theorem busy_falls (s : State) :
    ∃ n t, n ≤ s.pending.length + 1 ∧ Sys2Proof.core.run n s = .next t ∧ t.busy = false := by
  cases hbusy : s.busy with
  | false => exact ⟨0, s, Nat.zero_le _, run_zero s, hbusy⟩
  | true =>
    obtain ⟨t, hstep, hidle⟩ | ⟨x, rest, hp, hstep⟩ := step_of_busy hbusy
    · exact ⟨1, t, Nat.le_add_left _ _, (run_succ hstep 0).trans (run_zero t), hidle⟩
    · obtain ⟨n, t, hn, hrun, hidle⟩ := busy_falls (hostEvent x.op (s.setPending rest))
      rw [hostEvent_pending, setPending_pending] at hn
      exact ⟨n + 1, t, by rw [hp]; exact Nat.succ_le_succ hn, (run_succ hstep n).trans hrun, hidle⟩
termination_by s.pending.length
decreasing_by rw [hostEvent_pending, setPending_pending, hp]; exact Nat.lt_succ_self _

/-- Settles O9: `busy_falls`, which does not need a command to be running. -/
theorem acceptedCommandCompletes : Obligations.AcceptedCommandCompletes := by
  unfold Obligations.AcceptedCommandCompletes
  exact fun s _ => busy_falls s

/-! ### Program P5 -/

/-- The byte loop reads and writes buffer RAM and the number of the next draw only. -/
theorem mapBytes_congr (f : Byte → Byte) (a n : Nat) {s t : State} (hmem : t.mem = s.mem) (hdraws : t.draws = s.draws) :
    mapBytes f a n t = (t.setMem (mapBytes f a n s).mem).setDraws (mapBytes f a n s).draws := by
  induction n generalizing a s t with
  | zero => rw [mapBytes, mapBytes, ← hmem, ← hdraws, setMem_self, setDraws_self]
  | succ n ih =>
    have hread : (readByte a t).1 = (readByte a s).1 ∧ (readByte a t).2 = t.setDraws (readByte a s).2.draws ∧
        (readByte a s).2.mem = s.mem := by
      rcases readByte_cases a s with ⟨b, hb, heq⟩ | ⟨hnone, heq⟩
      · rw [heq, readByte_of_written (hmem ▸ hb), ← hdraws]
        exact ⟨rfl, rfl, rfl⟩
      · rw [heq, readByte_of_unwritten (hmem ▸ hnone), hdraws]
        exact ⟨rfl, rfl, rfl⟩
    obtain ⟨hbyte, hstate, hkept⟩ := hread
    rw [mapBytes_succ, mapBytes_succ, hbyte, hstate,
      ih (a + 1) (s := writeByte a (f (readByte a s).1) (readByte a s).2) (by simp [hkept, hmem]) (by simp)]
    simp

/-- `s` with other host events to come and another WBUSY: what the host's side of the ports can change under a running
command (R183). -/
def State.withOutside (s : State) (p : List HostTxn) (w : Bool) : State :=
  { s with pending := p, status := { s.status with wbusy := w } }

/-- A substitution command works on the operands of its accept and does not see the host's side of the ports. -/
theorem substitute_withOutside (f : Byte → Byte) (s : State) (p : List HostTxn) (w : Bool) :
    substitute f (s.withOutside p w) = (substitute f s).withOutside p w := by
  have hchecks : subChecks (s.withOutside p w) = subChecks s := rfl
  cases hc : subChecks s with
  | some e =>
    rw [substitute_of_error (hchecks.trans hc), substitute_of_error hc]
    rfl
  | none =>
    obtain ⟨m, d, heq, -⟩ := mapBytes_spec f s.regs.srcAddr.toNat s.regs.srcLen.toNat s
    have hloop : mapBytes f s.regs.srcAddr.toNat s.regs.srcLen.toNat (s.withOutside p w) =
        ((s.withOutside p w).setMem m).setDraws d := by
      have h := mapBytes_congr f s.regs.srcAddr.toNat s.regs.srcLen.toNat (s := s) (t := s.withOutside p w) rfl rfl
      rwa [heq] at h
    rw [substitute_of_checks (hchecks.trans hc), substitute_of_checks hc, heq]
    exact (congrArg (complete s.regs.srcLen 0) hloop).trans rfl

theorem exec_subDecode_withOutside {k : Byte} {s t : State} (h : exec (.subDecode k) s = .next t) (p : List HostTxn)
    (w : Bool) : exec (.subDecode k) (s.withOutside p w) = .next (t.withOutside p w) := by
  obtain rfl := Host.Outcome.next.inj ((exec_subDecode k s).symm.trans h)
  exact congrArg _ (substitute_withOutside _ s p w)

/-- The step that runs a latched SUB.DECODE, whatever the host's side of the ports holds for later. -/
theorem step_of_subDecode {k : Byte} {s t : State} (hrun : s.running = some (encode (.subDecode k)))
    (h : exec (.subDecode k) s = .next t) {p : List HostTxn} (hp : ∀ x ∈ p.head?, x.early = false) (w : Bool) :
    step (s.withOutside p w) = .next (t.withOutside p w) :=
  (step_of_latched (s := s.withOutside p w) hrun hp (decode_encode _)).trans (exec_subDecode_withOutside h p w)

/-- Settles O12: a substitution command gives the same result before and behind the host's write. -/
theorem writeBehindRunningCommand : Obligations.WriteBehindRunningCommand := by
  unfold Obligations.WriteBehindRunningCommand
  intro s k v e hrun hp
  have hexec := exec_subDecode k (s.setPending [])
  have hwbusy := exec_wbusy hexec
  obtain ⟨-, -, hpending, -⟩ := commandsKeepHostRegisters _ _ _ hexec
  obtain ⟨hidle, -⟩ := commandsSetOnlyTheirFlags _ _ _ hexec
  generalize substitute (subDecodeByte (s.setPending []).tbl k) (s.setPending []) = t at *
  have ht : t.withOutside [] t.status.wbusy = t := (congrArg t.setPending hpending.symm).trans (setPending_self t)
  cases e with
  | true =>
    have hdrop : step s = .next ((s.setPending []).withOutside [] true) := by
      rw [step_of_hostEvent hp (.inr rfl)]
      exact congrArg _ (writeReg_of_busy (by simp [State.busy, hrun]) 0x014 v)
    have hend := step_of_subDecode (s := s.setPending []) hrun hexec (p := []) (by simp) true
    refine ⟨t, _, hexec, (run_succ hdrop 1).trans (run_succ hend 0), fun _ => ?_, nofun⟩
    exact congrArg (fun u => u.withOutside u.pending true) ht
  | false =>
    have hs : s = (s.setPending []).withOutside [⟨.regWrite 0x014 v, false⟩] t.status.wbusy := by
      rw [hwbusy, ← hp]
      rfl
    have hend := step_of_subDecode (s := s.setPending []) hrun hexec (p := [⟨.regWrite 0x014 v, false⟩]) (by simp)
      t.status.wbusy
    rw [← hs] at hend
    have hstore : step (t.withOutside [⟨.regWrite 0x014 v, false⟩] t.status.wbusy) = .next (storeReg v t .srcLen) := by
      have hevent := step_of_hostEvent (s := t.withOutside [⟨.regWrite 0x014 v, false⟩] t.status.wbusy) rfl (.inl hidle)
      refine hevent.trans (congrArg _ ?_)
      exact (congrArg (writeReg 0x014 v) ht).trans (writeReg_of_idle (by rw [State.busy, hidle]; rfl) (by decide) v)
    exact ⟨t, _, hexec, (run_succ hend 1).trans (run_succ hstore 0), nofun, fun _ => rfl⟩

end Sys2Proof.Machine
end

section
/-! PROOF. Reset and power-on (spec/70_reset_and_hazards.md R200, R201, spec/10_state.md R39). The part that other statements
can use: what a reset leaves apart from buffer RAM (`IsReset`), and the window that it may draw, command by command. -/

namespace Sys2Proof.Machine

open Sys2Proof

/-! ### The registers after a reset (R39) -/

/-- `t` has the registers of R39 in the world of `s`; of TBL, the hidden HUF and ENT state, buffer RAM and the number of the
next draw nothing is said. -/
def IsReset (s t : State) : Prop :=
  t = { State.resetWith s.cfg with tbl := t.tbl, huf := t.huf, ent := t.ent, mem := t.mem, draws := t.draws,
                                   pending := s.pending, responses := s.responses }

theorem IsReset.statusWord_eq {s t : State} (h : IsReset s t) : statusWord t.busy t.status = 0 := by
  rw [h]
  exact (by decide : statusWord false ⟨false, false, false, false⟩ = 0)

theorem IsReset.regValue_eq {s t : State} (h : IsReset s t) {r : PortReg} (hr : ∀ j, r ≠ .tblwin j) :
    regValue t r = 0 := by
  cases r with
  | tblwin j => exact absurd rfl (hr j)
  | status => exact h.statusWord_eq
  | cmvsMd5 i => rw [h]; exact Vector.getElem_replicate _
  | secret j => rw [h]; exact Vector.getElem_replicate _
  | _ => rw [h]; rfl

theorem resetInput_isReset (s : State) : IsReset s (resetInput s) := by
  obtain ⟨m, d, heq, -⟩ := resetInput_spec s
  rw [heq]
  rfl

theorem powerOn_isReset (s : State) : IsReset s (powerOn s) := rfl

/-- Settles O13: the reset state is a reset with no byte written. -/
theorem resetStateIsZero : Obligations.ResetStateIsZero := by
  have h : IsReset State.reset State.reset := rfl
  exact ⟨h.statusWord_eq, fun r => h.regValue_eq, rfl, fun _ => rfl⟩

/-! ### Buffer RAM under a reset (R201) -/

theorem writtenWindow_of_idle {s : State} (hrun : s.running = none) : writtenWindow s = (0, 0) := by
  rw [writtenWindow, hrun]

section
variable {s : State} {w : Word} (hrun : s.running = some w)
include hrun

/-- NOP, SUB.INIT and an illegal word write no window. -/
theorem writtenWindow_of_none (h : ∀ i, decode w = .ok i → i = .nop ∨ i = .subInit) : writtenWindow s = (0, 0) := by
  rw [writtenWindow, hrun]
  cases hdec : decode w with
  | error r => simp only [hdec]
  | ok i => obtain rfl | rfl := h i hdec <;> simp only [hdec]

theorem writtenWindow_of_hufDecode (hdec : decode w = .ok .hufDecode) :
    writtenWindow s = (s.regs.dstAddr.toNat, s.regs.dstLen.toNat) := by
  rw [writtenWindow, hrun]
  simp only [hdec]

theorem writtenWindow_of_inPlace {i : Instr} (hdec : decode w = .ok i)
    (hi : (∃ k, i = .subDecode k ∨ i = .subEncode k) ∨ i = .entDecrypt ∨ i = .entEncrypt) :
    writtenWindow s = (s.regs.srcAddr.toNat, s.regs.srcLen.toNat) := by
  rw [writtenWindow, hrun]
  obtain ⟨k, rfl | rfl⟩ | rfl | rfl := hi <;> simp only [hdec]

end

/-- A reset keeps every byte where the running command writes none. -/
theorem resetInput_keeps {s : State} (h : writtenWindow s = (0, 0)) (a : Nat) : (resetInput s).byteAt a = s.byteAt a := by
  obtain ⟨m, d, heq, -, hout, -⟩ := resetInput_spec s
  rw [heq]
  exact hout a (by rw [h]; exact .inr (Nat.zero_le a))

/-- A reset draws the bytes of the written window that lie inside the buffer, and keeps every other byte. -/
theorem resetInput_window {s : State} {a l : Word} (h : writtenWindow s = (a.toNat, l.toNat)) :
    (∀ x, ¬inWindow a l x → (resetInput s).byteAt x = s.byteAt x) ∧
      ∀ x, inWindow a l x → x < s.cfg.bufSize → ((resetInput s).byteAt x).isSome = true := by
  obtain ⟨m, d, heq, -, hout, hin, -⟩ := resetInput_spec s
  rw [h] at hout hin
  rw [heq]
  exact ⟨fun x hx => hout x (by simp only; omega), fun x hx => hin x hx.1 hx.2⟩

/-- Settles O15: the registers are those of R39, and buffer RAM is drawn in the window of the running command. -/
theorem resetInputFromAnyState : Obligations.ResetInputFromAnyState := by
  unfold Obligations.ResetInputFromAnyState
  intro s
  refine ⟨fun op hop => ?_, fun a => rfl, fun hrun => resetInput_keeps (writtenWindow_of_idle hrun),
    fun w hrun hnone => resetInput_keeps (writtenWindow_of_none hrun hnone),
    fun w hrun hdec => resetInput_window (writtenWindow_of_hufDecode hrun hdec),
    fun w i hrun hdec hi => resetInput_window (writtenWindow_of_inPlace hrun hdec hi)⟩
  have h : IsReset s (hostEvent op s) := by
    obtain rfl | rfl := hop
    exacts [resetInput_isReset s, powerOn_isReset s]
  exact ⟨h, h.statusWord_eq, fun r => h.regValue_eq⟩

end Sys2Proof.Machine
end

section
/-! PROOF. The errors and the hidden state of HUF.DECODE over any memory (spec/40_huffman.md R100, R103, R104,
spec/10_state.md R35). The part that other statements can use: the bounds of the bit reader and of the parse
(`ReaderBounds`, `ParsesWithin`), what each part of the command leaves of them (`parseTree_within`, `descend_within`,
`decodeSymbols_within`, `hufBody_endsWithin`), the output bytes (`hufBody_writesOutput`), and a HUF.DECODE behind its checks
(`exec_hufDecode_of_accepted`). -/

namespace Sys2Proof.Machine

open Sys2Proof

/-! ### The command behind its checks -/

/-- A HUF.DECODE with two legal windows that share no byte runs its pseudocode. -/
theorem exec_hufDecode_of_accepted {s : State} (hsrc : s.legalWindow s.regs.srcAddr s.regs.srcLen)
    (hdst : s.legalWindow s.regs.dstAddr s.regs.dstLen)
    (hapart : ∀ a, inWindow s.regs.srcAddr s.regs.srcLen a → ¬inWindow s.regs.dstAddr s.regs.dstLen a) :
    exec .hufDecode s = .next (hufComplete (hufBody s)) := by
  have hoverlap : windowsOverlap s.regs.srcAddr s.regs.srcLen s.regs.dstAddr s.regs.dstLen = false :=
    Bool.eq_false_iff.2 fun hover => by
      obtain ⟨a, ha, ha'⟩ := windowsOverlap_iff.1 hover
      exact hapart a ha ha'
  rw [exec_hufDecode, execHufDecode_of_checks (hufChecks_eq_none.2 ⟨hsrc, hdst, hoverlap⟩)]

/-! ### The bounds of the bit reader (R103) -/

/-- Whole words have been fetched, from inside the SRC window, and at most one of them is cached. -/
structure ReaderBounds (s : State) : Prop where
  cached_le : s.huf.cached ≤ 32
  fetched_mod : s.huf.fetched % 4 = 0
  fetched_le : s.huf.fetched ≤ s.regs.srcLen.toNat

/-- Every whole word of the SRC window has been fetched. -/
def InputEnded (s : State) : Prop := s.huf.fetched = 4 * (s.regs.srcLen.toNat / 4)

/-- What reading bits does to the reader, whatever it delivers: the bounds stay, nothing but the reader moves, and where it
raises an error every whole word has been fetched. -/
structure ReadsWithin {α : Type} (s : State) (r : HufRun α) : Prop where
  reads : ReadsBits s r.final
  bounds : ReaderBounds r.final
  ended : ∀ e t, r = .raised e t → e = .hufInput ∧ InputEnded t

@[simp] theorem final_value {α : Type} (a : α) (s : State) : (HufRun.value a s).final = s := rfl
@[simp] theorem final_raised {α : Type} (e : ErrCode) (s : State) : (HufRun.raised e s : HufRun α).final = s := rfl

theorem ReadsWithin.of_value {α : Type} {s t : State} (a : α) (hreads : ReadsBits s t) (hbounds : ReaderBounds t) :
    ReadsWithin s (.value a t) :=
  ⟨hreads, hbounds, fun _ _ he => by cases he⟩

/-- A part that goes on behind a read within the bounds. -/
theorem ReadsWithin.andThen {α β : Type} {s : State} {r : HufRun α} (h : ReadsWithin s r) {f : α → State → HufRun β}
    (hf : ∀ a t, r = .value a t → ReaderBounds t → ReadsWithin t (f a t)) : ReadsWithin s (r.andThen f) := by
  obtain ⟨hreads, hbounds, hended⟩ := h
  cases r with
  | raised e t => exact ⟨hreads, hbounds, fun e' t' he => hended e' t' (by cases he; rfl)⟩
  | value a t =>
    obtain ⟨hreads', hbounds', hended'⟩ := hf a t rfl hbounds
    exact ⟨hreads.trans hreads', hbounds', hended'⟩

theorem ReaderBounds.fetchWord {s : State} (h : ReaderBounds s) (hroom : s.huf.fetched + 4 ≤ s.regs.srcLen.toNat) :
    ReadsBits s (fetchWord s) ∧ ReaderBounds (fetchWord s) := by
  obtain ⟨b0, b1, b2, b3, d, heq, hdraws, -⟩ := fetchWord_spec s
  rw [heq]
  have hmod := h.fetched_mod
  exact ⟨⟨⟨⟨_, d, rfl⟩, hdraws, Nat.le_refl _, rfl⟩, rfl⟩,
    ⟨Nat.le_refl 32, by simp only [setHuf_huf]; omega, hroom⟩⟩

theorem ReaderBounds.dropBit {s : State} (h : ReaderBounds s) :
    ReadsBits s (s.setHuf s.huf.dropBit) ∧ ReaderBounds (s.setHuf s.huf.dropBit) := by
  obtain ⟨hcached, hmod, hle⟩ := h
  exact ⟨⟨(HufReads.refl s).setHuf (Nat.le_refl _) rfl, rfl⟩,
    ⟨by simp only [setHuf_huf, HufState.dropBit]; omega, hmod, hle⟩⟩

theorem getBit_within {s : State} (h : ReaderBounds s) : ReadsWithin s (getBit s) := by
  rcases getBit_cases s with ⟨-, hend, heq⟩ | ⟨-, heq⟩ | ⟨-, hroom, heq⟩
  · rw [heq]
    refine ⟨.refl s, h, fun e t he => ?_⟩
    cases he
    obtain ⟨-, hmod, hle⟩ := h
    exact ⟨rfl, by unfold InputEnded; omega⟩
  · obtain ⟨hreads, hbounds⟩ := h.dropBit
    rw [heq]
    exact .of_value _ hreads hbounds
  · obtain ⟨hreads, hbounds⟩ := h.fetchWord hroom
    obtain ⟨hreads', hbounds'⟩ := hbounds.dropBit
    rw [heq]
    exact .of_value _ (hreads.trans hreads') hbounds'

theorem getBitsFrom_within (r n : Nat) {s : State} (h : ReaderBounds s) : ReadsWithin s (getBitsFrom r n s) := by
  induction n generalizing r s with
  | zero => exact .of_value r (.refl s) h
  | succ n ih =>
    rw [getBitsFrom]
    exact (getBit_within h).andThen fun bit t _ ht => ih _ ht

/-! ### The bounds of the tree parse (R35, R101) -/

/-- What a part of the parse leaves, where the ids end at `max`: the reader within its bounds, the node counter at
most one above the last id, at most `depth` frames; the stack `base` behind a value; and where it raises an error, the counter
one above the last id or the input at its end. -/
structure ParsesWithin (max depth : Nat) (base : List Frame) (r : HufRun Nat) : Prop where
  bounds : ReaderBounds r.final
  nextId_le : r.final.huf.nextId ≤ max + 1
  depth_le : r.final.huf.stack.length ≤ depth
  value : ∀ a t, r = .value a t → t.huf.stack = base
  raised : ∀ e t, r = .raised e t → e = .hufTree ∧ t.huf.nextId = max + 1 ∨ e = .hufInput ∧ InputEnded t

theorem ParsesWithin.of_value {max depth : Nat} {t : State} (a : Nat) (hbounds : ReaderBounds t)
    (hid : t.huf.nextId ≤ max + 1) (hdepth : t.huf.stack.length ≤ depth) :
    ParsesWithin max depth t.huf.stack (.value a t) :=
  ⟨hbounds, hid, hdepth, fun _ _ he => by cases he; rfl, fun _ _ he => by cases he⟩

/-- The id about to be taken is above the last one. -/
theorem ParsesWithin.of_hufTree {max depth : Nat} {base : List Frame} {t : State} (hbounds : ReaderBounds t)
    (hid : t.huf.nextId = max + 1) (hdepth : t.huf.stack.length ≤ depth) :
    ParsesWithin max depth base (.raised .hufTree t) :=
  ⟨hbounds, Nat.le_of_eq hid, hdepth, fun _ _ he => (by cases he), fun _ _ he => by cases he; exact .inl ⟨rfl, hid⟩⟩

theorem ReadsWithin.parsesWithin {max depth : Nat} {s : State} {r : HufRun Nat} (h : ReadsWithin s r)
    (hid : s.huf.nextId ≤ max + 1) (hdepth : s.huf.stack.length ≤ depth) : ParsesWithin max depth s.huf.stack r := by
  obtain ⟨hreads, hbounds, hended⟩ := h
  have hstack : r.final.huf.stack = s.huf.stack := by rw [hreads.kept]
  exact ⟨hbounds, hreads.nextId_eq ▸ hid, hstack ▸ hdepth, fun a t he => by rw [← hstack, he]; rfl,
    fun e t he => .inr (hended e t he)⟩

theorem ParsesWithin.andThen {max depth : Nat} {base base' : List Frame} {r : HufRun Nat} {f : Nat → State → HufRun Nat}
    (h : ParsesWithin max depth base r)
    (hf : ∀ a t, r = .value a t → ReaderBounds t → t.huf.nextId ≤ max + 1 → t.huf.stack = base →
      ParsesWithin max depth base' (f a t)) : ParsesWithin max depth base' (r.andThen f) := by
  obtain ⟨hbounds, hid, hdepth, hvalue, hraised⟩ := h
  cases r with
  | value a t => exact hf a t rfl hbounds hid (hvalue a t rfl)
  | raised e t =>
    exact ⟨hbounds, hid, hdepth, fun _ _ he => (by cases he), fun e' t' he => hraised e' t' (by cases he; rfl)⟩

theorem HufReads.of_value {α : Type} {s t : State} {r : HufRun α} (h : HufReads s r.final) {a : α} (hr : r = .value a t) :
    HufReads s t := by
  rwa [hr] at h

theorem ReaderBounds.setHuf {s : State} (h : ReaderBounds s) {x : HufState} (hcached : x.cached = s.huf.cached)
    (hfetched : x.fetched = s.huf.fetched) : ReaderBounds (s.setHuf x) :=
  ⟨hcached ▸ h.cached_le, hfetched ▸ h.fetched_mod, hfetched ▸ h.fetched_le⟩

/-- The parse keeps its bounds, if the room covers the ids that are left and the stack has space for it. -/
theorem parseTree_within {room max depth : Nat} {s : State} (hmax : s.cfg.hufMaxId = max) (h : ReaderBounds s)
    (hid : s.huf.nextId ≤ max + 1) (hroom : max + 1 ≤ room + s.huf.nextId)
    (hdepth : s.huf.stack.length + room ≤ depth) : ParsesWithin max depth s.huf.stack (parseTree room s) := by
  induction room generalizing s with
  | zero =>
    rw [parseTree_zero]
    refine ((getBitsFrom_within 0 1 h).parsesWithin hid (by omega)).andThen fun bit t hbit ht hidt hstack => ?_
    have hle := ((getBits_reads 1 s).of_value hbit).nextId_le
    rw [← hstack] at hdepth ⊢
    split
    · exact .of_hufTree ht (by omega) hdepth
    · exact (getBitsFrom_within 0 8 ht).parsesWithin hidt hdepth
  | succ room ih =>
    rw [parseTree_succ]
    refine ((getBitsFrom_within 0 1 h).parsesWithin hid (by omega)).andThen fun bit t hbit ht hidt hstack => ?_
    have hreads := (getBits_reads 1 s).of_value hbit
    have hle := hreads.nextId_le
    have hcfg : t.cfg.hufMaxId = max := hreads.cfg_eq ▸ hmax
    rw [← hstack] at hdepth ⊢
    split
    case isFalse => exact (getBitsFrom_within 0 8 ht).parsesWithin hidt (by omega)
    split
    case isTrue hfull => exact .of_hufTree ht (by omega) (by omega)
    case isFalse hfree =>
      have hopened : ReaderBounds (t.setHuf t.huf.openNode) := ht.setHuf rfl rfl
      refine (ih (s := t.setHuf t.huf.openNode) hcfg hopened ?_ ?_ ?_).andThen fun l u hl hu hidu hstacku => ?_
      · simp only [setHuf_huf, HufState.openNode_nextId]; omega
      · simp only [setHuf_huf, HufState.openNode_nextId]; omega
      · simp only [setHuf_huf, HufState.openNode, List.length_cons]; omega
      have hreadsu := (parseTree_reads room _).of_value hl
      have hleu := hreadsu.nextId_le
      simp only [setHuf_huf, HufState.openNode] at hleu hstacku
      have hclosed : ReaderBounds (u.setHuf (u.huf.closeLeft t.huf.nextId l)) := hu.setHuf rfl rfl
      refine (ih (s := u.setHuf (u.huf.closeLeft t.huf.nextId l)) ?_ hclosed ?_ ?_ ?_).andThen
        fun r v hr hv hidv hstackv => ?_
      · rw [setHuf_cfg, hreadsu.cfg_eq, setHuf_cfg, hcfg]
      · exact hidu
      · simp only [setHuf_huf, HufState.closeLeft_nextId]; omega
      · simp only [setHuf_huf, HufState.closeLeft, hstacku, List.tail_cons, List.length_cons]; omega
      simp only [setHuf_huf, HufState.closeLeft, hstacku, List.tail_cons] at hstackv
      have hleft : (v.setHuf (v.huf.closeRight t.huf.nextId r)).huf.stack = t.huf.stack := by
        simp only [setHuf_huf, HufState.closeRight, hstackv, List.tail_cons]
      rw [← hleft]
      exact .of_value _ (hv.setHuf rfl rfl) hidv (by rw [hleft]; omega)

/-! ### The bounds of the symbol loop (R102) -/

theorem descend_within {fuel sym : Nat} {s : State} (h : ReaderBounds s) (hfuel : bitsLeft s ≤ fuel) :
    ReadsWithin s (descend fuel sym s) := by
  induction fuel generalizing sym s with
  | zero =>
    rw [descend_zero]
    split
    · exact .of_value _ (.refl s) h
    · refine ⟨.refl s, h, fun e t he => ?_⟩
      cases he
      obtain ⟨-, hmod, hle⟩ := h
      unfold bitsLeft at hfuel
      exact ⟨rfl, by unfold InputEnded; omega⟩
  | succ fuel ih =>
    rw [descend_succ, getBits_one]
    split
    · exact .of_value _ (.refl s) h
    · refine (getBit_within h).andThen fun bit t hbit ht => ih ht ?_
      have := (bitsLeft_getBit s).2 bit t hbit
      omega

/-- What the symbol loop leaves of the reader, of the node counter and of the stack. -/
structure DecodesWithin (s : State) (r : HufRun Unit) : Prop where
  bounds : ReaderBounds r.final
  nextId_eq : r.final.huf.nextId = s.huf.nextId
  stack_eq : r.final.huf.stack = s.huf.stack
  ended : ∀ e t, r = .raised e t → InputEnded t

theorem decodeSymbols_within (root n : Nat) {s : State} (h : ReaderBounds s) :
    DecodesWithin s (decodeSymbols root n s) := by
  induction n generalizing s with
  | zero => exact ⟨h, rfl, rfl, fun _ _ he => by cases he⟩
  | succ n ih =>
    rw [decodeSymbols_succ]
    obtain ⟨hreads, hbounds, hended⟩ := descend_within (sym := root) h (Nat.le_refl _)
    have hstack : (descend (bitsLeft s) root s).final.huf.stack = s.huf.stack := by rw [hreads.kept]
    cases hdesc : descend (bitsLeft s) root s with
    | raised e t =>
      rw [hdesc] at hreads hbounds hended hstack
      exact ⟨hbounds, hreads.nextId_eq, hstack, fun e' t' he => by cases he; exact (hended e t rfl).2⟩
    | value sym t =>
      rw [hdesc] at hreads hbounds hstack
      have hemit : ReaderBounds (emit sym t) := ⟨hbounds.cached_le, hbounds.fetched_mod, hbounds.fetched_le⟩
      obtain ⟨hbounds', hid', hstack', hended'⟩ := ih hemit
      exact ⟨hbounds', hid'.trans hreads.nextId_eq, hstack'.trans hstack, hended'⟩

/-! ### The whole command (R100, R104) -/

/-- What HUF.DECODE writes, over any memory: `out` bytes from DST_ADDR, at most DST_LEN of them, and no other. -/
structure WritesOutput (s u : State) : Prop where
  out_le : u.huf.out ≤ s.regs.dstLen.toNat
  outside : ∀ a, ¬(s.regs.dstAddr.toNat ≤ a ∧ a < s.regs.dstAddr.toNat + u.huf.out) → u.byteAt a = s.byteAt a
  inside : ∀ a, s.regs.dstAddr.toNat ≤ a → a < s.regs.dstAddr.toNat + u.huf.out → (u.byteAt a).isSome = true

theorem hufBody_writesOutput (s : State) : WritesOutput s (hufBody s).final := by
  have hparse := parseTree_reads (s.cfg.hufMaxId - 255) (hufStart s)
  rw [hufBody]
  cases htree : parseTree (s.cfg.hufMaxId - 255) (hufStart s) with
  | raised e u =>
    rw [htree] at hparse
    have hout : u.huf.out = 0 := hparse.out_eq
    have hmem : u.mem = s.mem := hparse.mem_eq
    exact ⟨by simp [hout], fun a _ => by rw [andThen_raised, final_raised, State.byteAt, hmem],
      fun a hlo hhi => by simp only [andThen_raised, final_raised, hout] at hhi; omega⟩
  | value root u =>
    rw [htree] at hparse
    have hout : u.huf.out = 0 := hparse.out_eq
    have hmem : u.mem = s.mem := hparse.mem_eq
    have hregs : u.regs = s.regs := hparse.regs_eq
    obtain ⟨m, d, h, heq, -, -, -, hend, hoff, hon, -⟩ := decodeSymbols_spec root u.regs.dstLen.toNat u
    rw [hout, hregs, Nat.add_zero] at hoff hon
    rw [hout, Nat.zero_add, hregs] at hend
    rw [hmem] at hoff
    rw [andThen_value, heq]
    refine ⟨?_, fun a ha => hoff a ?_, hon⟩
    · obtain ⟨-, h⟩ | ⟨-, h⟩ := hend
      · exact Nat.le_of_eq h
      · exact Nat.le_of_lt h
    · simp only [setHuf_huf] at ha
      omega

/-- How HUF.DECODE ends, over any memory, where the ids end at `HUF_MAX_ID`. -/
structure EndsWithin (s : State) (r : HufRun Unit) : Prop where
  bounds : ReaderBounds r.final
  nextId_ge : 256 ≤ r.final.huf.nextId
  nextId_le : r.final.huf.nextId ≤ s.cfg.hufMaxId + 1
  depth_le : r.final.huf.stack.length ≤ s.cfg.hufMaxId - 255
  value : ∀ a t, r = .value a t → t.huf.stack = [] ∧ t.huf.out = s.regs.dstLen.toNat
  raised : ∀ e t, r = .raised e t →
    e = .hufTree ∧ t.huf.nextId = s.cfg.hufMaxId + 1 ∧ t.huf.out = 0 ∨ e = .hufInput ∧ InputEnded t

theorem hufBody_endsWithin {s : State} (hcfg : s.cfg.wf = true) : EndsWithin s (hufBody s) := by
  obtain ⟨-, -, hmin, -⟩ := of_decide_eq_true hcfg
  have hreads := parseTree_reads (s.cfg.hufMaxId - 255) (hufStart s)
  obtain ⟨hbounds, hid, hdepth, hvalue, hraised⟩ :=
    parseTree_within (room := s.cfg.hufMaxId - 255) (depth := s.cfg.hufMaxId - 255) (s := hufStart s) rfl
      ⟨Nat.zero_le 32, rfl, Nat.zero_le _⟩ (show 256 ≤ s.cfg.hufMaxId + 1 by omega)
      (show s.cfg.hufMaxId + 1 ≤ s.cfg.hufMaxId - 255 + 256 by omega) (Nat.le_of_eq (Nat.zero_add _))
  rw [hufBody]
  cases htree : parseTree (s.cfg.hufMaxId - 255) (hufStart s) with
  | raised e u =>
    rw [htree] at hreads hbounds hid hdepth
    exact ⟨hbounds, hreads.nextId_le, hid, hdepth, fun _ _ he => (by cases he), fun e' t he => by
      cases he
      exact (hraised e u htree).imp_left fun ⟨hcode, hfull⟩ => ⟨hcode, hfull, hreads.out_eq⟩⟩
  | value root u =>
    rw [htree] at hreads hbounds hid hdepth
    have hout : u.huf.out = 0 := hreads.out_eq
    have hregs : u.regs = s.regs := hreads.regs_eq
    have hstack : u.huf.stack = [] := hvalue root u htree
    obtain ⟨hbounds', hid', hstack', hended⟩ := decodeSymbols_within root u.regs.dstLen.toNat hbounds
    obtain ⟨m, d, h, heq, -, -, -, hend, -⟩ := decodeSymbols_spec root u.regs.dstLen.toNat u
    simp only [final_value] at hid' hstack' hid hdepth hended
    rw [andThen_value]
    refine ⟨hbounds', hid' ▸ hreads.nextId_le, hid' ▸ hid, hstack' ▸ hdepth, fun a t he => ?_,
      fun e t he => .inr ⟨decodeSymbols_raised he, hended e t he⟩⟩
    rw [he] at hstack' heq hend
    obtain ⟨-, hlen⟩ | ⟨hraise, -⟩ := hend
    · exact ⟨hstack'.trans hstack, by
        rw [show t = _ from heq, setHuf_huf, hlen, hout, hregs, Nat.zero_add]⟩
    · cases hraise

/-- Settles O32: the first bit of the tree asks for a word that the window does not hold. -/
theorem hufShortInputIsRefused : Obligations.HufShortInputIsRefused := by
  unfold Obligations.HufShortInputIsRefused
  intro s hsrc hdst hapart hshort
  have hbit : getBit (hufStart s) = .raised .hufInput (hufStart s) := by
    rcases getBit_cases (hufStart s) with ⟨-, -, heq⟩ | ⟨hfull, -⟩ | ⟨-, hroom, -⟩
    · exact heq
    · exact absurd rfl hfull
    · exact absurd (show 0 + 4 ≤ s.regs.srcLen.toNat from hroom) (by omega)
  have hbody : hufBody s = .raised .hufInput (hufStart s) := by
    rw [hufBody]
    cases s.cfg.hufMaxId - 255 with
    | zero => rw [parseTree_zero, getBits_one, hbit]; rfl
    | succ room => rw [parseTree_succ, getBits_one, hbit]; rfl
  exact ⟨_, exec_hufDecode_of_accepted hsrc hdst hapart, by rw [hbody]; rfl⟩

/-! ### The report (R104) -/

@[simp] theorem hufComplete_huf (r : HufRun Unit) : (hufComplete r).huf = r.final.huf := by cases r <;> rfl
@[simp] theorem hufComplete_mem (r : HufRun Unit) : (hufComplete r).mem = r.final.mem := by cases r <;> rfl

theorem hufBody_regs (s : State) : (hufBody s).final.regs = s.regs := by
  obtain ⟨m, d, h, heq⟩ := hufBody_frame s
  rw [heq]
  rfl

/-- The report of a HUF.DECODE says how it ended: ERR stays clear behind the last symbol and is set by an error. -/
theorem hufComplete_err {s : State} (hs : s.status.err = false) :
    (hufComplete (hufBody s)).status.err = true ↔ ∃ e u, hufBody s = .raised e u := by
  have hstatus := (hufBody_engineWork s).status_eq
  cases hbody : hufBody s with
  | value a u =>
    rw [hbody, final_value] at hstatus
    have herr : (hufComplete (.value a u)).status.err = false := (congrArg Status.err hstatus).trans hs
    simp [herr]
  | raised e u => exact iff_of_true rfl ⟨e, u, rfl⟩

/-- Settles O36: the bounds that the parse and the symbol loop keep. -/
theorem hufHiddenStateBounds : Obligations.HufHiddenStateBounds := by
  unfold Obligations.HufHiddenStateBounds
  intro s t hcfg hs hsrc hdst hapart h
  obtain rfl := Host.Outcome.next.inj ((exec_hufDecode_of_accepted hsrc hdst hapart).symm.trans h)
  obtain ⟨⟨hcached, hmod, hle⟩, hge, hid, hdepth, hvalue, -⟩ := hufBody_endsWithin hcfg
  rw [hufComplete_huf, ← hufBody_regs s]
  refine ⟨hmod, hle, hge, hid, hcached, hdepth, fun herr => ?_⟩
  rw [hufBody_regs]
  cases hbody : hufBody s with
  | value a u => exact hvalue a u hbody
  | raised e u => simp [(hufComplete_err hs).2 ⟨e, u, hbody⟩] at herr

/-- Settles O33: an error reports the counters of the state that raised it, and the output bytes are those it counts. -/
theorem hufErrorPoints : Obligations.HufErrorPoints := by
  unfold Obligations.HufErrorPoints
  intro s t hcfg hs hsrc hdst hapart h herr
  obtain rfl := Host.Outcome.next.inj ((exec_hufDecode_of_accepted hsrc hdst hapart).symm.trans h)
  obtain ⟨e, u, hbody⟩ := (hufComplete_err hs).1 herr
  obtain ⟨hout, houtside, hinside⟩ := hufBody_writesOutput s
  have hraised := (hufBody_endsWithin hcfg).raised e u hbody
  have hregs := hufBody_regs s
  rw [hbody, final_raised] at hout houtside hinside hregs
  rw [hbody]
  refine ⟨rfl, rfl, ?_⟩
  obtain ⟨rfl, hfull, hzero⟩ | ⟨rfl, hended⟩ := hraised
  · rw [hzero] at houtside
    exact .inl ⟨rfl, congrArg (BitVec.ofNat 32) hzero, congrArg (BitVec.ofNat 32) hfull, fun a => houtside a (by omega)⟩
  · rw [InputEnded, hregs] at hended
    have hinfo : (hufComplete (.raised .hufInput u)).errinfo.toNat = u.huf.out :=
      (BitVec.toNat_ofNat _ _).trans (Nat.mod_eq_of_lt (Nat.lt_of_le_of_lt hout s.regs.dstLen.isLt))
    rw [hinfo]
    exact .inr ⟨rfl, congrArg (BitVec.ofNat 32) hended, hout, hinside, houtside⟩

/-- An error behind work of HUF.DECODE, field by field. -/
theorem raiseError_of_hufWork (e : ErrReport) (r0 r1 : Word) (s : State) (m : List Host.Cell) (d : Nat) (h : HufState) :
    raiseError e r0 r1 (((s.setMem m).setDraws d).setHuf h) =
      { s with mem := m, draws := d, huf := h, res0 := r0, res1 := r1, status := { s.status with err := true },
               errcode := e.1, errinfo := e.2, running := none } := by
  cases s
  rfl

/-- HUF.DECODE ends with DONE or ERR and changes nothing but buffer RAM, HUF state, the next draw and its report. -/
theorem hufComplete_frame (s : State) :
    ∃ t, hufComplete (hufBody s) = t ∧ (t.status.done = true ∨ t.status.err = true) ∧
      t = { s with mem := t.mem, draws := t.draws, huf := t.huf, res0 := t.res0, res1 := t.res1,
                   status := { s.status with done := t.status.done, err := t.status.err }, errcode := t.errcode,
                   errinfo := t.errinfo, running := none } := by
  obtain ⟨m, d, h, heq⟩ := hufBody_frame s
  cases hbody : hufBody s with
  | value a u =>
    rw [hbody, final_value] at heq
    exact ⟨_, (congrArg _ heq).trans (complete_of_hufWork _ _ s m d h), .inl rfl, rfl⟩
  | raised e u =>
    rw [hbody, final_raised] at heq
    exact ⟨_, (congrArg _ heq).trans (raiseError_of_hufWork _ _ _ s m d h), .inr rfl, rfl⟩

/-- Settles O35: a failed check changes nothing but the report, and the pseudocode writes output bytes only. -/
theorem hufFrameOverAnyInput : Obligations.HufFrameOverAnyInput := by
  unfold Obligations.HufFrameOverAnyInput
  intro s
  cases hc : hufChecks s with
  | some e => exact ⟨_, exec_of_acceptError (i := .hufDecode) hc, .inr rfl, fun _ _ => rfl, rfl⟩
  | none =>
    obtain ⟨hout, houtside, -⟩ := hufBody_writesOutput s
    obtain ⟨t, rfl, hend, hframe⟩ := hufComplete_frame s
    refine ⟨_, execHufDecode_of_checks hc, hend, fun a ha => ?_, hframe⟩
    rw [State.byteAt, hufComplete_mem]
    exact houtside a (by omega)

end Sys2Proof.Machine
end

section
/-! PROOF. HUF.DECODE over a stream that the SRC window or the id range cuts short (spec/40_huffman.md R101, R103, R104,
R105 (6), spec/70_reset_and_hazards.md R208). The part that other statements can use: the reader at the end of the window's
whole words (`getBit_atEnd`), and what each part of the command does in front of a cut stream (`parseTree_cut`,
`parseTree_refused`, `descend_cut`, `decodeSymbols_cut`). -/

namespace Sys2Proof.Machine

open Sys2Proof

/-! ### The end of the whole words (R103) -/

theorem fetchedFor_wholeWordBits (l : Word) : fetchedFor (wholeWordBits l) = 4 * (l.toNat / 4) := by
  unfold fetchedFor wholeWordBits
  omega

theorem fetchedFor_le_of_le_wholeWordBits {n : Nat} {l : Word} (h : n ≤ wholeWordBits l) : fetchedFor n ≤ l.toNat := by
  unfold wholeWordBits at h
  unfold fetchedFor
  omega

/-- The reader behind the last bit of the whole words raises E_HUF_INPUT. -/
theorem getBit_atEnd {s : State} (h : StreamAhead s [] (wholeWordBits s.regs.srcLen)) :
    getBit s = .raised .hufInput s := by
  obtain ⟨heq, -⟩ | ⟨hroom, -⟩ := getBit_stream h.reader
  · exact heq
  · have hpos : bitPos s = wholeWordBits s.regs.srcLen := h.pos
    rw [hpos] at hroom
    unfold fetchedFor wholeWordBits at hroom
    omega

/-- `t` is where a part of the command raises E_HUF_INPUT: the reader has delivered every bit of the whole words. -/
structure InputCut (s t : State) : Prop where
  reads : HufReads s t
  atEnd : StreamAhead t [] (wholeWordBits s.regs.srcLen)

theorem InputCut.fetched_eq {s t : State} (h : InputCut s t) : t.huf.fetched = 4 * (s.regs.srcLen.toNat / 4) :=
  h.atEnd.fetched_eq.trans (fetchedFor_wholeWordBits _)

theorem HufReads.inputCut {s t u : State} (h : HufReads s t) (h' : InputCut t u) : InputCut s u :=
  ⟨h.trans h'.reads, h.regs_eq ▸ h'.atEnd⟩

/-- A field read in front of fewer bits than it wants. -/
theorem getBitsFrom_cut {bits : List Bool} (r : Nat) {n : Nat} (hn : bits.length < n) {s : State}
    (h : StreamAhead s bits (wholeWordBits s.regs.srcLen)) :
    ∃ t, getBitsFrom r n s = .raised .hufInput t ∧ InputCut s t ∧ t.huf.nextId = s.huf.nextId := by
  obtain ⟨n, rfl⟩ : ∃ k, n = k + 1 := ⟨n - 1, by omega⟩
  induction bits generalizing r n s with
  | nil => exact ⟨s, by rw [getBitsFrom, getBit_atEnd h, andThen_raised], ⟨.refl s, h⟩, rfl⟩
  | cons bit bits ih =>
    obtain ⟨t, hbit, hreads, hahead⟩ := getBit_ahead h
    obtain ⟨n, rfl⟩ : ∃ k, n = k + 1 := ⟨n - 1, by rw [List.length_cons] at hn; omega⟩
    obtain ⟨u, hbits, hcut, hid⟩ := ih (shiftIn r bit.toNat) (s := t) (by rwa [hreads.reads.regs_eq])
      n (by rw [List.length_cons] at hn; omega)
    refine ⟨u, ?_, hreads.reads.inputCut hcut, hid.trans hreads.nextId_eq⟩
    rw [getBitsFrom, hbit]
    exact hbits

/-! ### The internal nodes met (R101) -/

theorem opened_zero (tree : HufTree) : tree.opened 0 = 0 := by cases tree <;> rfl

/-- All the bits of a tree meet all its internal nodes. -/
theorem opened_of_length_le {tree : HufTree} {n : Nat} (h : tree.bits.length ≤ n) : tree.opened n = tree.nodes := by
  induction tree generalizing n with
  | leaf b => cases n <;> rfl
  | node l r ihl ihr =>
    rw [HufTree.bits, List.length_cons, List.length_append] at h
    obtain ⟨n, rfl⟩ : ∃ k, n = k + 1 := ⟨n - 1, by omega⟩
    rw [HufTree.opened, ihl (by omega), ihr (by omega), HufTree.nodes]

/-! ### The parse of an internal node, up to one of its subtrees (R101) -/

theorem parseTree_of_raised (room : Nat) {s t : State} {e : ErrCode} (hbit : getBit s = .raised e t) :
    parseTree room s = .raised e t := by
  cases room with
  | zero => rw [parseTree_zero, getBits_one, hbit, andThen_raised]
  | succ room => rw [parseTree_succ, getBits_one, hbit, andThen_raised]

theorem parseTree_of_zero (room : Nat) {s t : State} (hbit : getBit s = .value 0 t) : parseTree room s = getBits 8 t := by
  cases room with
  | zero => rw [parseTree_zero, getBits_one, hbit]; rfl
  | succ room => rw [parseTree_succ, getBits_one, hbit]; rfl

/-- A `1` whose id would be above `HUF_MAX_ID` is refused. -/
theorem parseTree_of_full (room : Nat) {s t : State} (hbit : getBit s = .value 1 t)
    (hfull : t.cfg.hufMaxId < t.huf.nextId) : parseTree room s = .raised .hufTree t := by
  cases room with
  | zero => rw [parseTree_zero, getBits_one, hbit]; rfl
  | succ room => rw [parseTree_succ, getBits_one, hbit]; exact if_pos hfull

theorem parseTree_of_free {room : Nat} {s t : State} (hbit : getBit s = .value 1 t)
    (hfree : t.huf.nextId ≤ t.cfg.hufMaxId) :
    parseTree (room + 1) s =
      (parseTree room (t.setHuf t.huf.openNode)).andThen fun l u =>
        (parseTree room (u.setHuf (u.huf.closeLeft t.huf.nextId l))).andThen fun r v =>
          .value t.huf.nextId (v.setHuf (v.huf.closeRight t.huf.nextId r)) := by
  rw [parseTree_succ, getBits_one, hbit]
  exact if_neg (Nat.not_lt.2 hfree)

/-- `w` is where the parse of a node at `s` enters one of its subtrees, `ids` ids and some bits later: the reader is in front
of `rest`, and an error in the subtree is the error of the node. -/
structure EntersSubtree (room : Nat) (s w : State) (ids : Nat) (rest : List Bool) (stop : Nat) : Prop where
  raises : ∀ e v, parseTree room w = .raised e v → parseTree (room + 1) s = .raised e v
  reads : HufReads s w
  nextId : w.huf.nextId = s.huf.nextId + ids
  ahead : StreamAhead w rest stop

section
variable {room : Nat} {s : State} {rest : List Bool} {stop : Nat}

theorem enters_left (hfree : s.huf.nextId ≤ s.cfg.hufMaxId) (h : StreamAhead s (true :: rest) stop) :
    ∃ w, EntersSubtree room s w 1 rest stop := by
  obtain ⟨t, hbit, hreads, hahead⟩ := getBit_ahead h
  have hfreeT : t.huf.nextId ≤ t.cfg.hufMaxId := by rwa [hreads.nextId_eq, hreads.reads.cfg_eq]
  refine ⟨t.setHuf t.huf.openNode, fun e v he => ?_, hreads.reads.setHuf (Nat.le_succ _) rfl, ?_, hahead.setHuf rfl rfl rfl⟩
  · rw [parseTree_of_free hbit hfreeT, he, andThen_raised]
  · rw [setHuf_huf, HufState.openNode_nextId, hreads.nextId_eq]

theorem enters_right {l : HufTree} (hroom : l.nodes ≤ room) (hmax : s.cfg.hufMaxId < 512) (hid : 256 ≤ s.huf.nextId)
    (hfit : s.huf.nextId + 1 + l.nodes ≤ s.cfg.hufMaxId + 1) (h : StreamAhead s (true :: (l.bits ++ rest)) stop) :
    ∃ w, EntersSubtree room s w (1 + l.nodes) rest stop := by
  obtain ⟨t, hbit, hreads, hahead⟩ := getBit_ahead h
  have hnext : t.huf.nextId = s.huf.nextId := hreads.nextId_eq
  have hcfg : t.cfg = s.cfg := hreads.reads.cfg_eq
  obtain ⟨u, hl, hparsed, hahead⟩ :=
    parseTree_ahead (room := room) (s := t.setHuf t.huf.openNode) hroom (by rwa [setHuf_cfg, hcfg])
      (by simp only [setHuf_huf, HufState.openNode_nextId]; omega)
      (by simp only [setHuf_huf, HufState.openNode_nextId, setHuf_cfg, hcfg]; omega) (hahead.setHuf rfl rfl rfl)
  have hopened : HufReads s (t.setHuf t.huf.openNode) := hreads.reads.setHuf (Nat.le_succ _) rfl
  have hnextU := hparsed.nextId
  rw [setHuf_huf, HufState.openNode_nextId, hnext] at hnextU
  refine ⟨u.setHuf (u.huf.closeLeft t.huf.nextId (l.rootId (t.setHuf t.huf.openNode).huf.nextId)), fun e v he => ?_,
    (hopened.trans hparsed.reads).setHuf (Nat.le_refl _) rfl, ?_, hahead.setHuf rfl rfl rfl⟩
  · rw [parseTree_of_free hbit (by rw [hcfg]; omega), hl, andThen_value, he, andThen_raised]
  · rw [setHuf_huf, HufState.closeLeft_nextId, hnextU, Nat.add_assoc]

end

/-! ### A tree that the window cuts (R105 (6)) -/

/-- The parse of the first bits of a tree, where the whole words end inside it. -/
theorem parseTree_cut {tree : HufTree} {n room : Nat} (hn : n < tree.bits.length) (hroom : tree.opened n ≤ room)
    {s : State} (hmax : s.cfg.hufMaxId < 512) (hid : 256 ≤ s.huf.nextId)
    (hfit : s.huf.nextId + tree.opened n ≤ s.cfg.hufMaxId + 1)
    (h : StreamAhead s (tree.bits.take n) (wholeWordBits s.regs.srcLen)) :
    ∃ t, parseTree room s = .raised .hufInput t ∧ InputCut s t ∧ t.huf.nextId = s.huf.nextId + tree.opened n := by
  induction tree generalizing n room s with
  | leaf b =>
    cases n with
    | zero => exact ⟨s, parseTree_of_raised room (getBit_atEnd h), ⟨.refl s, h⟩, rfl⟩
    | succ n =>
      rw [HufTree.bits, List.take_succ_cons] at h
      obtain ⟨t, hbit, hreads, hahead⟩ := getBit_ahead h
      have hshort : ((msbFirst b).take n).length < 8 := by
        rw [HufTree.bits, List.length_cons] at hn
        exact Nat.lt_of_le_of_lt (List.length_take_le n _) (by rw [msbFirst, List.length_map, List.length_range] at hn; omega)
      obtain ⟨u, hbyte, hcut, hidu⟩ := getBitsFrom_cut 0 hshort (hreads.reads.regs_eq ▸ hahead)
      exact ⟨u, (parseTree_of_zero room hbit).trans hbyte, hreads.reads.inputCut hcut, hidu.trans hreads.nextId_eq⟩
  | node l r ihl ihr =>
    cases n with
    | zero => exact ⟨s, parseTree_of_raised room (getBit_atEnd h), ⟨.refl s, h⟩, rfl⟩
    | succ n =>
      rw [HufTree.opened] at hroom hfit ⊢
      rw [HufTree.bits, List.length_cons, List.length_append] at hn
      rw [HufTree.bits, List.take_succ_cons, List.take_append] at h
      obtain ⟨room, rfl⟩ : ∃ k, room = k + 1 := ⟨room - 1, by omega⟩
      rcases Nat.lt_or_ge n l.bits.length with hlt | hge
      · rw [Nat.sub_eq_zero_of_le (Nat.le_of_lt hlt), opened_zero] at hroom hfit ⊢
        rw [Nat.sub_eq_zero_of_le (Nat.le_of_lt hlt), List.take_zero, List.append_nil] at h
        obtain ⟨w, hraises, hreads, hnext, hahead⟩ := enters_left (room := room) (by omega) h
        have hcfg := hreads.cfg_eq
        obtain ⟨t, htree, hcut, hidt⟩ := ihl (room := room) (s := w) hlt (by omega) (by rwa [hcfg]) (by omega)
          (by rw [hcfg]; omega) (hreads.regs_eq ▸ hahead)
        exact ⟨t, hraises _ _ htree, hreads.inputCut hcut, by omega⟩
      · rw [opened_of_length_le hge] at hroom hfit ⊢
        rw [List.take_of_length_le hge] at h
        obtain ⟨w, hraises, hreads, hnext, hahead⟩ := enters_right (room := room) (by omega) hmax hid (by omega) h
        have hcfg := hreads.cfg_eq
        obtain ⟨t, htree, hcut, hidt⟩ := ihr (room := room) (s := w) (n := n - l.bits.length) (by omega) (by omega)
          (by rwa [hcfg]) (by omega) (by rw [hcfg]; omega) (hreads.regs_eq ▸ hahead)
        exact ⟨t, hraises _ _ htree, hreads.inputCut hcut, by omega⟩

/-! ### A tree with too many internal nodes (R101) -/

/-- Among the first bits that meet more than `limit` internal nodes there is one that meets the node too many. -/
theorem exists_refusing_bit {tree : HufTree} {limit n : Nat} (h : limit < tree.opened n) :
    ∃ k, k ≤ n ∧ tree.opened (k - 1) ≤ limit ∧ limit < tree.opened k ∧ (tree.opened (n - 1) ≤ limit → k = n) := by
  induction n with
  | zero => rw [opened_zero] at h; omega
  | succ n ih =>
    rcases Nat.lt_or_ge limit (tree.opened n) with hbefore | hbefore
    · obtain ⟨k, hk, hfit, hbig, -⟩ := ih hbefore
      exact ⟨k, Nat.le_succ_of_le hk, hfit, hbig, fun hn => absurd hbefore (Nat.not_lt.2 hn)⟩
    · exact ⟨n + 1, Nat.le_refl _, hbefore, h, fun _ => rfl⟩

/-- The parse of the first `n` bits of a tree, of which the last asks for an id above `HUF_MAX_ID`, is refused at that bit. -/
theorem parseTree_refused {tree : HufTree} {n room : Nat} {s : State} {rest : List Bool} {stop : Nat}
    (hmax : s.cfg.hufMaxId < 512) (hid : 256 ≤ s.huf.nextId) (hroom : s.cfg.hufMaxId + 1 ≤ room + s.huf.nextId)
    (hfit : s.huf.nextId + tree.opened (n - 1) ≤ s.cfg.hufMaxId + 1)
    (hbig : s.cfg.hufMaxId + 1 < s.huf.nextId + tree.opened n) (h : StreamAhead s (tree.bits.take n ++ rest) stop) :
    ∃ t, parseTree room s = .raised .hufTree t ∧ HufReads s t ∧ StreamAhead t rest stop ∧
      t.huf.nextId = s.cfg.hufMaxId + 1 := by
  induction tree generalizing n room s with
  | leaf b => cases n <;> simp only [HufTree.opened] at hbig hfit <;> omega
  | node l r ihl ihr =>
    obtain ⟨n, rfl⟩ : ∃ k, n = k + 1 := ⟨n - 1, by
      cases n with
      | zero => rw [opened_zero] at hbig hfit; omega
      | succ n => rfl⟩
    rw [HufTree.opened] at hbig
    rw [HufTree.bits, List.take_succ_cons, List.take_append, List.cons_append] at h
    rw [Nat.add_sub_cancel] at hfit
    cases n with
    | zero =>
      rw [Nat.zero_sub, opened_zero, opened_zero] at hbig
      rw [Nat.zero_sub, List.take_zero, List.take_zero, List.append_nil, List.nil_append] at h
      obtain ⟨t, hbit, hreads, hahead⟩ := getBit_ahead h
      have hidt := hreads.nextId_eq
      rw [opened_zero] at hfit
      exact ⟨t, parseTree_of_full room hbit (by rw [hidt, hreads.reads.cfg_eq]; omega), hreads.reads, hahead, by omega⟩
    | succ n =>
      rw [HufTree.opened] at hfit
      obtain ⟨room, rfl⟩ : ∃ k, room = k + 1 := ⟨room - 1, by omega⟩
      rcases Nat.lt_or_ge n l.bits.length with hlt | hge
      · rw [Nat.sub_eq_zero_of_le hlt, opened_zero] at hbig
        rw [Nat.sub_eq_zero_of_le hlt, List.take_zero, List.append_nil] at h
        obtain ⟨w, hraises, hreads, hnext, hahead⟩ := enters_left (room := room) (by omega) h
        have hcfg := hreads.cfg_eq
        obtain ⟨t, htree, hreadsT, haheadT, hidt⟩ := ihl (n := n + 1) (room := room) (s := w) (by rwa [hcfg]) (by omega)
          (by rw [hcfg]; omega) (by rw [hcfg, Nat.add_sub_cancel]; omega) (by rw [hcfg]; omega) hahead
        exact ⟨t, hraises _ _ htree, hreads.trans hreadsT, haheadT, hidt.trans (by rw [hcfg])⟩
      · have hbefore : n + 1 - l.bits.length - 1 = n - l.bits.length := by omega
        rw [opened_of_length_le (Nat.le_succ_of_le hge)] at hbig
        rw [opened_of_length_le hge] at hfit
        rw [List.take_of_length_le (Nat.le_succ_of_le hge), List.append_assoc] at h
        obtain ⟨w, hraises, hreads, hnext, hahead⟩ := enters_right (room := room) (by omega) hmax hid (by omega) h
        have hcfg := hreads.cfg_eq
        obtain ⟨t, htree, hreadsT, haheadT, hidt⟩ := ihr (n := n + 1 - l.bits.length) (room := room) (s := w)
          (by rwa [hcfg]) (by omega) (by rw [hcfg]; omega) (by rw [hcfg, hbefore]; omega) (by rw [hcfg]; omega) hahead
        exact ⟨t, hraises _ _ htree, hreads.trans hreadsT, haheadT, hidt.trans (by rw [hcfg])⟩

/-! ### A code that the window cuts (R105 (6)) -/

/-- The descent along a part of a code that ends at an internal node asks for a bit beyond the whole words. -/
theorem descend_cut {path more : List Bool} (hmore : more ≠ []) {tree : HufTree} {b : Byte}
    (hcode : tree.Code (path ++ more) b) {n : Nat} {s : State} (hid : 256 ≤ n) (hholds : s.huf.Holds n tree)
    (h : StreamAhead s path (wholeWordBits s.regs.srcLen)) :
    ∃ t, descend (bitsLeft s) (tree.rootId n) s = .raised .hufInput t ∧ ReadsBits s t ∧ InputCut s t := by
  induction path generalizing tree n s with
  | nil =>
    refine ⟨s, ?_, .refl s, .refl s, h⟩
    cases hcode with
    | leaf => exact absurd rfl hmore
    | left | right => rw [descend_eq, HufTree.rootId, if_neg (by omega), getBits_one, getBit_atEnd h, andThen_raised]
  | cons bit path ih =>
    obtain ⟨t, hbit, hreads, hahead⟩ := getBit_ahead h
    have hahead : StreamAhead t path (wholeWordBits t.regs.srcLen) := by rwa [hreads.reads.regs_eq]
    rw [List.cons_append] at hcode
    cases hcode with
    | left hcode =>
      obtain ⟨hleft, -, hl, -⟩ := hreads.holds hholds
      obtain ⟨u, hdesc, hreads', hcut⟩ := ih hcode (by omega) hl hahead
      refine ⟨u, ?_, hreads.trans hreads', hreads.reads.inputCut hcut⟩
      rw [descend_eq, HufTree.rootId, if_neg (by omega), getBits_one, hbit, andThen_value, if_neg (by decide), hleft]
      exact hdesc
    | right hcode =>
      obtain ⟨-, hright, -, hr⟩ := hreads.holds hholds
      obtain ⟨u, hdesc, hreads', hcut⟩ := ih hcode (by omega) hr hahead
      refine ⟨u, ?_, hreads.trans hreads', hreads.reads.inputCut hcut⟩
      rw [descend_eq, HufTree.rootId, if_neg (by omega), getBits_one, hbit, andThen_value, if_pos (by decide), hright]
      exact hdesc

theorem decodeSymbols_add (root n m : Nat) (s : State) :
    decodeSymbols root (n + m) s = (decodeSymbols root n s).andThen fun _ t => decodeSymbols root m t := by
  induction n generalizing s with
  | zero => rw [Nat.zero_add]; rfl
  | succ n ih =>
    rw [Nat.succ_add, decodeSymbols_succ, decodeSymbols_succ]
    cases descend (bitsLeft s) root s with
    | raised e t => rfl
    | value sym t => exact ih _

theorem ReaderOk.readerBounds {s : State} (h : ReaderOk s) : ReaderBounds s :=
  ⟨Nat.le_of_lt h.cached_lt, h.fetched_mod, h.fetched_le⟩

/-- The symbol loop keeps the node tables. -/
theorem decodeSymbols_holds {root n : Nat} {s t : State} (hs : ReaderBounds s)
    (h : decodeSymbols root n s = .value () t) {m : Nat} {tree : HufTree} (hholds : s.huf.Holds m tree) :
    t.huf.Holds m tree := by
  induction n generalizing s with
  | zero => cases h; exact hholds
  | succ n ih =>
    rw [decodeSymbols_succ] at h
    obtain ⟨hreads, hbounds, -⟩ := descend_within (sym := root) hs (Nat.le_refl _)
    cases hdesc : descend (bitsLeft s) root s with
    | raised e u => rw [hdesc] at h; cases h
    | value sym u =>
      rw [hdesc] at h hreads hbounds
      exact ih (s := emit sym u) ⟨hbounds.cached_le, hbounds.fetched_mod, hbounds.fetched_le⟩ h
        (emit_holds sym (hreads.holds hholds))

/-- The symbol loop without error counts its output bytes. -/
theorem decodeSymbols_out {root n : Nat} {s t : State} (h : decodeSymbols root n s = .value () t) :
    t.huf.out = s.huf.out + n ∧ t.regs = s.regs := by
  obtain ⟨m, d, x, heq, -, -, -, hend, -⟩ := decodeSymbols_spec root n s
  rw [h, final_value] at heq
  rw [h] at hend
  obtain ⟨-, hout⟩ | ⟨hraise, -⟩ := hend
  · rw [heq]
    exact ⟨hout, rfl⟩
  · cases hraise

/-- The codes of `syms` and a part of a further code, where the whole words end inside the latter. -/
theorem decodeSymbols_cut {tree : HufTree} {syms : List (Byte × List Bool)} (hcodes : ∀ x ∈ syms, tree.Code x.2 x.1)
    {part more : List Bool} (hmore : more ≠ []) {b : Byte} (hpart : tree.Code (part ++ more) b) {n k : Nat} {s : State}
    (hk : syms.length < k) (hid : 256 ≤ n) (hholds : s.huf.Holds n tree)
    (hapart : ∀ i, i < syms.length →
      ¬inWindow s.regs.srcAddr s.regs.srcLen (s.regs.dstAddr.toNat + s.huf.out + i))
    (h : StreamAhead s (syms.flatMap (fun x => x.2) ++ part) (wholeWordBits s.regs.srcLen)) :
    ∃ t, decodeSymbols (tree.rootId n) k s = .raised .hufInput t ∧ t.huf.fetched = 4 * (s.regs.srcLen.toNat / 4) ∧
      t.huf.nextId = s.huf.nextId ∧ t.huf.out = s.huf.out + syms.length ∧
      ∀ (i : Nat) (hi : i < syms.length), t.byteAt (s.regs.dstAddr.toNat + s.huf.out + i) = some syms[i].1 := by
  obtain ⟨u, hdec, hahead, hnext, hbytes⟩ := decodeSymbols_ahead hcodes hid hholds hapart h
  obtain ⟨hout, hregs⟩ := decodeSymbols_out hdec
  obtain ⟨t, hdesc, hreads, hcut⟩ := descend_cut hmore hpart hid
    (decodeSymbols_holds h.reader.readerBounds hdec hholds) (hregs ▸ hahead)
  refine ⟨t, ?_, hregs ▸ hcut.fetched_eq, hreads.nextId_eq.trans hnext, hreads.reads.out_eq.trans hout, fun i hi => ?_⟩
  · obtain ⟨m, rfl⟩ : ∃ m, k = syms.length + (m + 1) := ⟨k - syms.length - 1, by omega⟩
    rw [decodeSymbols_add, hdec, andThen_value, decodeSymbols_succ, hdesc, andThen_raised]
  · rw [State.byteAt, hreads.reads.mem_eq]
    exact hbytes i hi

/-! ### The command in front of a cut stream (R100, R104) -/

section
variable {s : State} (hsrc : s.legalWindow s.regs.srcAddr s.regs.srcLen)
  (hdst : s.legalWindow s.regs.dstAddr s.regs.dstLen)
  (hapart : ∀ a, inWindow s.regs.srcAddr s.regs.srcLen a → ¬inWindow s.regs.dstAddr s.regs.dstLen a)
include hsrc hdst hapart

/-- A HUF.DECODE that raises an error changes its work fields and reports the counters at the error. -/
theorem exec_hufDecode_of_raised {e : ErrCode} {u : State} (hbody : hufBody s = .raised e u) :
    exec .hufDecode s = .next
      { s with mem := u.mem, draws := u.draws, huf := u.huf, res0 := BitVec.ofNat 32 u.huf.fetched,
               res1 := BitVec.ofNat 32 u.huf.nextId, status := { s.status with err := true }, errcode := e,
               errinfo := BitVec.ofNat 32 u.huf.out, running := none } := by
  obtain ⟨m, d, h, heq⟩ := hufBody_frame s
  rw [hbody, final_raised] at heq
  rw [exec_hufDecode_of_accepted hsrc hdst hapart, hbody, heq]
  exact congrArg _ (raiseError_of_hufWork _ _ _ s m d h)

/-- The same of an error inside the tree, where buffer RAM and the output counter are as at the start. -/
theorem exec_hufDecode_of_treeRaised {e : ErrCode} {u : State}
    (htree : parseTree (s.cfg.hufMaxId - 255) (hufStart s) = .raised e u) :
    exec .hufDecode s = .next
      { s with draws := u.draws, huf := u.huf, res0 := BitVec.ofNat 32 u.huf.fetched,
               res1 := BitVec.ofNat 32 u.huf.nextId, status := { s.status with err := true }, errcode := e,
               errinfo := 0, running := none } := by
  have hreads := parseTree_reads (s.cfg.hufMaxId - 255) (hufStart s)
  rw [htree, final_raised] at hreads
  have hmem : u.mem = s.mem := hreads.mem_eq
  have hout : u.huf.out = 0 := hreads.out_eq
  rw [exec_hufDecode_of_raised hsrc hdst hapart (e := e) (u := u) (by rw [hufBody, htree, andThen_raised]), hmem, hout]
  rfl

end

/-- A HUF.DECODE stands in front of the first bits of its stream, where they fit the whole words. -/
theorem hufStart_ahead_take {s : State} {bits : List Bool} {n : Nat} (hn : n ≤ wholeWordBits s.regs.srcLen)
    (hstream : s.streamIs s.regs.srcAddr.toNat (bits.take n)) :
    StreamAhead (hufStart s) (bits.take n) (bits.take n).length :=
  hufStart_ahead hstream (fetchedFor_le_of_le_wholeWordBits (Nat.le_trans (List.length_take_le n _) hn))

/-- Settles O31: the parse is refused at the first bit that asks for an id too many. -/
theorem hufTooLargeTreeIsRefused : Obligations.HufTooLargeTreeIsRefused := by
  unfold Obligations.HufTooLargeTreeIsRefused
  intro s tree n hcfg hsrc hdst hapart hbig hn hstream
  obtain ⟨-, -, hmin, hmax⟩ := of_decide_eq_true hcfg
  obtain ⟨k, hk, hfit, hlarge, hlast⟩ := exists_refusing_bit hbig
  have hahead := hufStart_ahead_take hn hstream
  have hsplit : tree.bits.take n = tree.bits.take k ++ (tree.bits.drop k).take (n - k) := by
    rw [← List.take_add, Nat.add_sub_cancel' hk]
  rw [hsplit] at hahead
  obtain ⟨u, htree, hreads, haheadU, hid⟩ := parseTree_refused (s := hufStart s) (room := s.cfg.hufMaxId - 255)
    (Nat.lt_succ_of_le hmax) (Nat.le_refl 256) (show s.cfg.hufMaxId + 1 ≤ s.cfg.hufMaxId - 255 + 256 by omega)
    (show 256 + tree.opened (k - 1) ≤ s.cfg.hufMaxId + 1 by omega)
    (show s.cfg.hufMaxId + 1 < 256 + tree.opened k by omega) hahead
  refine ⟨_, exec_hufDecode_of_treeRaised hsrc hdst hapart htree, fun hbefore => ?_, ?_⟩
  · obtain rfl := hlast hbefore
    have hlen : (tree.bits.take k).length = k := by
      by_contra hlen
      rw [List.length_take] at hlen
      have hover : tree.bits.length ≤ k - 1 := by omega
      rw [opened_of_length_le hover] at hfit
      rw [opened_of_length_le (Nat.le_trans hover (Nat.sub_le _ _))] at hlarge
      omega
    rw [Nat.sub_self, List.take_zero, List.append_nil, hlen] at haheadU
    exact congrArg (BitVec.ofNat 32) haheadU.fetched_eq
  · rw [hid]
    rfl

/-- The pseudocode of R100 over a transmitted tree, the codes of fewer than `DST_LEN` symbols and a part of a further code. -/
theorem hufBody_cut {s : State} {tree : HufTree} {syms : List (Byte × List Bool)} {part more : List Bool} {b : Byte}
    (hcfg : s.cfg.wf = true)
    (hapart : ∀ a, inWindow s.regs.srcAddr s.regs.srcLen a → ¬inWindow s.regs.dstAddr s.regs.dstLen a)
    (hnodes : tree.nodes ≤ s.cfg.hufMaxId - 255) (hcodes : ∀ x ∈ syms, tree.Code x.2 x.1)
    (hlen : syms.length < s.regs.dstLen.toNat) (hpart : tree.Code (part ++ more) b) (hmore : more ≠ [])
    (h : StreamAhead (hufStart s) (tree.bits ++ (syms.flatMap (fun x => x.2) ++ part)) (wholeWordBits s.regs.srcLen)) :
    ∃ u, hufBody s = .raised .hufInput u ∧ u.huf.fetched = 4 * (s.regs.srcLen.toNat / 4) ∧
      u.huf.nextId = 256 + tree.nodes ∧ u.huf.out = syms.length ∧
      ∀ (i : Nat) (hi : i < syms.length), u.byteAt (s.regs.dstAddr.toNat + i) = some syms[i].1 := by
  obtain ⟨-, -, hmin, hmax⟩ := of_decide_eq_true hcfg
  obtain ⟨t, htree, hparsed, hahead⟩ := parseTree_ahead (s := hufStart s) hnodes (Nat.lt_succ_of_le hmax) (Nat.le_refl 256)
    (show 256 + tree.nodes ≤ s.cfg.hufMaxId + 1 by omega) h
  have hregs : t.regs = s.regs := hparsed.reads.regs_eq
  have hout : t.huf.out = 0 := hparsed.reads.out_eq
  obtain ⟨u, hdec, hfetched, hid, houtU, hbytes⟩ := decodeSymbols_cut hcodes hmore hpart (s := t) hlen (Nat.le_refl 256)
    hparsed.holds (fun i hi hin => by
      rw [hregs, hout, Nat.add_zero] at hin
      exact hapart _ hin ⟨by omega, by omega⟩) (hregs ▸ hahead)
  rw [hregs, hout, Nat.add_zero] at hbytes
  refine ⟨u, ?_, hregs ▸ hfetched, hid.trans hparsed.nextId, by rw [houtU, hout, Nat.zero_add], hbytes⟩
  rw [hufBody, htree, andThen_value, hregs]
  exact hdec

/-- Settles O50: the reader raises the error behind the last whole word, inside a code or inside the tree. -/
theorem hufRaisesInputAtWindowEnd : Obligations.HufRaisesInputAtWindowEnd := by
  unfold Obligations.HufRaisesInputAtWindowEnd
  intro s tree hcfg hsrc hdst hapart
  refine ⟨fun syms part more b hnodes hcodes hlen hpart hmore hstream hbits => ?_, fun hshort hfit hstream => ?_⟩
  · have hahead := hufStart_ahead hstream (fetchedFor_le_of_le_wholeWordBits (Nat.le_of_eq hbits))
    rw [hbits, List.append_assoc] at hahead
    obtain ⟨u, hbody, hfetched, hid, hout, hbytes⟩ := hufBody_cut hcfg hapart hnodes hcodes hlen hpart hmore hahead
    have houtside := (hufBody_writesOutput s).outside
    rw [hbody, final_raised, hout] at houtside
    refine ⟨_, exec_hufDecode_of_raised hsrc hdst hapart hbody, hbytes, houtside, ?_⟩
    rw [hfetched, hid, hout]
  · obtain ⟨-, -, hmin, hmax⟩ := of_decide_eq_true hcfg
    have hahead := hufStart_ahead_take (Nat.le_refl _) hstream
    rw [List.length_take, Nat.min_eq_left (Nat.le_of_lt hshort)] at hahead
    obtain ⟨u, htree, hcut, hid⟩ := parseTree_cut (s := hufStart s) (room := s.cfg.hufMaxId - 255) hshort hfit
      (Nat.lt_succ_of_le hmax) (Nat.le_refl 256)
      (show 256 + tree.opened (wholeWordBits s.regs.srcLen) ≤ s.cfg.hufMaxId + 1 by omega) hahead
    refine ⟨_, exec_hufDecode_of_treeRaised hsrc hdst hapart htree, ?_⟩
    rw [hcut.fetched_eq, hid]
    rfl

end Sys2Proof.Machine
end

section
/-! PROOF. The register map (spec/10_state.md R21, R40) and the register port (spec/43_host_and_system.md R161, R162). The part
that other statements can use: the register that an offset reaches (`regAt_eq`, `regAt_regOffset`), what a read answers
(`readReg_of_reg`), and what a store leaves of the other registers (`regValue_storeReg_other`). -/

namespace Sys2Proof.Machine

open Sys2Proof

/-! ### The register map (R21) -/

/-- R40: an offset reaches the slot of its word. -/
theorem regAt_eq (o : Offset) : regAt o = regAtSlot (4 * (o.toNat / 4)) := by
  have hmask : (o &&& 0x3FC).toNat = 4 * (o.toNat / 4) := by
    have hbits : o &&& (0x3FC : Offset) = (o >>> 2) <<< 2 := by
      apply BitVec.eq_of_getLsbD_eq
      intro i hi
      interval_cases i <;> simp
    rw [hbits, BitVec.toNat_shiftLeft, BitVec.toNat_ushiftRight, Nat.shiftRight_eq_div_pow, Nat.shiftLeft_eq]
    omega
  rw [regAt, hmask]

theorem regAt_regOffset (r : PortReg) : regAt (regOffset r) = some r := by
  cases r with
  | cmvsMd5 i => revert i; decide
  | secret j => revert j; decide
  | tblwin j => revert j; decide
  | _ => decide

/-- The reserved slots. -/
theorem regAtSlot_eq_none_iff {n : Nat} (hn : n % 4 = 0) :
    regAtSlot n = none ↔ (0x058 ≤ n ∧ n < 0x080) ∨ (0x0C0 ≤ n ∧ n < 0x100) ∨ 0x200 ≤ n := by
  unfold regAtSlot
  split
  case h_19 =>
    simp only [imp_false] at *
    split_ifs
    case neg => exact iff_of_true rfl (by omega)
    all_goals exact iff_of_false (by simp) (by omega)
  all_goals simp

/-- Settles O39: the table row by row, and `regAt_eq` for bits 1:0 and the reserved slots. -/
theorem registerMapIsTable : Obligations.RegisterMapIsTable := by
  unfold Obligations.RegisterMapIsTable
  refine ⟨by decide, fun j => ⟨regAt_regOffset (.secret j), rfl⟩, fun j => ⟨regAt_regOffset (.tblwin j), rfl⟩,
    fun o p h => ?_, fun o => ?_⟩
  · rw [regAt_eq, regAt_eq, h]
  · rw [regAt_eq, regAtSlot_eq_none_iff (Nat.mul_mod_right 4 _)]
    omega

/-! ### Reads (R162) -/

/-- A read of a register other than TBLWIN answers its value and changes nothing. -/
theorem readReg_of_reg {o : Offset} {r : PortReg} (ho : regAt o = some r) (hr : ∀ j, r ≠ .tblwin j) (s : State) :
    readReg o s = (regValue s r, s) := by
  unfold readReg
  rw [ho]
  cases r with
  | tblwin j => exact absurd rfl (hr j)
  | _ => rfl

theorem readReg_of_reserved {o : Offset} (ho : regAt o = none) (s : State) : readReg o s = (0, s) := by
  unfold readReg
  rw [ho]

theorem readReg_of_tblwin {o : Offset} {j : Fin 64} (ho : regAt o = some (.tblwin j)) (s : State) :
    readReg o s = if s.busy || !s.status.tblValid then drawWord s else (tblWindow s.tbl j, s) := by
  unfold readReg
  rw [ho]
  rfl

/-- Settles O49: none of the four is TBLWIN, so the reads answer `regValue`. -/
theorem reportRegistersRead : Obligations.ReportRegistersRead := by
  unfold Obligations.ReportRegistersRead
  intro s
  rw [readReg_of_reg (r := .errcode) (by decide) nofun, readReg_of_reg (r := .errinfo) (by decide) nofun,
    readReg_of_reg (r := .res0) (by decide) nofun, readReg_of_reg (r := .res1) (by decide) nofun]
  refine ⟨?_, rfl, rfl, rfl⟩
  show errcodeWord s.errcode = _
  cases s.errcode <;> rfl

/-- The value of a little-endian word. -/
theorem toNat_wordOf (b0 b1 b2 b3 : Byte) :
    (wordOf b0 b1 b2 b3).toNat = b0.toNat + b1.toNat * 2 ^ 8 + b2.toNat * 2 ^ 16 + b3.toNat * 2 ^ 24 := by
  rw [wordOf, BitVec.toNat_append, BitVec.toNat_append, BitVec.toNat_append, ← Nat.shiftLeft_add_eq_or_of_lt b2.isLt,
    ← Nat.shiftLeft_add_eq_or_of_lt b1.isLt, ← Nat.shiftLeft_add_eq_or_of_lt b0.isLt]
  simp only [Nat.shiftLeft_eq]
  ring

theorem tblGet_ofNat (t : Vector Byte 256) {n : Nat} (hn : n < 256) : tblGet t (BitVec.ofNat 8 n) = t[n] := by
  simp only [tblGet, BitVec.toNat_ofNat, Nat.mod_eq_of_lt hn]

/-- Settles O48: the two branches of a TBLWIN read. -/
theorem tableWindowShowsTable : Obligations.TableWindowShowsTable := by
  unfold Obligations.TableWindowShowsTable
  intro s j
  have hread := readReg_of_tblwin (regAt_regOffset (.tblwin j)) s
  refine ⟨fun hidle hvalid => ?shown, fun hvalid => ?unbuilt, fun hbusy => ?busy⟩
  case shown =>
    rw [if_neg (by simp [hidle, hvalid])] at hread
    have hentry (i : Nat) (hi : i < 256) := tblGet_ofNat s.tbl hi
    refine ⟨congrArg Prod.snd hread, (congrArg (fun x => x.1.toNat) hread).trans ?_⟩
    rw [tblWindow, toNat_wordOf, hentry _ (by omega), hentry _ (by omega), hentry _ (by omega), hentry _ (by omega)]
  case unbuilt => exact hread.trans (if_pos (by simp [hvalid]))
  case busy => exact hread.trans (if_pos (by simp [hbusy]))

/-! ### Stores (R161) -/

/-- A register write while idle, at any offset of the register's slot. -/
theorem hostEvent_regWrite_of_idle {s : State} (hidle : s.busy = false) {o : Offset} {r : PortReg}
    (ho : regAt o = some r) (v : Word) : hostEvent (.regWrite o v) s = storeReg v s r :=
  writeReg_of_idle hidle ho v

/-- Settles O7: the four offsets below 4 reach CMD. -/
theorem commandWriteIsAccepted : Obligations.CommandWriteIsAccepted := by
  unfold Obligations.CommandWriteIsAccepted
  intro s o w hidle ho
  have hcmd : regAt o = some .cmd := by
    rw [regAt_eq, Nat.div_eq_of_lt ho]
    rfl
  rw [hostEvent_regWrite_of_idle hidle hcmd]
  exact ⟨rfl, rfl⟩

section
variable {r : PortReg} (hr : plainReg r = true) (v : Word) (s : State)
include hr

theorem plainReg_ne_tblwin (j : Fin 64) : r ≠ .tblwin j := by
  rintro rfl
  cases hr

/-- A store to a plain register changes the host-written registers only. -/
theorem storeReg_frame_of_plain : storeReg v s r = { s with regs := (storeReg v s r).regs } := by
  cases r with
  | cmd | status | errcode | errinfo | entryTailKey | secretLen | res0 | res1 | tblwin => cases hr
  | _ => rfl

theorem regValue_storeReg_same : regValue (storeReg v s r) r = v := by
  cases r with
  | cmvsMd5 i => exact Vector.getElem_set_self i.isLt
  | secret j => exact Vector.getElem_set_self j.isLt
  | cmd | status | errcode | errinfo | entryTailKey | secretLen | res0 | res1 | tblwin => cases hr
  | _ => rfl

theorem regValue_storeReg_other {q : PortReg} (hq : q ≠ r) : regValue (storeReg v s r) q = regValue s q := by
  cases r with
  | cmvsMd5 i =>
    cases q with
    | cmvsMd5 j => exact Vector.getElem_set_ne i.isLt j.isLt fun h => hq (congrArg _ (Fin.ext h.symm))
    | _ => rfl
  | secret i =>
    cases q with
    | secret j => exact Vector.getElem_set_ne i.isLt j.isLt fun h => hq (congrArg _ (Fin.ext h.symm))
    | _ => rfl
  | cmd | status | errcode | errinfo | entryTailKey | secretLen | res0 | res1 | tblwin => cases hr
  | _ => cases q <;> first | rfl | exact absurd rfl hq

end

/-- Settles O40: an offset of R21 reaches its register, and a store writes one field. -/
theorem plainRegisterHoldsItsWrite : Obligations.PlainRegisterHoldsItsWrite := by
  unfold Obligations.PlainRegisterHoldsItsWrite
  intro s v hidle
  have hwrite (r : PortReg) : hostEvent (.regWrite (regOffset r) v) s = storeReg v s r :=
    hostEvent_regWrite_of_idle hidle (regAt_regOffset r) v
  refine ⟨fun r hr => ?_, hwrite .srcAddr, hwrite .srcLen, hwrite .dstAddr, hwrite .dstLen, hwrite .initKey,
    hwrite .initSummand, hwrite .decoderFactor, hwrite .seed, hwrite .entryInitKey, hwrite .entryKeyPos,
    fun i => hwrite (.cmvsMd5 i), fun j => hwrite (.secret j)⟩
  rw [hwrite]
  dsimp only
  rw [readReg_of_reg (regAt_regOffset r) (plainReg_ne_tblwin hr)]
  exact ⟨regValue_storeReg_same hr v s, fun q => regValue_storeReg_other hr v s, storeReg_frame_of_plain hr v s⟩

/-- Settles O41: a byte widened back to 32 bits, and a clamped length that fits a word. -/
theorem partialRegistersStoreTheirPart : Obligations.PartialRegistersStoreTheirPart := by
  unfold Obligations.PartialRegistersStoreTheirPart
  intro s v hidle
  rw [hostEvent_regWrite_of_idle hidle (r := .entryTailKey) (by decide),
    hostEvent_regWrite_of_idle hidle (r := .secretLen) (by decide)]
  dsimp only
  rw [readReg_of_reg (r := .entryTailKey) (by decide) nofun, readReg_of_reg (r := .secretLen) (by decide) nofun]
  refine ⟨⟨?tail, rfl⟩, ?len, rfl⟩
  case tail =>
    show (v.setWidth 8).setWidth 32 = v &&& 0xFF
    apply BitVec.eq_of_toNat_eq
    rw [toNat_and_byte, opField, BitVec.toNat_setWidth, BitVec.toNat_setWidth, BitVec.extractLsb'_toNat,
      Nat.shiftRight_zero]
    omega
  case len =>
    show (BitVec.ofNat 32 (min v.toNat 16)).toNat = min v.toNat 16
    exact (BitVec.toNat_ofNat _ _).trans (Nat.mod_eq_of_lt (by omega))

theorem storeReg_of_readOnly {r : PortReg} (hr : readOnlyReg r = true) (v : Word) (s : State) : storeReg v s r = s := by
  cases r with
  | errcode | errinfo | res0 | res1 | tblwin => rfl
  | _ => cases hr

theorem writeReg_of_reserved {s : State} (hidle : s.busy = false) {o : Offset} (ho : regAt o = none) (v : Word) :
    writeReg o v s = s := by
  rw [writeReg, if_neg (by simp [hidle]), ho]

/-- Settles O42: no store to a read-only register, and no value at CMD and in the reserved slots. -/
theorem readOnlyAndReservedIgnoreWrites : Obligations.ReadOnlyAndReservedIgnoreWrites := by
  unfold Obligations.ReadOnlyAndReservedIgnoreWrites
  refine ⟨fun s o v hidle ho => ?_, fun s o ho => ?_⟩
  · obtain ho | ⟨r, ho, hr⟩ := ho
    · exact writeReg_of_reserved hidle ho v
    · rw [hostEvent_regWrite_of_idle hidle ho, storeReg_of_readOnly hr]
  · obtain ho | ho := ho
    · exact readReg_of_reserved ho s
    · exact readReg_of_reg ho nofun s

theorem toNat_statusWord (busy done err tblValid wbusy : Bool) :
    (statusWord busy ⟨done, err, tblValid, wbusy⟩).toNat =
      busy.toNat + 2 * done.toNat + 4 * err.toNat + 8 * tblValid.toNat + 16 * wbusy.toNat := by
  revert busy done err tblValid wbusy
  decide

/-- Settles O43: `Status.clearBy` is the W1C rule of R161, and STATUS reads as the sum of its bits. -/
theorem statusWriteOneClears : Obligations.StatusWriteOneClears := by
  unfold Obligations.StatusWriteOneClears
  refine ⟨fun s v hidle => hostEvent_regWrite_of_idle hidle (r := .status) (by decide) v, fun s => ?_⟩
  rw [readReg_of_reg (r := .status) (by decide) nofun]
  exact toNat_statusWord s.busy _ _ _ _

end Sys2Proof.Machine
end

section
/-! PROOF. Engine accesses to buffer RAM (spec/20_memory.md R41, R42, R52) and the reads of the host's two ports
(spec/43_host_and_system.md R162, R164). The part that other statements can use: the bytes that a word write stores
(`byteAt_writeWord`), and that a host read makes at most one draw (`readReg_draws`, `readBuffer_draws`). -/

namespace Sys2Proof.Machine

open Sys2Proof

/-! ### MemRead and MemWrite (R41, R42) -/

/-- Settles O37: each byte is read once, and a word is the value of its four bytes. -/
theorem memReadIsLittleEndian : Obligations.MemReadIsLittleEndian := by
  unfold Obligations.MemReadIsLittleEndian
  refine ⟨fun s a b => readByte_of_written, fun s a => readByte_of_unwritten, fun s a b0 b1 b2 b3 h0 h1 h2 h3 => ?_⟩
  rw [readWord_eq, readByte_of_written h0, readByte_of_written h1, readByte_of_written h2, readByte_of_written h3]
  exact ⟨rfl, toNat_wordOf b0 b1 b2 b3⟩

theorem byteAt_writeWord (a : Nat) (v : Word) (s : State) {i : Nat} (hi : i < 4) :
    (writeWord a v s).byteAt (a + i) = some (byteOf v i) := by
  obtain ⟨m, heq, hm, -⟩ := writeWord_spec a v s
  rw [heq, State.byteAt, setMem_mem, hm]
  interval_cases i <;> simp

theorem byteAt_writeWord_other (a : Nat) (v : Word) (s : State) {x : Nat} (hx : x < a ∨ a + 4 ≤ x) :
    (writeWord a v s).byteAt x = s.byteAt x := by
  obtain ⟨m, heq, hm, -⟩ := writeWord_spec a v s
  rw [heq, State.byteAt, setMem_mem, hm, if_neg (by omega), if_neg (by omega), if_neg (by omega), if_neg (by omega)]

/-- R6: byte `i` of a word. -/
theorem byteOf_eq_shift (w : Word) (i : Nat) : byteOf w i = ((w >>> (8 * i)) &&& 0xFF).setWidth 8 := by
  rw [shiftRight_and_byte, BitVec.setWidth_setWidth_of_le _ (by decide), BitVec.setWidth_eq]
  rfl

/-- Settles O38: the four bytes of `writeWord_spec`. -/
theorem memWriteIsLittleEndian : Obligations.MemWriteIsLittleEndian := by
  unfold Obligations.MemWriteIsLittleEndian
  refine ⟨fun s a v => ⟨fun i hi => ?_, fun x => byteAt_writeWord_other a v s, ?_⟩, fun s a b => ⟨?_, fun x hx => ?_, rfl⟩⟩
  · rw [byteAt_writeWord a v s hi, byteOf_eq_shift]
  · obtain ⟨m, heq, -⟩ := writeWord_spec a v s
    rw [heq]
    rfl
  · rw [byteAt_writeByte, if_pos rfl]
  · rw [byteAt_writeByte, if_neg hx]

/-! ### Host reads (R162, R164) -/

theorem readReg_draws (o : Offset) (s : State) : ∃ d, d ≤ 1 ∧ (readReg o s).2 = s.setDraws (s.draws + d) := by
  cases ho : regAt o with
  | none => exact ⟨0, Nat.zero_le 1, by rw [readReg_of_reserved ho]; rfl⟩
  | some r =>
    by_cases hr : ∃ j, r = .tblwin j
    · obtain ⟨j, rfl⟩ := hr
      rw [readReg_of_tblwin ho]
      split
      · exact ⟨1, Nat.le_refl 1, rfl⟩
      · exact ⟨0, Nat.zero_le 1, rfl⟩
    · exact ⟨0, Nat.zero_le 1, by rw [readReg_of_reg ho fun j hj => hr ⟨j, hj⟩]; rfl⟩

section
variable {s : State} (a : Word)

theorem readBuffer_of_busy (hbusy : s.busy = true) : readBuffer a s = drawByte s := by
  rw [readBuffer, if_pos hbusy]

theorem readBuffer_of_inside {a : Word} (hidle : s.busy = false) (ha : a.toNat < s.cfg.bufSize) :
    readBuffer a s = readByte a.toNat s := by
  rw [readBuffer, if_neg (by simp [hidle]), if_pos ha]

theorem readBuffer_of_outside {a : Word} (hidle : s.busy = false) (ha : s.cfg.bufSize ≤ a.toNat) :
    readBuffer a s = (0, s) := by
  rw [readBuffer, if_neg (by simp [hidle]), if_neg (Nat.not_lt.2 ha)]

theorem readBuffer_draws : ∃ d, d ≤ 1 ∧ (readBuffer a s).2 = s.setDraws (s.draws + d) := by
  cases hbusy : s.busy with
  | true => exact ⟨1, Nat.le_refl 1, by rw [readBuffer_of_busy a hbusy]; rfl⟩
  | false =>
    rcases Nat.lt_or_ge a.toNat s.cfg.bufSize with ha | ha
    · rw [readBuffer_of_inside hbusy ha]
      rcases readByte_cases a.toNat s with ⟨b, -, heq⟩ | ⟨-, heq⟩
      · exact ⟨0, Nat.zero_le 1, by rw [heq]; rfl⟩
      · exact ⟨1, Nat.le_refl 1, by rw [heq]⟩
    · exact ⟨0, Nat.zero_le 1, by rw [readBuffer_of_outside hbusy ha]; rfl⟩

end

theorem hostEvent_bufRead_eq (a : Word) (s : State) :
    hostEvent (.bufRead a) s = respond (.buf a (readBuffer a s).1) (readBuffer a s).2 := rfl

theorem hostEvent_regRead_eq (o : Offset) (s : State) :
    hostEvent (.regRead o) s = respond (.reg o (readReg o s).1) (readReg o s).2 := rfl

/-- Settles O45: a read answers and leaves the state but for its draw. -/
theorem readsHaveNoSideEffect : Obligations.ReadsHaveNoSideEffect := by
  unfold Obligations.ReadsHaveNoSideEffect
  refine fun s => ⟨fun o => ?_, fun a => ?_⟩
  · obtain ⟨d, hd, heq⟩ := readReg_draws o s
    exact ⟨_, d, hd, by rw [hostEvent_regRead_eq, heq]; rfl⟩
  · obtain ⟨d, hd, heq⟩ := readBuffer_draws (s := s) a
    exact ⟨_, d, hd, by rw [hostEvent_bufRead_eq, heq]; rfl⟩

/-- Settles O47: the branches of a buffer read. -/
theorem bufferReadAnswersByte : Obligations.BufferReadAnswersByte := by
  unfold Obligations.BufferReadAnswersByte
  intro s a
  refine ⟨fun b hidle ha hb => ?_, fun hidle ha => ?_, fun hdraw => ?_⟩
  · rw [hostEvent_bufRead_eq, readBuffer_of_inside hidle ha, readByte_of_written hb]
    rfl
  · rw [hostEvent_bufRead_eq, readBuffer_of_outside hidle ha]
    rfl
  · have hread : readBuffer a s = (Config.freeByte s.draws, s.setDraws (s.draws + 1)) := by
      cases hbusy : s.busy with
      | true => exact readBuffer_of_busy a hbusy
      | false =>
        obtain hbusy' | ⟨ha, hnone⟩ := hdraw
        · simp [hbusy] at hbusy'
        · rw [readBuffer_of_inside hbusy ha, readByte_of_unwritten hnone]
    rw [hostEvent_bufRead_eq, hread]
    rfl

end Sys2Proof.Machine
end

section
/-! PROOF. Written-out command words (spec/30_encoding.md R60, R63) and the host assembly (R66, R67). The part that other
statements can use: the number of a command word (`toNat_packCommand`), the two shapes of a well-formed command
(`asmCmd_wf_iff`), and the list transactions by index (`asmBytes_eq`, `asmSecretWrites_eq`). -/

namespace Sys2Proof.Machine

open Sys2Proof

/-! ### Command words -/

/-- Settles O3: the decoder evaluated on ten written-out words. -/
theorem writtenWordsDecode : Obligations.WrittenWordsDecode := by
  unfold Obligations.WrittenWordsDecode
  decide

theorem toNat_packCommand (imm op : Byte) : (packCommand 0 imm op).toNat = imm.toNat * 256 + op.toNat := by
  have himm : ((0 : BitVec 16) ++ imm).toNat = imm.toNat := by
    rw [BitVec.toNat_append, BitVec.ofNat_eq_ofNat, BitVec.toNat_zero, Nat.zero_shiftLeft, Nat.zero_or]
  rw [packCommand, BitVec.toNat_append, himm, ← Nat.shiftLeft_add_eq_or_of_lt op.isLt, Nat.shiftLeft_eq]

/-- R66: a command has `#k` exactly where its mnemonic takes one, and then `k` is a byte. -/
theorem asmCmd_wf_iff {c : AsmCmd} :
    c.wf = true ↔ (c.op.takesImm = false ∧ c.imm = none) ∨ ∃ k, c.op.takesImm = true ∧ c.imm = some k ∧ k ≤ 255 := by
  obtain ⟨op, imm⟩ := c
  cases imm <;> simp [AsmCmd.wf]

/-- The number of a command word with `#k`. -/
theorem toNat_packCommand_imm {k : Nat} (hk : k ≤ 255) (op : Byte) :
    (packCommand 0 (BitVec.ofNat 8 k) op).toNat = k * 256 + op.toNat := by
  rw [toNat_packCommand, BitVec.toNat_ofNat, Nat.mod_eq_of_lt (Nat.lt_succ_of_le hk)]

/-- Settles O4: the word is that of the row of the mnemonic, with `#k` for IMM8 where the row has one. -/
theorem assembledCommandIsItsWord : Obligations.AssembledCommandIsItsWord := by
  unfold Obligations.AssembledCommandIsItsWord
  intro c early hwf
  obtain ⟨op, imm⟩ := c
  refine ⟨encode (AsmCmd.toInstr ⟨op, imm⟩), rfl, ?number, decode_encode _, by cases op <;> rfl⟩
  obtain ⟨htakes, rfl⟩ | ⟨k, htakes, rfl, hk⟩ := asmCmd_wf_iff.1 hwf
  · cases op with
    | subDecode | subEncode => cases htakes
    | _ => rfl
  · cases op with
    | subDecode | subEncode => exact toNat_packCommand_imm hk _
    | _ => cases htakes

/-! ### Lists of transactions -/

theorem asmBytes_eq (a : Nat) (bs : List Nat) :
    asmBytes a bs =
      (List.range bs.length).map fun i => .bufWrite (BitVec.ofNat 32 (a + i)) (BitVec.ofNat 8 (bs.getD i 0)) := by
  induction bs generalizing a with
  | nil => rfl
  | cons b bs ih =>
    rw [asmBytes, ih, List.length_cons, List.range_succ_eq_map, List.map_cons, List.map_map]
    congr 1
    refine List.map_congr_left fun i _ => ?_
    simp only [Function.comp, Nat.succ_eq_add_one, List.getD_cons_succ, Nat.add_assoc, Nat.add_comm 1]

/-- Settles O51: `asmBytes` lists the bytes by their index; the other lines are written out. -/
theorem assembledPortLinesAreTransactions : Obligations.AssembledPortLinesAreTransactions := by
  unfold Obligations.AssembledPortLinesAreTransactions
  intro early polls o v a n r bs
  refine ⟨rfl, rfl, rfl, rfl, ?_, ?_⟩
  · simp [assemble, asmOps, asmEndsInWait, asmBytes_eq]
  · simp [assemble, asmOps, asmEndsInWait]

theorem asmSecretWrites_eq (i : Nat) (ws : List Nat) :
    asmSecretWrites i ws =
      (List.range ws.length).map fun j => asmWrite (.secret (Fin.ofNat 16 (i + j))) (ws.getD j 0) := by
  induction ws generalizing i with
  | nil => rfl
  | cons w ws ih =>
    rw [asmSecretWrites, ih, List.length_cons, List.range_succ_eq_map, List.map_cons, List.map_map]
    congr 1
    refine List.map_congr_left fun j _ => ?_
    simp only [Function.comp, Nat.succ_eq_add_one, List.getD_cons_succ, Nat.add_assoc, Nat.add_comm 1]

/-- The offset of a secret word below 16. -/
theorem asmWrite_secret {j : Nat} (hj : j < 16) (v : Nat) :
    asmWrite (.secret (Fin.ofNat 16 j)) v = .regWrite (BitVec.ofNat 10 (0x080 + 4 * j)) (BitVec.ofNat 32 v) := by
  simp [asmWrite, regOffset, Nat.mod_eq_of_lt hj]

/-- Settles O5: `asmSecretWrites` writes word `j` at the offset of SECRET[j]; the other expansions are written out. -/
theorem pseudoInstructionsExpand : Obligations.PseudoInstructionsExpand := by
  unfold Obligations.PseudoInstructionsExpand
  intro early polls a l m0 m1 m2 m3 ws c
  refine ⟨rfl, rfl, rfl, fun hlen => ?_, rfl, rfl, rfl⟩
  have hwrites : asmSecretWrites 0 ws =
      (List.range ws.length).map fun j => .regWrite (BitVec.ofNat 10 (0x080 + 4 * j)) (BitVec.ofNat 32 (ws.getD j 0)) := by
    rw [asmSecretWrites_eq]
    refine List.map_congr_left fun j hj => ?_
    rw [Nat.zero_add, asmWrite_secret (Nat.lt_of_lt_of_le (List.mem_range.1 hj) hlen)]
  rw [assemble, asmOps, hwrites, List.map_append, List.map_map]
  exact List.append_nil _

end Sys2Proof.Machine
end
